-- ==== Sys2Proof/Word.lean ====
section
/-! DEFINITION. The words of the block: widths from spec/00_scope.md R7, R10 and spec/10_state.md. A time is no word: it is
an unsigned integer of CLOCK_UNIT (R10), a Nat below 2^TS_BITS (R190; `Platform.tsBits`). -/

namespace Sys2Proof

/-- A 5-bit symbol (R71); bit 0 is the first data bit on the wire. -/
abbrev Sym := BitVec 5
/-- An 8-bit character (R10). -/
abbrev Chr := BitVec 8
/-- A filter level, 0..15 (R79). -/
abbrev FilterLevel := BitVec 4
/-- The TEXT address in a command word, OPERAND[15:0] (R79, R84). An address of TEXT itself is a number taken modulo
2^TEXT_ADDR_BITS (R59), which is a parameter of the platform. -/
abbrev TextAddr := BitVec 16
/-- The number of a line, 5 bits (R35, R59). -/
abbrev LineNo := BitVec 5
/-- How many lines a line number can name (R59). The bank has LINE_COUNT of them, which is a parameter of the platform. -/
abbrev maxLines : Nat := 32
/-- One bit per line that a line number can name (R24). -/
abbrev LineMask := BitVec maxLines
/-- A command word CMD32 (R80). -/
abbrev CmdWord := BitVec 32
/-- The cursor column, 7 bits (R22). -/
abbrev Col := BitVec 7

end Sys2Proof
end

