-- ==== Sys2Proof/Config.lean ====
section
/-! DEFINITION. The parameters of R9 and R8 as two records, what a construction request gives (`Cfg`, with the code tables)
and what the platform fixes (`Platform`), and the free values: constants without a value, for what the spec leaves open. -/

namespace Sys2Proof

/-- A code page (R12): the value that encode returns and that a table is chosen by; never UNKNOWN (C4). -/
inductive Page where
  | letters
  | figures
deriving DecidableEq, Repr

/-- The three values of ALPHA (R21, C4); the encoding 3 has no constructor. -/
inductive Alpha where
  | unknown
  | letters
  | figures
deriving DecidableEq, Repr

/-- ADDR_MODE (R36). -/
inductive AddrMode where
  | legacy
  | modern
deriving DecidableEq, Repr

/-- RX_ORDER (R148): where the first sample of a reception ends. -/
inductive RxOrder where
  | firstToBit0
  | reversed
deriving DecidableEq, Repr

/-- ECHO_FRAMING (R149): what local echo drives besides the five data bits. -/
inductive EchoFraming where
  | startAndStop
  | dataOnly
deriving DecidableEq, Repr

/-- TBL_L, TBL_F, the SYM_ constants, NATIONAL, PLACEHOLDER_SYM, QUOTE_FOLD and TERMINATOR (R9, R72 to R74, R102, R127):
one field of `Cfg` (U39, U40), which no operation writes (R64). The functions of the codec take them as an argument, so
that their laws hold for every choice. A table has exactly 32 entries by its type (R75 (a)). -/
structure CodeTables where
  tblL : Vector Chr 32
  tblF : Vector Chr 32
  symNull : Sym
  symLf : Sym
  symSp : Sym
  symCr : Sym
  symWru : Sym
  symBell : Sym
  symFigs : Sym
  symLtrs : Sym
  national : List Sym
  placeholderSym : Sym
  quoteFold : List Chr
  terminator : Chr
deriving DecidableEq, Repr

/-- The configuration record that a construction request gives (R200 step 3): the registers of R35 to R37 and the
parameters of R9 that belong to the block. Written at construction, constant afterwards. Durations are counts of
CLOCK_UNIT (R10, R37). DEFAULT_FILTER is read by the assembler alone (R89, D10). -/
structure Cfg where
  wrLine : LineNo
  kbdLine : LineNo
  pwrLine : LineNo
  auxLine : LineNo
  auxPresent : Bool
  addrMode : AddrMode
  tSym : Nat
  stopNumNormal : Nat
  stopDenNormal : Nat
  stopMultShift : Nat
  rxTail : Nat
  rxMargin : Nat
  tWarmup : Nat
  tCooldown : Nat
  idleThreshold : Nat
  kbdMarkLevel : Bool
  powerOnLevel : Bool
  rxOrder : RxOrder
  echoFraming : EchoFraming
  unknownOrder : Page
  decodeUnknownPage : Page
  sleepJitter : Nat
  code : CodeTables
  defaultFilter : FilterLevel
deriving DecidableEq, Repr

/-- The parameters of R9 that describe what lies outside the block and outlives a construction (log 31): the size of TEXT,
the clock, the line bank. No event writes them. -/
structure Platform where
  /-- TEXT_ADDR_BITS: TEXT has 2^TEXT_ADDR_BITS bytes, and TP is this wide (R32, R50, R57). -/
  textAddrBits : Nat
  /-- TS_BITS: the width of the clock and of PWR_SINCE (R23, R190). -/
  tsBits : Nat
  /-- CLOCK_UNIT, in nanoseconds (R10, R190). -/
  clockUnit : Nat
  /-- LINE_COUNT: the lines of the bank, and the bits of SHADOW (R24, R50). -/
  lineCount : Nat
  /-- ADDR_LEGACY; no operation reads it (R36, R56, D27). -/
  addrLegacy : Nat
  /-- ADDR_MODERN; no operation reads it (R36, R56, D27). -/
  addrModern : Nat
deriving DecidableEq, Repr

/-! ### Free values (no body: nothing can be proved of their values) -/

/-- FREE (log 11): the level a LineGet finds when the list of answers is used up (R55, U1). -/
opaque Config.freeLineLevel : LineNo → Nat → Bool

/-- FREE (log 12): the draw behind the excess of one Sleep (R62, U6); used only when SLEEP_JITTER is not 0. -/
opaque Config.freeSleepDraw : Nat → Nat

/-- FREE (log 8): the clock after a sum that passes 2^TS_BITS (R190, U45: no rule states it). -/
opaque Config.clockPastEnd : Nat → Nat → Nat

/-- FREE (log 9): the elapsed time when the timestamp is later than the clock (R166, U45: no rule states it). -/
opaque Config.elapsedPastEnd : Nat → Nat → Nat

/-- FREE (log 10): the ordinary stop interval when STOP_DEN_NORMAL is 0 (R37, R143: no rule states it). -/
opaque Config.stopWithoutDivisor : Nat → Nat → Nat

end Sys2Proof
end

