-- ==== Sys2Proof/Syntax.lean ====
section
/-! DEFINITION. The eleven operations (R81), one constructor per row of spec/opcode_table.json; R79's operand ranges
are the types of the fields (R80). And the reasons for which a command word spells no command (R86). -/

namespace Sys2Proof

/-- The operations of the block. -/
inductive Instr where
  /-- `ENC c, f` (R100) -/
  | enc (c : Chr) (f : FilterLevel)
  /-- `DEC s` (R106) -/
  | dec (sym : Sym)
  /-- `SCHR c, f` (R120) -/
  | schr (c : Chr) (f : FilterLevel)
  /-- `SSTR a, f` (R127) -/
  | sstr (a : TextAddr) (f : FilterLevel)
  /-- `SRAW s` (R141) -/
  | sraw (sym : Sym)
  /-- `DSB` (R145) -/
  | dsb
  /-- `RRAW e` (R147) -/
  | rraw (echo : Bool)
  /-- `SPWR o` (R161) -/
  | spwr (on : Bool)
  /-- `GPWR` (R163) -/
  | gpwr
  /-- `TPWR` (R164) -/
  | tpwr
  /-- `CPWR` (R165) -/
  | cpwr
deriving DecidableEq, Repr

/-- The mnemonic of R81. -/
def Instr.mnemonic : Instr → String
  | .enc _ _ => "ENC"
  | .dec _ => "DEC"
  | .schr _ _ => "SCHR"
  | .sstr _ _ => "SSTR"
  | .sraw _ => "SRAW"
  | .dsb => "DSB"
  | .rraw _ => "RRAW"
  | .spwr _ => "SPWR"
  | .gpwr => "GPWR"
  | .tpwr => "TPWR"
  | .cpwr => "CPWR"

/-- Why a word spells no command (R86): the OP nibble names no operation, or a field that must be 0 is not. -/
inductive DecodeError where
  | reservedOpcode
  | nonzeroZeroField
  | nonzeroArg
  | nonzeroOperand
deriving DecidableEq, Repr

end Sys2Proof
end

