-- ==== Sys2Proof/WellFormed.lean ====
section
/-! DEFINITION. The checks the spec names: a command word against the rows of R81 (R86), the code tables against R75,
a role configuration against R35. An `Instr` needs none: R79's ranges are its field types (R80). -/

namespace Sys2Proof

/-- One row of the opcode map (R81). -/
structure OpcodeRow where
  mnemonic : String
  fixed : CmdWord
  mask : CmdWord
deriving DecidableEq, Repr

/-- A word selects a row when its masked bits equal the row's (R81). -/
def OpcodeRow.selectedBy (r : OpcodeRow) (w : CmdWord) : Bool :=
  w &&& r.mask == r.fixed

/-- The opcode map (R81, opcode_table.json). -/
def opcodeRows : List OpcodeRow :=
  [ ⟨"ENC",  0x10000000, 0xF0FFFF00⟩,
    ⟨"DEC",  0x20000000, 0xFFFFFFE0⟩,
    ⟨"SCHR", 0x30000000, 0xF0FFFF00⟩,
    ⟨"SSTR", 0x40000000, 0xF0FF0000⟩,
    ⟨"SRAW", 0x50000000, 0xFFFFFFE0⟩,
    ⟨"DSB",  0x60000000, 0xFFFFFFFF⟩,
    ⟨"RRAW", 0x70000000, 0xFEFFFFFF⟩,
    ⟨"SPWR", 0x80000000, 0xFEFFFFFF⟩,
    ⟨"GPWR", 0x90000000, 0xFFFFFFFF⟩,
    ⟨"TPWR", 0xA0000000, 0xFFFFFFFF⟩,
    ⟨"CPWR", 0xB0000000, 0xFFFFFFFF⟩ ]

/-- The word spells a command: it selects some row (R86). -/
def wordSpellsCommand (w : CmdWord) : Bool :=
  opcodeRows.any (·.selectedBy w)

/-- The four role line numbers are pairwise distinct (R35, R200). DEDUCED: AUX_LINE counts whatever AUX_PRESENT says
(log 21). -/
def Cfg.rolesDistinct (c : Cfg) : Bool :=
  c.wrLine != c.kbdLine && c.wrLine != c.pwrLine && c.wrLine != c.auxLine &&
  c.kbdLine != c.pwrLine && c.kbdLine != c.auxLine && c.pwrLine != c.auxLine

/-- The four role registers name lines of the bank, 0..LINE_COUNT-1 (R35, R59). DEDUCED: AUX_LINE counts whatever
AUX_PRESENT says (log 21). -/
def Platform.hasLines (p : Platform) (c : Cfg) : Bool :=
  [c.wrLine, c.kbdLine, c.pwrLine, c.auxLine].all fun n => decide (n.toNat < p.lineCount)

namespace CodeTables

/-- The characters of filter classes 1 to 4 (R76, R103). -/
def classChars (k : CodeTables) : List Chr :=
  [k.tblL[k.symLtrs.toFin], k.tblF[k.symLtrs.toFin], k.tblL[k.symFigs.toFin], k.tblF[k.symFigs.toFin],
   k.tblF[k.symWru.toFin], k.tblL[k.symNull.toFin], k.tblF[k.symNull.toFin], k.tblF[k.symBell.toFin]]
  ++ k.national.map (fun i => k.tblF[i.toFin])

/-- The positions of the shared control codes (R75 (c)). -/
def sharedSyms (k : CodeTables) : List Sym :=
  [k.symNull, k.symLf, k.symSp, k.symCr, k.symFigs, k.symLtrs]

/-- R75 (b): within one table no character occurs twice. -/
def injective (k : CodeTables) : Bool :=
  decide k.tblL.toList.Nodup && decide k.tblF.toList.Nodup

/-- R75 (c): the positions whose entry is the same in both tables are exactly the shared control codes. -/
def sharedExactly (k : CodeTables) : Bool :=
  (List.finRange 32).all fun i => (k.tblL[i] == k.tblF[i]) == k.sharedSyms.contains (BitVec.ofFin i)

/-- R75 (d): no other character occurs in both tables. -/
def noOtherShared (k : CodeTables) : Bool :=
  (List.finRange 32).all fun i => (List.finRange 32).all fun j => k.tblL[i] != k.tblF[j] || i == j

/-- R75 (e): `a` to `z` all occur in TBL_L, and no upper-case letter occurs in either table. -/
def lettersOnly (k : CodeTables) : Bool :=
  ((List.range 26).all fun i => k.tblL.toList.contains (BitVec.ofNat 8 (0x61 + i))) &&
  ((List.range 26).all fun i => !(k.tblL.toList ++ k.tblF.toList).contains (BitVec.ofNat 8 (0x41 + i)))

/-- R75 (f): the apostrophe occurs in TBL_F. -/
def hasApostrophe (k : CodeTables) : Bool :=
  k.tblF.toList.contains 0x27#8

/-- R75 (g): the placeholder's character is in no filter class. -/
def placeholderUnfiltered (k : CodeTables) : Bool :=
  !k.classChars.contains k.tblF[k.placeholderSym.toFin]

/-- R75's check; (a), exactly 32 entries, is the tables' type. -/
def check (k : CodeTables) : Bool :=
  k.injective && k.sharedExactly && k.noOtherShared && k.lettersOnly && k.hasApostrophe && k.placeholderUnfiltered

/-- The shared control codes are six positions: "the six shared control codes" (R108), whose constants R72 and R75 (c) name.
DEDUCED: so the six constants differ (log 32). -/
def controlsDistinct (k : CodeTables) : Bool :=
  decide k.sharedSyms.Nodup

/-- What construction asks of the tables. -/
def wellFormed (k : CodeTables) : Bool :=
  k.check && k.controlsDistinct

end CodeTables

end Sys2Proof
end

