-- ==== Sys2Proof/Decode.lean ====
section
/-! DEFINITION. The decoder of a command word and the encoder, both from R79 to R84 of spec/30_encoding.md. -/

namespace Sys2Proof

/-! ### The fields of CMD32 (R80) -/

def cmdOp (w : CmdWord) : BitVec 4 := w.extractLsb' 28 4
def cmdArg (w : CmdWord) : BitVec 4 := w.extractLsb' 24 4
def cmdZero (w : CmdWord) : BitVec 8 := w.extractLsb' 16 8
def cmdOperand (w : CmdWord) : BitVec 16 := w.extractLsb' 0 16

/-! ### The operand formats (R82 to R84): the operand, or the field that had to be 0 -/

/-- Format C (R82): character and filter level. -/
def decodeC (mk : Chr → FilterLevel → Instr) (w : CmdWord) : Except DecodeError Instr :=
  if (cmdOperand w).extractLsb' 8 8 ≠ 0 then .error .nonzeroOperand
  else .ok (mk ((cmdOperand w).extractLsb' 0 8) (cmdArg w))

/-- Format S (R83): a symbol. -/
def decodeS (mk : Sym → Instr) (w : CmdWord) : Except DecodeError Instr :=
  if cmdArg w ≠ 0 then .error .nonzeroArg
  else if (cmdOperand w).extractLsb' 5 11 ≠ 0 then .error .nonzeroOperand
  else .ok (mk ((cmdOperand w).extractLsb' 0 5))

/-- Format T (R84): a TEXT address and a filter level. -/
def decodeT (mk : TextAddr → FilterLevel → Instr) (w : CmdWord) : Except DecodeError Instr :=
  .ok (mk (cmdOperand w) (cmdArg w))

/-- Format B (R84): a boolean in ARG[0]. -/
def decodeB (mk : Bool → Instr) (w : CmdWord) : Except DecodeError Instr :=
  if (cmdArg w).extractLsb' 1 3 ≠ 0 then .error .nonzeroArg
  else if cmdOperand w ≠ 0 then .error .nonzeroOperand
  else .ok (mk ((cmdArg w).getLsbD 0))

/-- Format N (R84): no operand. -/
def decodeN (i : Instr) (w : CmdWord) : Except DecodeError Instr :=
  if cmdArg w ≠ 0 then .error .nonzeroArg
  else if cmdOperand w ≠ 0 then .error .nonzeroOperand
  else .ok i

/-- The operation of a command word, or why it spells none (R81, R86). -/
def decode (w : CmdWord) : Except DecodeError Instr :=
  if cmdZero w ≠ 0 then .error .nonzeroZeroField
  else if cmdOp w = 0x1 then decodeC .enc w
  else if cmdOp w = 0x2 then decodeS .dec w
  else if cmdOp w = 0x3 then decodeC .schr w
  else if cmdOp w = 0x4 then decodeT .sstr w
  else if cmdOp w = 0x5 then decodeS .sraw w
  else if cmdOp w = 0x6 then decodeN .dsb w
  else if cmdOp w = 0x7 then decodeB .rraw w
  else if cmdOp w = 0x8 then decodeB .spwr w
  else if cmdOp w = 0x9 then decodeN .gpwr w
  else if cmdOp w = 0xA then decodeN .tpwr w
  else if cmdOp w = 0xB then decodeN .cpwr w
  else .error .reservedOpcode

/-- A command word from its fields (R80). -/
def cmdWord (op arg : BitVec 4) (operand : BitVec 16) : CmdWord :=
  op ++ arg ++ 0#8 ++ operand

/-- A boolean in ARG (R84). -/
def argOfBool (b : Bool) : BitVec 4 := if b then 1 else 0

/-- The command word of an operation (R79 to R84). -/
def encode : Instr → CmdWord
  | .enc c f => cmdWord 0x1 f (c.setWidth 16)
  | .dec s => cmdWord 0x2 0 (s.setWidth 16)
  | .schr c f => cmdWord 0x3 f (c.setWidth 16)
  | .sstr a f => cmdWord 0x4 f a
  | .sraw s => cmdWord 0x5 0 (s.setWidth 16)
  | .dsb => cmdWord 0x6 0 0
  | .rraw e => cmdWord 0x7 (argOfBool e) 0
  | .spwr o => cmdWord 0x8 (argOfBool o) 0
  | .gpwr => cmdWord 0x9 0 0
  | .tpwr => cmdWord 0xA 0 0
  | .cpwr => cmdWord 0xB 0 0

/-- What the decoder reads from a word whose low `nbits` bits are `w`'s and whose other bits are 0. A command word is
one 32-bit value (R58, R80), so there is no byte order to lay it out in. -/
def decodeTableWord (nbits w : Nat) : Option Instr :=
  match decode (BitVec.ofNat 32 (w % 2 ^ nbits)) with
  | .ok i => some i
  | .error _ => none

end Sys2Proof
end

