-- ==== Sys2Proof/Machine/Shipped.lean ====
section
/-! DEFINITION. The values the block ships with: the code tables (R72 to R74), the constants the source fixes (R7), and
the configuration and the platform of State.reset, with the defaults of R9. -/

namespace Sys2Proof.Machine

/-- The shipped tables and constants (R72, R73, R74; D4 to D7, D13). PRESUMED by the spec itself: the entries are the
international ITA2 assignment, "from general knowledge" (log 6). -/
def shippedCode : CodeTables where
  tblL := #v[0x00, 0x65, 0x0A, 0x61, 0x20, 0x73, 0x69, 0x75, 0x0D, 0x64, 0x72, 0x6A, 0x6E, 0x66, 0x63, 0x6B,
             0x74, 0x7A, 0x6C, 0x77, 0x68, 0x79, 0x70, 0x71, 0x6F, 0x62, 0x67, 0x0E, 0x6D, 0x78, 0x76, 0x0F]
  tblF := #v[0x00, 0x33, 0x0A, 0x2D, 0x20, 0x27, 0x38, 0x37, 0x0D, 0x05, 0x34, 0x07, 0x2C, 0x21, 0x3A, 0x28,
             0x35, 0x2B, 0x29, 0x32, 0x23, 0x36, 0x30, 0x31, 0x39, 0x3F, 0x26, 0x0E, 0x2E, 0x2F, 0x3D, 0x0F]
  symNull := 0x00
  symLf := 0x02
  symSp := 0x04
  symCr := 0x08
  symWru := 0x09
  symBell := 0x0B
  symFigs := 0x1B
  symLtrs := 0x1F
  national := [0x0D, 0x14, 0x1A]
  placeholderSym := 0x19
  quoteFold := [0x22, 0x60]
  terminator := 0x00

/-- WRAP_COL (R7, R123). -/
def wrapCol : Col := 69

/-- The configuration State.reset is constructed with. The role lines, T_WARMUP, T_COOLDOWN and IDLE_THRESHOLD are the
spec's test configuration (95_test_vectors.md), DESIGN CHOICE (logs 3, 4); ADDR_MODE and DEFAULT_FILTER are DESIGN CHOICES
(logs 5, 30); the other values are R7's, R9's and R37's. -/
def referenceCfg : Cfg where
  wrLine := 17
  kbdLine := 27
  pwrLine := 22
  auxLine := 0
  auxPresent := false
  addrMode := .legacy
  tSym := 20000
  stopNumNormal := 3
  stopDenNormal := 2
  stopMultShift := 5
  rxTail := 20000
  rxMargin := 20000
  tWarmup := 2000000
  tCooldown := 1000000
  idleThreshold := 60000000
  kbdMarkLevel := true
  powerOnLevel := true
  rxOrder := .firstToBit0
  echoFraming := .startAndStop
  unknownOrder := .letters
  decodeUnknownPage := .letters
  sleepJitter := 0
  code := shippedCode
  defaultFilter := 0

/-- The platform of State.reset: the defaults of R9, CLOCK_UNIT being 1 microsecond. The base addresses have none: DESIGN
CHOICE 0 (log 5). -/
def referencePlatform : Platform where
  textAddrBits := 16
  tsBits := 64
  clockUnit := 1000
  lineCount := 32
  addrLegacy := 0
  addrModern := 0

/-- The base address that ADDR_MODE selects (R36, R56). No operation reads it: the bank is reached only through LineSet,
LineClear and LineGet. -/
def bankBase (p : Platform) : AddrMode → Nat
  | .legacy => p.addrLegacy
  | .modern => p.addrModern

end Sys2Proof.Machine
end

