-- ==== Sys2Proof/Machine/State.lean ====
section
/-! DEFINITION. The state of the block (spec/10_state.md), the reasons to stop, and the state after reset (R200, R201). -/

namespace Sys2Proof.Machine

/-- The two construction failures (R181). -/
inductive ConstructError where
  | acquire
  | map
deriving DecidableEq, Repr

/-- What the platform answers to a construction: the bank is acquired and mapped, or which step fails (R200, U7). -/
inductive BankAnswer where
  | ok
  | acquireFails
  | mapFails
deriving DecidableEq, Repr

/-- What the host can do (R193), one event at a time. -/
inductive HostEvent where
  /-- A construction request with its configuration, and the platform's answer to it (R200). -/
  | construct (cfg : Cfg) (bank : BankAnswer)
  /-- One command word (R80). -/
  | command (w : CmdWord)
  /-- The host lets time pass before its next command (R43, R90). -/
  | wait (d : Nat)
  /-- The host writes one byte of TEXT (R57); the address is taken modulo the size of TEXT (R59). -/
  | fillText (a : Nat) (b : Chr)
deriving DecidableEq, Repr

/-- A command to a line, or a sample of one: line, level, instant (R42). -/
structure LineEvent where
  line : LineNo
  level : Bool
  time : Nat
deriving DecidableEq, Repr

/-- An SSTR that has not returned yet: TP, the address of the character to read next (R32, R127), and the filter level. -/
structure StringSend where
  tp : Nat
  filter : FilterLevel
deriving DecidableEq, Repr

/-- The machine's state. The fields from `port` on are the model's own; INVENTORY.md lists them all. -/
structure State where
  /-- ALPHA (R21). -/
  alpha : Alpha
  /-- COL (R22). -/
  col : Col
  /-- PWR_VALID and PWR_SINCE (R23): `none` is PWR_VALID = 0. -/
  powerOnSince : Option Nat
  /-- SHADOW (R24); `shadowMask` is its LINE_COUNT bits. -/
  shadow : LineMask
  /-- RES (R33). -/
  res : BitVec 32
  /-- STATUS (R34). -/
  status : BitVec 8
  /-- The configuration registers (R35 to R37) and the parameters of R9 that belong to the block, the code tables among
  them. -/
  cfg : Cfg
  /-- The parameters of R9 that describe what lies outside the block; no step writes them (log 31). -/
  platform : Platform
  /-- TEXT (R57), in the canonical form of `Memory.wf`. -/
  text : List Host.Cell
  /-- Now() (R190). -/
  clock : Nat
  /-- The SSTR that is still running, if there is one: between steps only one whose TEXT holds no terminator (R127, R185,
  R214; log 14). -/
  sending : Option StringSend
  /-- The host's events still to come, the next one first (R193). -/
  port : List HostEvent
  /-- The keyboard line's answers still to come, one per LineGet (R55). -/
  kbd : List Bool
  /-- How many free values have been used (log 19). -/
  draws : Nat
  /-- The line commands since construction, oldest first (R42). -/
  trace : List LineEvent
  /-- The line samples since construction, oldest first (R42, R151). -/
  samples : List LineEvent
  /-- The symbols that SendRaw has sent since construction, oldest first. -/
  sent : List Sym
deriving DecidableEq, Repr

/-- Why a step can stop the machine with a fault: there is no reason, and so no constructor. After construction nothing can
fail (R180, R185), and a construction failure is taken as a next state (R182). -/
inductive Fault where
deriving DecidableEq, Repr

/-- Why the model gives no step. -/
inductive Refusal where
  /-- An instruction without a meaning; no arm uses it. Safe. -/
  | notModelled (mnemonic : String)
  /-- The command word spells no command (R86). Raised by `runCommand`. Safe: the spec refuses the word too. -/
  | illFormedWord (e : DecodeError)
  /-- A command while STATUS.CONSTRUCTED = 0 (R34, R86). Raised by `runCommand`. Safe: the spec refuses it too. -/
  | notConstructed
  /-- A construction request that repeats a role line number (R35, R183, R200). Raised by `construct`. Safe: the spec
  refuses it too. -/
  | rolesNotDistinct
  /-- A construction request with a role line number that the bank does not have: R35 gives 0..LINE_COUNT-1. Raised by
  `construct`. Safe: nothing is constructed (log 33). -/
  | roleOutsideBank
  /-- A construction request with code tables that fail their well-formedness check (R75, R108). Raised by `construct`.
  Safe: nothing is constructed (logs 32, 33). -/
  | illFormedTables
deriving DecidableEq, Repr

/-- The state after a successful construction with `referenceCfg` on `referencePlatform` (R200, R201): the writer line was commanded to mark
and the power line to its off level, at clock 0. Nothing is listed in TEXT and the host has issued nothing. -/
def State.reset : State where
  alpha := .unknown
  col := 0
  powerOnSince := none
  shadow := 0x00020000
  res := 0
  status := 0x01
  cfg := referenceCfg
  platform := referencePlatform
  text := []
  clock := 0
  sending := none
  port := []
  kbd := []
  draws := 0
  trace := [⟨17, true, 0⟩, ⟨22, false, 0⟩]
  samples := []
  sent := []

end Sys2Proof.Machine
end

