-- ==== Sys2Proof/Machine/Operands.lean ====
section
/-! DEFINITION. The operand and result forms: pages as values of ALPHA (R21), the fields of RES (R33, R85), the fields of
STATUS (R34). The forms of the command word (R79 to R84) are Decode.lean's. -/

namespace Sys2Proof.Machine

/-- ALPHA's encoding (R21). -/
def alphaCode : Alpha → BitVec 2
  | .unknown => 0
  | .letters => 1
  | .figures => 2

/-- A page as a value of ALPHA (R21, C4). -/
def pageAlpha : Page → Alpha
  | .letters => .letters
  | .figures => .figures

/-- The page that ALPHA selects, `d` while it is UNKNOWN (R104, R108). -/
def alphaPage (d : Page) : Alpha → Page
  | .unknown => d
  | .letters => .letters
  | .figures => .figures

/-- The other page (R104). -/
def otherPage : Page → Page
  | .letters => .figures
  | .figures => .letters

/-! ### RES (R33): an operation writes the fields its row names and 0 to all others -/

/-- RES of ENC: SYM and PAGE. -/
def resOfSymPage (s : Sym) (p : Page) : BitVec 32 :=
  s.setWidth 32 ||| ((alphaCode (pageAlpha p)).setWidth 32 <<< 5)

/-- CHAR with CHARV = 1. -/
def resOfChar (c : Chr) : BitVec 32 :=
  (c.setWidth 32 <<< 8) ||| (1#32 <<< 17)

/-- RES of RRAW without echo: SYM. -/
def resOfSym (s : Sym) : BitVec 32 := s.setWidth 32

/-- RES of RRAW with echo: SYM, CHAR and CHARV = 1. -/
def resOfSymChar (s : Sym) (c : Chr) : BitVec 32 := resOfSym s ||| resOfChar c

/-- FLAG. -/
def resOfFlag (b : Bool) : BitVec 32 := if b then 1#32 <<< 16 else 0

/-! ### What the host reads in RES and STATUS -/

def resSym (r : BitVec 32) : Sym := r.extractLsb' 0 5
def resPage (r : BitVec 32) : BitVec 2 := r.extractLsb' 5 2
def resChar (r : BitVec 32) : Chr := r.extractLsb' 8 8
def resFlag (r : BitVec 32) : Bool := r.getLsbD 16
def resCharValid (r : BitVec 32) : Bool := r.getLsbD 17

/-- STATUS.CONSTRUCTED (R34). -/
def constructed (s : State) : Bool := s.status.getLsbD 0

/-- STATUS.ERR (R34). -/
def statusErr (s : State) : BitVec 2 := s.status.extractLsb' 1 2

/-- The code of a construction failure in STATUS.ERR (R181). -/
def errCode : ConstructError → BitVec 2
  | .acquire => 1
  | .map => 2

/-- STATUS from its two fields (R34); bits 7:3 are zero. -/
def statusOf (err : BitVec 2) (done : Bool) : BitVec 8 :=
  (err.setWidth 8 <<< 1) ||| (if done then 1 else 0)

end Sys2Proof.Machine
end

