-- ==== Sys2Proof/Machine/Flags.lean ====
section
/-! DEFINITION. The conditions an operation computes. The block has no condition flags (R38); its boolean results (FLAG)
and the tests inside its operations are these. -/

namespace Sys2Proof.Machine

/-- A sampled level is mark: the data bit it stands for (R146). -/
def markBit (c : Cfg) (level : Bool) : Bool := level == c.kbdMarkLevel

/-- The keyboard line "reads active": it is at space (R145, R146). -/
def lineActive (c : Cfg) (level : Bool) : Bool := level != c.kbdMarkLevel

/-- PWR_VALID (R23, R163). -/
def powered (s : State) : Bool := s.powerOnSince.isSome

/-- Now() minus PWR_SINCE, an unsigned subtraction (R166). A timestamp later than the clock cannot come from the clock
earlier in a run; no rule states that value (free, log 9). -/
def elapsed (now since : Nat) : Nat :=
  if since ≤ now then now - since else Config.elapsedPastEnd now since

/-- The test of CPWR (R165). -/
def timeoutDue (s : State) : Bool :=
  match s.powerOnSince with
  | some since => decide (s.cfg.idleThreshold ≤ elapsed s.clock since)
  | none => false

/-- A shift symbol (R12, R76). -/
def isShift (k : CodeTables) (sym : Sym) : Bool := sym == k.symLtrs || sym == k.symFigs

/-- `Printable(s, p)` (R123). -/
def printable (k : CodeTables) (sym : Sym) (p : Page) : Bool :=
  !(sym == k.symNull || sym == k.symCr || sym == k.symLf || isShift k sym || (sym == k.symBell && p == .figures))

/-- The emitted symbol moves the cursor on (R121); SYM_CR is handled before. -/
def advances (k : CodeTables) (a : Alpha) (sym : Sym) : Bool :=
  !(sym == k.symNull || sym == k.symLf || isShift k sym || (sym == k.symBell && a == .figures))

/-- COL after an emitted symbol (R121, R130). -/
def colAfter (k : CodeTables) (a : Alpha) (sym : Sym) (col : Col) : Col :=
  if sym = k.symCr then 0 else if advances k a sym then col + 1 else col

end Sys2Proof.Machine
end

