-- ==== Sys2Proof/Machine/Ops.lean ====
section
/-! DEFINITION. The primitives every operation is made of (R11): register writes, table and TEXT reads (R51, R52, R57),
the line bank (R53 to R55), the clock (R62, R190), and taking a construction failure (R182). -/

namespace Sys2Proof.Machine

/-! ### Register writes -/

def setAlpha (a : Alpha) (s : State) : State := { s with alpha := a }
def setCol (c : Col) (s : State) : State := { s with col := c }
def setPowerOnSince (p : Option Nat) (s : State) : State := { s with powerOnSince := p }
def setRes (r : BitVec 32) (s : State) : State := { s with res := r }
def setStatus (b : BitVec 8) (s : State) : State := { s with status := b }
def setCfg (c : Cfg) (s : State) : State := { s with cfg := c }
def setText (m : List Host.Cell) (s : State) : State := { s with text := m }
def setClock (t : Nat) (s : State) : State := { s with clock := t }
def setSending (p : Option StringSend) (s : State) : State := { s with sending := p }
def setPort (es : List HostEvent) (s : State) : State := { s with port := es }

/-- Record that SendRaw sent a symbol (the model's own log 18). -/
def logSent (sym : Sym) (s : State) : State := { s with sent := s.sent ++ [sym] }

/-! ### The code tables -/

/-- `Tbl(p)[i]` (R51). -/
def tbl (k : CodeTables) : Page → Sym → Chr
  | .letters, i => k.tblL[i.toFin]
  | .figures, i => k.tblF[i.toFin]

/-- The symbols 0, 1, ..., 31 in that order. -/
def allSyms : List Sym := (List.finRange 32).map BitVec.ofFin

/-- `Lookup(p, c)` (R52): the linear search, lowest index first. -/
def lookup (k : CodeTables) (p : Page) (c : Chr) : Option Sym :=
  allSyms.find? (fun i => tbl k p i == c)

/-! ### TEXT (R57) -/

/-- What a byte of TEXT that nothing has written reads as: DESIGN CHOICE 0x00 (log 13). -/
def textUnlisted : Chr := 0x00

/-- The byte at an address. -/
def Memory.read : List Host.Cell → Nat → Chr
  | [], _ => textUnlisted
  | (a, b) :: m, x => if a = x then b else Memory.read m x

/-- Write one byte, keeping the canonical form: writing what an unlisted address reads as removes the entry. -/
def Memory.write : List Host.Cell → Nat → Chr → List Host.Cell
  | [], x, v => if v = textUnlisted then [] else [(x, v)]
  | (a, b) :: m, x, v =>
    if x < a then (if v = textUnlisted then (a, b) :: m else (x, v) :: (a, b) :: m)
    else if x = a then (if v = textUnlisted then m else (x, v) :: m)
    else (a, b) :: Memory.write m x v

/-- Entries at addresses from `lo` on, strictly rising, below `size`, none of them redundant. -/
def Memory.wfFrom (size : Nat) : Nat → List Host.Cell → Bool
  | _, [] => true
  | lo, (a, b) :: m => decide (lo ≤ a) && decide (a < size) && b != textUnlisted && Memory.wfFrom size (a + 1) m

/-- The canonical form of a memory of `size` bytes. -/
def Memory.wf (size : Nat) (m : List Host.Cell) : Bool := Memory.wfFrom size 0 m

/-- TEXT has 2^TEXT_ADDR_BITS bytes (R50). -/
def textSize (p : Platform) : Nat := 2 ^ p.textAddrBits

/-- A TEXT address is TEXT_ADDR_BITS wide and wraps (R59, R127). -/
def textIndex (p : Platform) (a : Nat) : Nat := a % textSize p

/-- `MemRead(addr, 1)` (R57). -/
def textRead (s : State) (a : Nat) : Chr := Memory.read s.text (textIndex s.platform a)

/-- TEXT with one byte written by the host (R57, R193). -/
def textWrite (a : Nat) (b : Chr) (s : State) : State := setText (Memory.write s.text (textIndex s.platform a) b) s

/-! ### The clock -/

/-- The first number that a TS_BITS-wide clock cannot hold (R190). -/
def clockEnd (p : Platform) : Nat := 2 ^ p.tsBits

/-- A count of CLOCK_UNIT in nanoseconds (R10, R166, R190). -/
def nanoseconds (p : Platform) (d : Nat) : Nat := d * p.clockUnit

/-- Time after `d` more units (R190). The clock never wraps in a run; past 2^TS_BITS no rule states it: free, but still a
reading of a TS_BITS-wide clock (log 8). -/
def advance (p : Platform) (now : Nat) (d : Nat) : Nat :=
  if now + d < clockEnd p then now + d else Config.clockPastEnd now d % clockEnd p

/-- The excess of one Sleep over its nominal length: 0 to SLEEP_JITTER (R62, U6; log 12). -/
def sleepExcess (s : State) : Nat :=
  if s.cfg.sleepJitter = 0 then 0 else Config.freeSleepDraw s.draws % (s.cfg.sleepJitter + 1)

/-- `Sleep(d)` (R62). -/
def sleep (d : Nat) (s : State) : State :=
  { s with clock := advance s.platform s.clock (d + sleepExcess s), draws := s.draws + 1 }

/-! ### The line bank -/

/-- SHADOW with the bit of line `n` at a level (R24). -/
def shadowPut (n : LineNo) (level : Bool) (m : LineMask) : LineMask :=
  if level then m ||| (1#maxLines <<< n.toNat) else m &&& ~~~(1#maxLines <<< n.toNat)

/-- SHADOW as the spec has it, LINE_COUNT bits wide (R24). -/
def shadowMask (s : State) : BitVec s.platform.lineCount := s.shadow.setWidth s.platform.lineCount

/-- `LineSet(n)` (level high, R53) or `LineClear(n)` (level low, R54). -/
def lineCommand (n : LineNo) (level : Bool) (s : State) : State :=
  { s with shadow := shadowPut n level s.shadow, trace := s.trace ++ [⟨n, level, s.clock⟩] }

/-- The level that `LineGet(n)` answers now: the environment's (R55). -/
def lineLevel (n : LineNo) (s : State) : Bool :=
  match s.kbd with
  | b :: _ => b
  | [] => Config.freeLineLevel n s.draws

/-- The state after a `LineGet(n)` (R55): one answer is used up, no pin and no SHADOW bit changes. -/
def lineGet (n : LineNo) (s : State) : State :=
  { s with kbd := s.kbd.tail, draws := s.draws + 1, samples := s.samples ++ [⟨n, lineLevel n s, s.clock⟩] }

/-- One slot of a frame: a command to the writer line, then a Sleep (R77). -/
def slot (level : Bool) (d : Nat) (s : State) : State :=
  sleep d (lineCommand s.cfg.wrLine level s)

/-- The last level commanded to a line in an event list, if any (R42). -/
def lastLevel (n : LineNo) (tr : List LineEvent) : Option Bool :=
  (tr.reverse.find? (fun e => e.line == n)).map (·.level)

/-- The level of a line's pin, unspecified until the first command (R42, R53, R54, R203; log 20). -/
def pinLevel (n : LineNo) (s : State) : Option Bool := lastLevel n s.trace

/-! ### Construction failures: the block's only exceptions -/

/-- No DeviceState, no results, nothing commanded: what a construction starts from (R40, R184, R200). -/
def blankDevice (s : State) : State :=
  { s with alpha := .unknown, col := 0, powerOnSince := none, shadow := 0, res := 0, status := 0,
           sending := none, trace := [], samples := [], sent := [] }

/-- Taking a construction failure (R182): STATUS.ERR holds the code, CONSTRUCTED stays 0. There is no saved state, no
handler and no return (R180, R184): the one way on is another construction. -/
def raiseConstructError (e : ConstructError) (s : State) : State :=
  setStatus (statusOf (errCode e) false) s

end Sys2Proof.Machine
end

