-- ==== Sys2Proof/Machine/Codec.lean ====
section
/-! DEFINITION. The codec (spec/40_codec.md): ENC and DEC. -/

namespace Sys2Proof.Machine

/-- `Lower(c)` (R101). -/
def lower (c : Chr) : Chr := if 0x41 ≤ c ∧ c ≤ 0x5A then c + 0x20 else c

/-- `Fold(c)` (R102). -/
def fold (k : CodeTables) (c : Chr) : Chr := if c ∈ k.quoteFold then 0x27 else c

/-- `FilterHit(c, f)` (R103). -/
def filterHit (k : CodeTables) (c : Chr) (f : FilterLevel) : Bool :=
  (decide (1 ≤ f) && [tbl k .letters k.symLtrs, tbl k .figures k.symLtrs, tbl k .letters k.symFigs,
      tbl k .figures k.symFigs, tbl k .figures k.symWru].contains c) ||
  (decide (2 ≤ f) && [tbl k .letters k.symNull, tbl k .figures k.symNull].contains c) ||
  (decide (3 ≤ f) && c == tbl k .figures k.symBell) ||
  (decide (4 ≤ f) && (k.national.map (tbl k .figures)).contains c)

/-- The search through `SearchOrder(ALPHA)`, `p1` first (R100, R104), with the fallback of R105. -/
def searchPages (k : CodeTables) (p1 : Page) (c : Chr) : Sym × Page :=
  match lookup k p1 c with
  | some i => (i, p1)
  | none =>
    match lookup k (otherPage p1) c with
    | some i => (i, otherPage p1)
    | none => (k.placeholderSym, .figures)

/-- `Encode(c, f)` (R100) while ALPHA is `a`; `unk` is the page searched first while ALPHA is UNKNOWN (R104, D8). -/
def encodeChar (k : CodeTables) (unk : Page) (a : Alpha) (c : Chr) (f : FilterLevel) : Sym × Page :=
  let c2 := fold k (lower c)
  if filterHit k c2 f then (k.placeholderSym, .figures)
  else searchPages k (alphaPage unk a) c2

/-- ALPHA after `Decode(s)` (R106, R107, R110). -/
def decodeAlpha (k : CodeTables) (a : Alpha) (sym : Sym) : Alpha :=
  if sym = k.symLtrs then .letters else if sym = k.symFigs then .figures else a

/-- The character of `Decode(s)` (R106, R108): the lookup comes after the update of ALPHA. -/
def decodeChar (k : CodeTables) (unk : Page) (a : Alpha) (sym : Sym) : Chr :=
  tbl k (alphaPage unk (decodeAlpha k a sym)) sym

/-- `Decode(s)` on the state: its effect on ALPHA (R107). -/
def decodeSym (k : CodeTables) (sym : Sym) (s : State) : State :=
  setAlpha (decodeAlpha k s.alpha sym) s

/-- ENC (R100). -/
def execEnc (c : Chr) (f : FilterLevel) (s : State) : Host.Outcome State Fault Refusal :=
  let r := encodeChar s.cfg.code s.cfg.unknownOrder s.alpha c f
  .next (setRes (resOfSymPage r.1 r.2) s)

/-- DEC (R106). -/
def execDec (sym : Sym) (s : State) : Host.Outcome State Fault Refusal :=
  .next (setRes (resOfChar (decodeChar s.cfg.code s.cfg.decodeUnknownPage s.alpha sym)) (decodeSym s.cfg.code sym s))

end Sys2Proof.Machine
end

