-- ==== Sys2Proof/Machine/Power.lean ====
section
/-! DEFINITION. The power controller (spec/43_power.md): SPWR, GPWR, TPWR, CPWR. -/

namespace Sys2Proof.Machine

/-- `SetPower(o)` (R161): unconditional (R162); the timestamp is taken before the warm-up delay. -/
def setPower (on : Bool) (s : State) : State :=
  if on then
    sleep s.cfg.tWarmup (setPowerOnSince (some s.clock) (lineCommand s.cfg.pwrLine s.cfg.powerOnLevel s))
  else
    sleep s.cfg.tCooldown (setPowerOnSince none (lineCommand s.cfg.pwrLine (!s.cfg.powerOnLevel) s))

/-- `PowerTouch()` (R164). -/
def powerTouch (s : State) : State := setPowerOnSince (some s.clock) s

/-- The auto power-on of SRAW and DSB (R142, R160). -/
def autoPowerOn (s : State) : State := if powered s then s else setPower true s

/-- SPWR (R161). -/
def execSpwr (on : Bool) (s : State) : Host.Outcome State Fault Refusal :=
  .next (setPower on s)

/-- GPWR (R163). -/
def execGpwr (s : State) : Host.Outcome State Fault Refusal :=
  .next (setRes (resOfFlag (powered s)) s)

/-- TPWR (R164). -/
def execTpwr (s : State) : Host.Outcome State Fault Refusal :=
  .next (powerTouch s)

/-- CPWR (R165). -/
def execCpwr (s : State) : Host.Outcome State Fault Refusal :=
  if timeoutDue s then .next (setRes (resOfFlag true) (setPower false s))
  else .next (setRes (resOfFlag false) s)

end Sys2Proof.Machine
end

