-- ==== Sys2Proof/Machine/Transport.lean ====
section
/-! DEFINITION. The bit-banged transport (spec/42_transport.md): SRAW, DSB, RRAW. -/

namespace Sys2Proof.Machine

/-- `StopInterval(s)` (R143); quotients round down (R37, D30). With a divisor of 0 no rule states it (free, log 10). -/
def stopInterval (k : CodeTables) (c : Cfg) (sym : Sym) : Nat :=
  if isShift k sym then c.stopMultShift * c.tSym
  else if c.stopDenNormal = 0 then Config.stopWithoutDivisor c.stopNumNormal c.tSym
  else c.stopNumNormal * c.tSym / c.stopDenNormal

/-- The five data slots, bit 0 first (R77, R141). -/
def sendBits (sym : Sym) (s : State) : State :=
  [0, 1, 2, 3, 4].foldl (fun s i => slot (sym.getLsbD i) s.cfg.tSym s) s

/-- `SendRaw(s)` (R141). -/
def sendRaw (k : CodeTables) (sym : Sym) (s : State) : State :=
  let s := autoPowerOn s
  let s := slot false s.cfg.tSym s
  let s := sendBits sym s
  let s := slot true (stopInterval k s.cfg sym) s
  powerTouch (logSent sym s)

/-! ### The same transmitter as a shift register and a phase counter (R31)

TXSR, TXPH and the slot timer exist only while a symbol is sent. The spec says that this description and the loop of
R141 give the same line trace; the operations use the loop. -/

/-- TXPH (R31). -/
inductive TxPhase where
  | idle | start | d0 | d1 | d2 | d3 | d4 | stop
deriving DecidableEq, Repr

/-- The transmit sequencing state: TXSR and TXPH (R31). -/
structure TxSeq where
  txsr : Sym
  txph : TxPhase
deriving DecidableEq, Repr

/-- The phase after a data slot (R31). -/
def TxPhase.after : TxPhase → TxPhase
  | .idle => .idle
  | .start => .d0
  | .d0 => .d1
  | .d1 => .d2
  | .d2 => .d3
  | .d3 => .d4
  | .d4 => .stop
  | .stop => .idle

/-- One slot: START drives space, a data slot drives bit 0 of TXSR and shifts right one place, STOP drives mark for the
interval the slot timer was loaded with. -/
def txSlot (stopTime : Nat) (q : TxSeq × State) : TxSeq × State :=
  let (t, s) := q
  match t.txph with
  | .idle => (t, s)
  | .start => (⟨t.txsr, t.txph.after⟩, slot false s.cfg.tSym s)
  | .stop => (⟨t.txsr, t.txph.after⟩, slot true stopTime s)
  | .d0 | .d1 | .d2 | .d3 | .d4 => (⟨t.txsr >>> 1, t.txph.after⟩, slot (t.txsr.getLsbD 0) s.cfg.tSym s)

/-- SendRaw by the shift register: load, seven slots, done. -/
def sendRawShifting (k : CodeTables) (sym : Sym) (s : State) : State :=
  let s := autoPowerOn s
  let run := (txSlot (stopInterval k s.cfg sym))^[7] (⟨sym, .start⟩, s)
  powerTouch (logSent sym run.2)

/-! ### Receiving -/

/-- The accumulator after one sample (R148): it enters at the top of a right shift, or, REVERSED, at the bottom of a left
shift (D15). -/
def rxAssemble (o : RxOrder) (acc : Sym) (b : Bool) : Sym :=
  match o with
  | .firstToBit0 => (acc >>> 1) ||| (if b then 0x10 else 0)
  | .reversed => (acc <<< 1) ||| (if b then 1 else 0)

/-- One sample of RRAW (R147): LineGet, assembly, the echo of the data bit (R149), and the wait after it. -/
def rxSample (echo : Bool) (d : Nat) (q : Sym × State) : Sym × State :=
  let (acc, s) := q
  let b := markBit s.cfg (lineLevel s.cfg.kbdLine s)
  let s := lineGet s.cfg.kbdLine s
  let s := if echo then lineCommand s.cfg.wrLine b s else s
  (rxAssemble s.cfg.rxOrder acc b, sleep d s)

/-- The waits after the five samples (R147): T_SYM, and RX_TAIL after the last. -/
def rxWaits (c : Cfg) : List Nat := [c.tSym, c.tSym, c.tSym, c.tSym, c.rxTail]

/-- Echo drives a start bit and a stop condition too (R149, D17). -/
def echoFrames (echo : Bool) (s : State) : Bool := echo && s.cfg.echoFraming == .startAndStop

/-- `ReceiveRaw(e)` up to the margin (R147): the waits, the five samples, the echo. -/
def receiveFrame (echo : Bool) (s : State) : Sym × State :=
  let s := sleep (s.cfg.tSym / 2) s
  let s := if echoFrames echo s then lineCommand s.cfg.wrLine false s else s
  let s := sleep s.cfg.tSym s
  let q := (rxWaits s.cfg).foldl (fun q d => rxSample echo d q) (0, s)
  let s := q.2
  let s := if echoFrames echo s then lineCommand s.cfg.wrLine true s else s
  (q.1, sleep s.cfg.rxMargin s)

/-- SRAW (R141). -/
def execSraw (sym : Sym) (s : State) : Host.Outcome State Fault Refusal :=
  .next (sendRaw s.cfg.code sym s)

/-- DSB (R145). -/
def execDsb (s : State) : Host.Outcome State Fault Refusal :=
  let s := autoPowerOn s
  .next (setRes (resOfFlag (lineActive s.cfg (lineLevel s.cfg.kbdLine s))) (lineGet s.cfg.kbdLine s))

/-- RRAW (R147): with echo the symbol is decoded once, after the margin (R150). -/
def execRraw (echo : Bool) (s : State) : Host.Outcome State Fault Refusal :=
  let (sym, s) := receiveFrame echo s
  if echo then
    let ch := decodeChar s.cfg.code s.cfg.decodeUnknownPage s.alpha sym
    .next (setRes (resOfSymChar sym ch) (powerTouch (decodeSym s.cfg.code sym s)))
  else .next (setRes (resOfSym sym) (powerTouch s))

end Sys2Proof.Machine
end

