-- ==== Sys2Proof/Machine/LineDiscipline.lean ====
section
/-! DEFINITION. The line discipline (spec/41_line_discipline.md): Emit, SCHR, SSTR. -/

namespace Sys2Proof.Machine

/-- `Emit(s)` (R121): send the symbol, then move the cursor estimate. -/
def emit (k : CodeTables) (sym : Sym) (s : State) : State :=
  let s := sendRaw k sym s
  setCol (colAfter k s.alpha sym s.col) s

/-- `ShiftOf(p)` (R120). -/
def shiftOf (k : CodeTables) : Page → Sym
  | .letters => k.symLtrs
  | .figures => k.symFigs

/-- CR then LF (R123, R125). -/
def emitCrLf (k : CodeTables) (s : State) : State := emit k k.symLf (emit k k.symCr s)

/-- The page change (R124): NULL, the shift symbol twice (SHIFT_REPEAT, R7), then ALPHA. -/
def changePage (k : CodeTables) (p : Page) (s : State) : State :=
  setAlpha (pageAlpha p) (emit k (shiftOf k p) (emit k (shiftOf k p) (emit k k.symNull s)))

/-- The wrap of R123, when it is due. -/
def wrapIfDue (k : CodeTables) (sym : Sym) (p : Page) (s : State) : State :=
  if printable k sym p && decide (wrapCol ≤ s.col) then emitCrLf k s else s

/-- The page change of R124, when it is due. -/
def changePageIfDue (k : CodeTables) (p : Page) (s : State) : State :=
  if pageAlpha p ≠ s.alpha then changePage k p s else s

/-- What follows an encoded character (R120): the tests in the order CR, LF, wrap, page change, payload (R126). -/
def sendEncoded (k : CodeTables) (sym : Sym) (p : Page) (s : State) : State :=
  if sym = k.symCr then s
  else if sym = k.symLf then emitCrLf k s
  else emit k sym (changePageIfDue k p (wrapIfDue k sym p s))

/-- `SendChar(c, f)` (R120). -/
def sendChar (k : CodeTables) (c : Chr) (f : FilterLevel) (s : State) : State :=
  let r := encodeChar k s.cfg.unknownOrder s.alpha c f
  sendEncoded k r.1 r.2 s

/-- TP after one byte: it wraps modulo 2^TEXT_ADDR_BITS (R127). -/
def nextText (p : Platform) (tp : Nat) : Nat := textIndex p (tp + 1)

/-- The loop of `SendString` (R127) for as many bytes as the bound says. When the bound is used up first, the operation has
not returned: it is still running at the next TP (log 14). -/
def sendStringLoop (k : CodeTables) (f : FilterLevel) : Nat → Nat → State → State
  | 0, tp, s => setSending (some ⟨tp, f⟩) s
  | n + 1, tp, s =>
    if textRead s tp = k.terminator then s
    else sendStringLoop k f n (nextText s.platform tp) (sendChar k (textRead s tp) f s)

/-- One round of SSTR: up to every byte of TEXT once, from TP on. A string with a terminator ends in its first round; without
one the operation never returns (R127, R185, R214, U22), and round follows round (log 35). -/
def sendStringRound (tp : Nat) (f : FilterLevel) (s : State) : State :=
  sendStringLoop s.cfg.code f (textSize s.platform) tp s

/-- The next round of an SSTR that is still running. -/
def resumeSstr (p : StringSend) (s : State) : State := sendStringRound p.tp p.filter (setSending none s)

/-- SCHR (R120). -/
def execSchr (c : Chr) (f : FilterLevel) (s : State) : Host.Outcome State Fault Refusal :=
  .next (sendChar s.cfg.code c f s)

/-- SSTR (R127): the operand put into TP, which is TEXT_ADDR_BITS wide (R32, R59), and the first round. -/
def execSstr (a : TextAddr) (f : FilterLevel) (s : State) : Host.Outcome State Fault Refusal :=
  .next (sendStringRound (textIndex s.platform a.toNat) f s)

end Sys2Proof.Machine
end

