-- ==== Sys2Proof/Machine/Dispatch.lean ====
section
/-! DEFINITION. One arm per operation (R81). -/

namespace Sys2Proof.Machine

def exec (i : Instr) (s : State) : Host.Outcome State Fault Refusal :=
  match i with
  | .enc c f => Sys2Proof.Machine.execEnc c f s
  | .dec sym => Sys2Proof.Machine.execDec sym s
  | .schr c f => Sys2Proof.Machine.execSchr c f s
  | .sstr a f => Sys2Proof.Machine.execSstr a f s
  | .sraw sym => Sys2Proof.Machine.execSraw sym s
  | .dsb => Sys2Proof.Machine.execDsb s
  | .rraw e => Sys2Proof.Machine.execRraw e s
  | .spwr o => Sys2Proof.Machine.execSpwr o s
  | .gpwr => Sys2Proof.Machine.execGpwr s
  | .tpwr => Sys2Proof.Machine.execTpwr s
  | .cpwr => Sys2Proof.Machine.execCpwr s

end Sys2Proof.Machine
end

