-- ==== Sys2Proof/Machine/Command.lean ====
section
/-! DEFINITION. The host's events (R193): construction (R200), command words (R86), waits (R43), TEXT (R57). -/

namespace Sys2Proof.Machine

/-- Steps 3 to 6 of `Construct(cfg)` (R200) on the blank device: configuration, DeviceState, the writer line to mark and
the power line to its off level, CONSTRUCTED. -/
def bringUp (c : Cfg) (s : State) : State :=
  let s := setCfg c s
  let s := lineCommand c.wrLine true s
  let s := lineCommand c.pwrLine (!c.powerOnLevel) s
  setStatus (statusOf 0 true) s

/-- `Construct(cfg)` (R200): the configuration is checked before step 1, the roles first (R183, R35, R75), then the bank is
acquired, then mapped. -/
def construct (c : Cfg) (bank : BankAnswer) (s : State) : Host.Outcome State Fault Refusal :=
  if !c.rolesDistinct then .refused .rolesNotDistinct
  else if !s.platform.hasLines c then .refused .roleOutsideBank
  else if !c.code.wellFormed then .refused .illFormedTables
  else match bank with
    | .ok => .next (bringUp c (blankDevice s))
    | .acquireFails => .next (raiseConstructError .acquire (blankDevice s))
    | .mapFails => .next (raiseConstructError .map (blankDevice s))

/-- A command word (R86): refused before construction, and when it spells no command. -/
def runCommand (w : CmdWord) (s : State) : Host.Outcome State Fault Refusal :=
  if constructed s then
    match decode w with
    | .ok i => exec i s
    | .error e => .refused (.illFormedWord e)
  else .refused .notConstructed

/-- One event of the host. -/
def runEvent (e : HostEvent) (s : State) : Host.Outcome State Fault Refusal :=
  match e with
  | .construct c bank => construct c bank s
  | .command w => runCommand w s
  | .wait d => .next (setClock (advance s.platform s.clock d) s)
  | .fillText a b => .next (textWrite a b s)

/-- The host's next event with the state that no longer waits for it, if there is one. -/
def takeEvent (s : State) : Option (HostEvent × State) :=
  match s.port with
  | [] => none
  | e :: es => some (e, setPort es s)

/-- The command word whose low `nbits` bits are `w`'s. -/
def tableWord (nbits w : Nat) : CmdWord := BitVec.ofNat 32 (w % 2 ^ nbits)

/-- The state in which the host's next event is the command word `w` and the block takes commands: it is constructed (R86)
and no SSTR is running. -/
def placeCommand (w : CmdWord) (s : State) : State :=
  setStatus (statusOf 0 true) (setSending none (setPort (.command w :: s.port) s))

end Sys2Proof.Machine
end

