-- ==== Sys2Proof/Machine/Step.lean ====
section
/-! DEFINITION. One step: the host's next event, run to its end (R30, R193), or one more round of an SSTR that never ends. -/

namespace Sys2Proof.Machine

/-- One step. While an SSTR is running no event is taken: no operation can be cancelled (R187, R214). With no event the block
does nothing (log 1). -/
def step (s : State) : Host.Outcome State Fault Refusal :=
  match s.sending with
  | some p => .next (resumeSstr p s)
  | none =>
    match takeEvent s with
    | some (e, s') => runEvent e s'
    | none => .next s

/-- The state whose next step runs the command word `w` (log 1). -/
def State.withFetchWord (s : State) (nbits w : Nat) : State :=
  placeCommand (tableWord nbits w) s

end Sys2Proof.Machine
end

