-- ==== Sys2Proof/Safety.lean ====
section
/-! DEFINITION. What counts as a safe run, the invariant of the machine, the host's duties, and the words that the
statements use. -/

namespace Sys2Proof.Machine

/-! ### Runs -/

/-- The operations of a list one after the other, stopping at the first fault or refusal. -/
def execAll : List Instr → State → Host.Outcome State Fault Refusal
  | [], s => .next s
  | i :: is, s =>
    match exec i s with
    | .next t => execAll is t
    | .fault r => .fault r
    | .refused r => .refused r

/-- Some steps one after the other, stopping at the first fault or refusal. -/
def runSteps : Nat → State → Host.Outcome State Fault Refusal
  | 0, s => .next s
  | n + 1, s =>
    match step s with
    | .next t => runSteps n t
    | .fault r => .fault r
    | .refused r => .refused r

/-- A run is well-ended when every command has returned and it leaves the device powered off (R197, R207). -/
def wellEnded (s : State) : Bool := !powered s && s.sending.isNone

/-! ### The invariant -/

/-- What construction asks of a configuration on a platform: four distinct roles (R35), each a line of the bank (R35), and
tables that pass their check (R75, R108). -/
def wellConfigured (p : Platform) (c : Cfg) : Prop :=
  c.rolesDistinct = true ∧ p.hasLines c = true ∧ c.code.wellFormed = true

/-- What holds in every state between host events: the cursor is at most 69 (R22), TEXT is in canonical form and no larger
than 2^TEXT_ADDR_BITS, the clock and the timestamp are TS_BITS wide (R23, R190), SHADOW mirrors the last command to every
line and is 0 elsewhere (R24, R25 I-C), and has no bit outside the bank (R24), STATUS holds a legal value (R34), RES's zero
fields are zero and its PAGE is no page code 3 (R33), a constructed block is well configured, and an SSTR runs between two
steps only on a constructed block whose TEXT holds no terminator (R127, R214). -/
structure Inv (s : State) : Prop where
  colAtMost69 : s.col ≤ 69
  textCanonical : Memory.wf (textSize s.platform) s.text = true
  clockFits : s.clock < clockEnd s.platform
  stampFits : ∀ since, s.powerOnSince = some since → since < clockEnd s.platform
  shadowMirrors : ∀ n : LineNo, s.shadow.getLsbD n.toNat = (pinLevel n s).getD false
  shadowInBank : ∀ n : LineNo, s.platform.lineCount ≤ n.toNat → s.shadow.getLsbD n.toNat = false
  statusLegal : s.status ∈ [0x00#8, 0x01#8, 0x02#8, 0x04#8]
  resZeroFields : s.res.extractLsb' 18 14 = 0#14 ∧ s.res.getLsbD 7 = false ∧ resPage s.res ≠ 3#2
  configured : constructed s = true → wellConfigured s.platform s.cfg
  sendingEndless : ∀ p, s.sending = some p →
    p.tp < textSize s.platform ∧ constructed s = true ∧ ∀ x, textRead s x ≠ s.cfg.code.terminator

/-! ### Frames -/

/-- Nothing that an operation may not write has changed: configuration, platform, STATUS, the host's events, every byte of
TEXT. -/
def KeepsHostSide (s t : State) : Prop :=
  t.cfg = s.cfg ∧ t.platform = s.platform ∧ t.status = s.status ∧ t.port = s.port ∧ ∀ a, textRead t a = textRead s a

/-- The tracker is unchanged (R154). -/
def KeepsTracker (s t : State) : Prop := t.alpha = s.alpha ∧ t.col = s.col

/-- No line has been sampled. -/
def KeepsReceiver (s t : State) : Prop := t.kbd = s.kbd ∧ t.samples = s.samples

/-- Nothing has been commanded or sent: SHADOW, pins and logs are unchanged. -/
def KeepsLines (s t : State) : Prop := t.shadow = s.shadow ∧ t.trace = s.trace ∧ t.sent = s.sent

/-- SHADOW and the pin of every line outside the list are unchanged. -/
def KeepsLinesBut (ls : List LineNo) (s t : State) : Prop :=
  ∀ n : LineNo, n ∉ ls → t.shadow.getLsbD n.toNat = s.shadow.getLsbD n.toNat ∧ pinLevel n t = pinLevel n s

/-- Sleeps are exact (SLEEP_JITTER = 0, R62), and `d` more units fit the clock (R190). -/
def ExactTime (s : State) (d : Nat) : Prop := s.cfg.sleepJitter = 0 ∧ s.clock + d < clockEnd s.platform

/-- `n` Sleeps of `d` units together still fit the clock when each has its largest excess (R62, R190). -/
def FitsClock (s : State) (d n : Nat) : Prop := s.clock + d + n * s.cfg.sleepJitter < clockEnd s.platform

/-- From `a` to `b` pass `n` Sleeps of `d` units together: never less, and at most `jitter` more for each (R62). -/
def Slept (jitter n d a b : Nat) : Prop := a + d ≤ b ∧ b ≤ a + d + n * jitter

/-- The instants `ts` begin the waits `ds` one after the other, the first at `a`; each wait is one Sleep (R62), and the
last ends at `z`. -/
def Paced (jitter : Nat) : Nat → List Nat → List Nat → Nat → Prop
  | a, [], [], z => a = z
  | a, d :: ds, t :: ts, z => t = a ∧ ∃ b, Slept jitter 1 d a b ∧ Paced jitter b ds ts z
  | _, [], _ :: _, _ => False
  | _, _ :: _, [], _ => False

/-- The clock `d` units after now. -/
def timeAfter (s : State) (d : Nat) : Nat := s.clock + d

/-- The length of one frame on the writer line (R77, R78). -/
def frameTime (k : CodeTables) (c : Cfg) (sym : Sym) : Nat := 6 * c.tSym + stopInterval k c sym

/-- A line command without its time. -/
def LineEvent.command (e : LineEvent) : LineNo × Bool := (e.line, e.level)

/-- The levels of one frame on the writer line (R77): start, the five bits least significant first, stop. -/
def frameLevels (sym : Sym) : List Bool :=
  [false, sym.getLsbD 0, sym.getLsbD 1, sym.getLsbD 2, sym.getLsbD 3, sym.getLsbD 4, true]

/-- The waits of one frame, one after each of its commands (R77, R155). -/
def frameGaps (k : CodeTables) (c : Cfg) (sym : Sym) : List Nat :=
  [c.tSym, c.tSym, c.tSym, c.tSym, c.tSym, c.tSym, stopInterval k c sym]

/-- The line trace of one frame that begins at `t`, with exact Sleeps (R155). -/
def frameCommands (c : Cfg) (sym : Sym) (t : Nat) : List LineEvent :=
  (frameLevels sym).mapIdx fun n v => ⟨c.wrLine, v, t + n * c.tSym⟩

/-- The line trace of frames one after the other, the first beginning at `t`, with exact Sleeps (R155). -/
def framesCommands (k : CodeTables) (c : Cfg) : List Sym → Nat → List LineEvent
  | [], _ => []
  | sym :: syms, t => frameCommands c sym t ++ framesCommands k c syms (t + frameTime k c sym)

/-- The line commands of frames one after the other, without their times (R155). -/
def framesLevels (c : Cfg) (syms : List Sym) : List (LineNo × Bool) :=
  syms.flatMap fun sym => (frameLevels sym).map fun v => (c.wrLine, v)

/-- The command of the auto power-on, if one is due (R142). -/
def powerOnCommands (s : State) : List LineEvent :=
  if powered s then [] else [⟨s.cfg.pwrLine, s.cfg.powerOnLevel, s.clock⟩]

/-- The wait of the auto power-on, if one is due (R142). -/
def powerOnDelay (s : State) : Nat := if powered s then 0 else s.cfg.tWarmup

/-- The number of Sleeps of the auto power-on (R142). -/
def powerOnSleeps (s : State) : Nat := if powered s then 0 else 1

/-- The time that sending symbols takes from a state on: their frames, after the warm-up when the block is unpowered and
sends anything at all (R142, R205, R220, R221). -/
def sendingTime (k : CodeTables) (s : State) (syms : List Sym) : Nat :=
  (if powered s = true ∨ syms = [] then 0 else s.cfg.tWarmup) + (syms.map (frameTime k s.cfg)).sum

/-- The number of Sleeps in that time. -/
def sendingSleeps (s : State) (syms : List Sym) : Nat :=
  (if powered s = true ∨ syms = [] then 0 else 1) + 7 * syms.length

/-- The levels in the five data slots of the last frame on the writer line (R77): the five commands before the last one,
which is the stop, the first slot first. -/
def lastFrameData (s : State) : List Bool :=
  ((((s.trace.filter (·.line == s.cfg.wrLine)).map (·.level)).reverse.drop 1).take 5).reverse

/-! ### What the sent symbols say about the teleprinter (R41, R212) -/

/-- The page that the last shift symbol of a sequence selects, if there is one. -/
def lastShiftPage (k : CodeTables) (syms : List Sym) : Option Page :=
  (syms.reverse.find? (isShift k)).map fun sym => if sym = k.symLtrs then .letters else .figures

/-- ALPHA is true of the symbols sent so far: while it is a page, the last shift symbol sent selected that page. -/
def AlphaTrueOfSent (k : CodeTables) (s : State) : Prop :=
  ∀ p : Page, s.alpha = pageAlpha p → lastShiftPage k s.sent = some p

/-! ### The host's duties (R193); none is checked by the block -/

/-- TEXT holds a terminator somewhere, so that no SSTR hangs (R214). -/
def textTerminated (k : CodeTables) (s : State) : Prop := ∃ a, textRead s a = k.terminator

/-- The characters of the string at `a` up to its terminator, within `n` bytes. -/
def stringAt (k : CodeTables) (s : State) : Nat → Nat → List Chr
  | 0, _ => []
  | n + 1, a => if textRead s a = k.terminator then [] else textRead s a :: stringAt k s n (nextText s.platform a)

/-- The string of an SSTR: what TEXT holds from the operand's address on (R127). -/
def sstrString (s : State) (a : TextAddr) : List Chr :=
  stringAt s.cfg.code s (textSize s.platform) (textIndex s.platform a.toNat)

/-- The shipped timing in real time (R2, R7): T_SYM 20 ms, STOP_NORMAL 30 ms, STOP_SHIFT 100 ms. -/
def shippedTiming (p : Platform) (c : Cfg) : Prop :=
  nanoseconds p c.tSym = 20000000 ∧
  ∀ sym, nanoseconds p (stopInterval c.code c sym) = if isShift c.code sym = true then 100000000 else 30000000

/-- The timing configuration the spec advises: T_SYM even (R37), IDLE_THRESHOLD above one shift frame (R217). -/
def timingAdvised (c : Cfg) : Bool :=
  c.tSym % 2 == 0 && decide (frameTime c.code c c.code.symLtrs < c.idleThreshold)

/-- What the host owes before a command, as far as the state shows it: a terminator before SSTR (R214), a powered block
before TPWR (R215), and before RRAW a FLAG of 1, which the DSB before it left (R153, R210). -/
def hostDuty (i : Instr) (s : State) : Prop :=
  match i with
  | .sstr _ _ => textTerminated s.cfg.code s
  | .tpwr => powered s = true
  | .rraw _ => resFlag s.res = true
  | .enc _ _ | .dec _ | .schr _ _ | .sraw _ | .dsb | .spwr _ | .gpwr | .cpwr => True

/-- A safe step: it has a next state. -/
def StepSafe (s : State) : Prop := ∃ t, step s = .next t

end Sys2Proof.Machine
end

