-- ==== Sys2Proof/Certificates/Slice0/Obligations.lean ====
section
/-! DEFINITION. The statements for the provers. Statements about a next state name the operation's frame; where a clause
rests on a choice of the model's, the docstring names the log entry. The code tables are the configuration's, `s.cfg.code`
(R9, U39); a clause that names symbols or characters as numbers says that they are those of the tables the spec ships (R72
to R74, log 6). -/

open Sys2Proof Sys2Proof.Machine

/-! ## Encoding -/

/-- Decode and encode agree on every operation (R79 to R84). -/
def Obligations.DecodeOfEncode : Prop :=
  ∀ i : Instr, decode (encode i) = .ok i

/-- A word that decodes is the encoding of what it decodes to: each word has one meaning, and no bit is dropped. -/
def Obligations.EncodeOfDecode : Prop :=
  ∀ (w : CmdWord) (i : Instr), decode w = .ok i → encode i = w

/-- A word decodes to a row's operation exactly when it selects that row of R81, and to nothing exactly when it selects
none (R86). -/
def Obligations.DecodeFollowsTheOpcodeMap : Prop :=
  ∀ w : CmdWord,
    (∀ r ∈ opcodeRows, r.selectedBy w = true ↔ ∃ i, decode w = .ok i ∧ i.mnemonic = r.mnemonic) ∧
    (wordSpellsCommand w = false ↔ ∃ e, decode w = .error e)

/-- The example words of R89 decode to their operations. -/
def Obligations.SpecExampleWordsDecode : Prop :=
  decode 0x10000041 = .ok (.enc 0x41 0) ∧ decode 0x2000001B = .ok (.dec 0x1B) ∧
  decode 0x31000037 = .ok (.schr 0x37 1) ∧ decode 0x40000100 = .ok (.sstr 0x0100 0) ∧
  decode 0x5000001F = .ok (.sraw 0x1F) ∧ decode 0x60000000 = .ok .dsb ∧
  decode 0x71000000 = .ok (.rraw true) ∧ decode 0x81000000 = .ok (.spwr true) ∧
  decode 0x90000000 = .ok .gpwr ∧ decode 0xA0000000 = .ok .tpwr ∧ decode 0xB0000000 = .ok .cpwr

/-! ## The step and the host's events -/

/-- A step whose next event is a command word runs the decoded operation on the state that no longer waits for it. That
the host's events stand in a list of the state is the model's choice (log 1). No event is taken while an SSTR is running, which
`OnlyUnterminatedTextHangs` speaks of. -/
def Obligations.StepRunsTheDecodedCommand : Prop :=
  ∀ (s : State) (w : CmdWord) (es : List HostEvent) (i : Instr),
    s.sending = none → s.port = .command w :: es → constructed s = true → decode w = .ok i →
    step s = exec i { s with port := es }

/-- A word that spells no command is refused, and so is every word while CONSTRUCTED = 0 (R86). -/
def Obligations.UnspelledWordsAreRefused : Prop :=
  ∀ (s : State) (w : CmdWord) (es : List HostEvent),
    s.sending = none → s.port = .command w :: es → (wordSpellsCommand w = false ∨ constructed s = false) →
    (∃ e, step s = .refused (.illFormedWord e)) ∨ step s = .refused .notConstructed

/-- The host's wait moves the clock and nothing else (R43, R90). -/
def Obligations.HostWaitMovesOnlyTheClock : Prop :=
  ∀ (s : State) (d : Nat) (es : List HostEvent),
    s.sending = none → s.port = .wait d :: es → s.clock + d < clockEnd s.platform →
    step s = .next { s with port := es, clock := timeAfter s d }

/-- A byte the host writes to TEXT reads back at its address, which wraps modulo 2^TEXT_ADDR_BITS (R59); every other byte
and every register is unchanged, and the canonical form of the memory is kept (R57). The premise on the memory's form is part
of `Inv`. -/
def Obligations.TextReadsBackWhatTheHostWrote : Prop :=
  ∀ (s : State) (a : Nat) (b : Chr) (es : List HostEvent),
    s.sending = none → s.port = .fillText a b :: es → Memory.wf (textSize s.platform) s.text = true →
    ∃ t, step s = .next t ∧
      (∀ x, textRead t x =
        if x % 2 ^ s.platform.textAddrBits = a % 2 ^ s.platform.textAddrBits then b else textRead s x) ∧
      Memory.wf (textSize t.platform) t.text = true ∧
      t = { s with port := es, text := t.text }

/-- A well configured construction request on a bank that answers leaves R201's values: the working registers, RES, STATUS,
the configuration with its code tables, SHADOW, and exactly the two line commands of R200 step 5. What a configuration must
be is R35's (distinct roles, lines of the bank) and R75's (the tables' check; logs 32, 33); that it leaves the platform's parameters is
log 31's. -/
def Obligations.ConstructionGivesTheResetValues : Prop :=
  ∀ (s : State) (c : Cfg) (es : List HostEvent),
    s.sending = none → s.port = .construct c .ok :: es → wellConfigured s.platform c →
    ∃ t, step s = .next t ∧
      t.alpha = .unknown ∧ t.col = 0 ∧ t.powerOnSince = none ∧ t.res = 0 ∧ t.status = 0x01 ∧ t.cfg = c ∧
      (∀ n : LineNo, t.shadow.getLsbD n.toNat = (if n = c.wrLine then true else if n = c.pwrLine then !c.powerOnLevel else false)) ∧
      t.trace = [⟨c.wrLine, true, s.clock⟩, ⟨c.pwrLine, !c.powerOnLevel, s.clock⟩] ∧
      t.platform = s.platform ∧ t.clock = s.clock ∧ t.text = s.text ∧ t.port = es ∧ t.kbd = s.kbd ∧ t.samples = [] ∧
      t.sent = [] ∧ t.sending = none

/-- A construction that cannot acquire or cannot map the bank is taken (R182): the code in STATUS.ERR, CONSTRUCTED = 0,
no line commanded; and whatever command comes next is refused. -/
def Obligations.ConstructionFailureIsTaken : Prop :=
  ∀ (s : State) (c : Cfg) (bank : BankAnswer) (es : List HostEvent),
    s.sending = none → s.port = .construct c bank :: es → wellConfigured s.platform c → bank ≠ .ok →
    ∃ t, step s = .next t ∧
      statusErr t = (if bank = .acquireFails then 1 else 2) ∧ constructed t = false ∧ t.res = 0 ∧ t.trace = [] ∧ t.sending = none ∧
      (∀ w es', es = .command w :: es' → step t = .refused .notConstructed)

/-- A role configuration that repeats a line is refused before anything is acquired (R35, R183). -/
def Obligations.RepeatedRolesAreRefused : Prop :=
  ∀ (s : State) (c : Cfg) (bank : BankAnswer) (es : List HostEvent),
    s.sending = none → s.port = .construct c bank :: es → c.rolesDistinct = false → step s = .refused .rolesNotDistinct

/-- A configuration with distinct roles is refused before anything is acquired too when a role is no line of the bank (R35:
a line number is 0..LINE_COUNT-1), and when its code tables fail the check of R75 or repeat one of the six shared control
codes (R108). That the model refuses here, as it does for repeated roles, is its choice (logs 32, 33). -/
def Obligations.IllFormedConfigurationsAreRefused : Prop :=
  ∀ (s : State) (c : Cfg) (bank : BankAnswer) (es : List HostEvent),
    s.sending = none → s.port = .construct c bank :: es → c.rolesDistinct = true →
    ((∃ n ∈ [c.wrLine, c.kbdLine, c.pwrLine, c.auxLine], s.platform.lineCount ≤ n.toNat) →
      step s = .refused .roleOutsideBank) ∧
    ((∀ n ∈ [c.wrLine, c.kbdLine, c.pwrLine, c.auxLine], n.toNat < s.platform.lineCount) →
      (c.code.check = false ∨ ¬ c.code.sharedSyms.Nodup) → step s = .refused .illFormedTables)

/-- The configuration with its code tables changes only by a construction that succeeds, to what the request gives (R35, R37,
R64, R200); that such a request is well configured is the model's choice beyond R35's distinct roles (logs 32, 33). That no
step, a construction included, writes the platform's parameters is the model's own choice too, of which no rule speaks (log
31). -/
def Obligations.OnlyConstructionWritesTheConfiguration : Prop :=
  ∀ s t : State, step s = .next t →
    t.platform = s.platform ∧
    (t.cfg ≠ s.cfg → ∃ c es, s.port = .construct c .ok :: es ∧ t.cfg = c ∧ wellConfigured s.platform c)

/-- The reset state has the values R201 gives; its configuration's open values are the model's choice (logs 3, 4, 5, 30). That
0x1F and 0x1B are the shift symbols is R72's, which the spec itself takes from general knowledge (log 6, PRESUMED); that
CLOCK_UNIT is a number of nanoseconds is log 31's. -/
def Obligations.ResetHasTheSpecifiedValues : Prop :=
  State.reset.alpha = .unknown ∧ State.reset.col = 0 ∧ State.reset.powerOnSince = none ∧ State.reset.res = 0 ∧
  State.reset.status = 0x01 ∧ State.reset.sending = none ∧ State.reset.shadow = 1#32 <<< State.reset.cfg.wrLine.toNat ∧
  State.reset.cfg.rolesDistinct = true ∧ State.reset.cfg.tSym = 20000 ∧
  (∀ sym, stopInterval State.reset.cfg.code State.reset.cfg sym = if sym = 0x1F ∨ sym = 0x1B then 100000 else 30000) ∧
  shippedTiming State.reset.platform State.reset.cfg ∧
  pinLevel State.reset.cfg.wrLine State.reset = some true ∧ pinLevel State.reset.cfg.pwrLine State.reset = some false

/-- Every parameter of R9 that has a default has it in the reset state. Which of them stand in the configuration and which in
the platform's record is the model's choice, and so is CLOCK_UNIT in nanoseconds (log 31); the tables, the symbol constants and
the other characters are R72 to R74's and R9's, which the spec takes from general knowledge or decides (log 6). -/
def Obligations.ResetHasTheDefaultParameters : Prop :=
  let c := State.reset.cfg
  let p := State.reset.platform
  c.code.tblL.toList = [0x00, 0x65, 0x0A, 0x61, 0x20, 0x73, 0x69, 0x75, 0x0D, 0x64, 0x72, 0x6A, 0x6E, 0x66, 0x63, 0x6B,
    0x74, 0x7A, 0x6C, 0x77, 0x68, 0x79, 0x70, 0x71, 0x6F, 0x62, 0x67, 0x0E, 0x6D, 0x78, 0x76, 0x0F] ∧
  c.code.tblF.toList = [0x00, 0x33, 0x0A, 0x2D, 0x20, 0x27, 0x38, 0x37, 0x0D, 0x05, 0x34, 0x07, 0x2C, 0x21, 0x3A, 0x28,
    0x35, 0x2B, 0x29, 0x32, 0x23, 0x36, 0x30, 0x31, 0x39, 0x3F, 0x26, 0x0E, 0x2E, 0x2F, 0x3D, 0x0F] ∧
  c.code.symNull = 0x00 ∧ c.code.symLf = 0x02 ∧ c.code.symCr = 0x08 ∧ c.code.symWru = 0x09 ∧ c.code.symBell = 0x0B ∧
  c.code.symFigs = 0x1B ∧ c.code.symLtrs = 0x1F ∧ c.code.national = [0x0D, 0x14, 0x1A] ∧ c.code.placeholderSym = 0x19 ∧
  c.code.quoteFold = [0x22, 0x60] ∧ c.code.terminator = 0x00 ∧ c.unknownOrder = .letters ∧
  c.decodeUnknownPage = .letters ∧ p.textAddrBits = 16 ∧ c.kbdMarkLevel = true ∧ c.rxOrder = .firstToBit0 ∧
  c.rxTail = c.tSym ∧ c.rxMargin = c.tSym ∧ c.echoFraming = .startAndStop ∧ c.powerOnLevel = true ∧
  nanoseconds p 1 = 1000 ∧ p.tsBits = 64 ∧ c.sleepJitter = 0 ∧ p.lineCount = 32

/-! ## The codec -/

/-- `Lower(c)` (R101): 0x41 to 0x5A gain 0x20, every other character passes. -/
def Obligations.LowerMovesExactlyTheCapitals : Prop :=
  ∀ c : Chr, (lower c).toNat = if 0x41 ≤ c.toNat ∧ c.toNat ≤ 0x5A then c.toNat + 0x20 else c.toNat

/-- `Lookup(p, c)` (R52) returns the lowest index with that entry, for any tables, and `none` when there is none. -/
def Obligations.LookupReturnsTheLowestIndex : Prop :=
  ∀ (k : CodeTables) (p : Page) (c : Chr),
    (∀ i, lookup k p c = some i ↔ tbl k p i = c ∧ ∀ j, j < i → tbl k p j ≠ c) ∧
    (lookup k p c = none ↔ ∀ i, tbl k p i ≠ c)

/-- Filter levels are monotonic, level 0 substitutes nothing and levels 5 to 15 act as 4, for any tables (R103). With the
shipped tables the filter hits exactly the shift and who-are-you characters from level 1, NUL from 2, the bell from 3 and
the three national characters from 4; and `Fold` (R102) turns the double quote and the grave accent into the apostrophe and
changes nothing else. -/
def Obligations.FilterLevelsAreGraded : Prop :=
  (∀ (k : CodeTables) (c : Chr) (f g : FilterLevel),
    (f ≤ g → filterHit k c f = true → filterHit k c g = true) ∧ filterHit k c 0 = false ∧
    (4 ≤ f → filterHit k c f = filterHit k c 4)) ∧
  (∀ (c : Chr) (f : FilterLevel),
    filterHit shippedCode c f = true ↔
      (1 ≤ f ∧ c ∈ [0x0F#8, 0x0E#8, 0x05#8]) ∨ (2 ≤ f ∧ c = 0x00) ∨ (3 ≤ f ∧ c = 0x07) ∨
      (4 ≤ f ∧ c ∈ [0x21#8, 0x23#8, 0x26#8])) ∧
  (∀ c : Chr, fold shippedCode c = if c = 0x22 ∨ c = 0x60 then 0x27 else c)

/-- ENC completes in every state and writes RES alone: the placeholder for a filtered or an unrepresentable character,
otherwise the symbol of the lowered and folded character in the page searched first, or in the other page (R100); every field of RES but SYM and
PAGE is 0 (R33, R85). Which
page UNKNOWN searches first is the configuration's (log 7). -/
def Obligations.EncReturnsSymbolAndPage : Prop :=
  ∀ (s : State) (c : Chr) (f : FilterLevel),
    ∃ (sym : Sym) (p : Page),
      exec (.enc c f) s = .next { s with res := resOfSymPage sym p } ∧
      resSym (resOfSymPage sym p) = sym ∧ resPage (resOfSymPage sym p) = alphaCode (pageAlpha p) ∧
      resChar (resOfSymPage sym p) = 0 ∧ resFlag (resOfSymPage sym p) = false ∧ resCharValid (resOfSymPage sym p) = false ∧
      (resOfSymPage sym p).getLsbD 7 = false ∧ (resOfSymPage sym p).extractLsb' 18 14 = 0 ∧
      (let k := s.cfg.code
       let c2 := fold k (lower c)
       let first := alphaPage s.cfg.unknownOrder s.alpha
       let inPage := fun q => ∃ i, tbl k q i = c2
       if filterHit k c2 f = true then sym = k.placeholderSym ∧ p = .figures
       else (inPage first → p = first ∧ tbl k p sym = c2) ∧
         (¬ inPage first → inPage (otherPage first) → p = otherPage first ∧ tbl k p sym = c2) ∧
         (¬ inPage first → ¬ inPage (otherPage first) → sym = k.placeholderSym ∧ p = .figures))

/-- A character of the current page is encoded in it, and the other page is returned only for a character that the
current page lacks (R111), for any tables. -/
def Obligations.EncodeChangesPageOnlyWhenItMust : Prop :=
  ∀ (k : CodeTables) (unk p : Page) (c : Chr) (f : FilterLevel),
    let c2 := fold k (lower c)
    let r := encodeChar k unk (pageAlpha p) c f
    (filterHit k c2 f = false → (∃ i, tbl k p i = c2) → r.2 = p ∧ tbl k p r.1 = c2) ∧
    (r.2 ≠ p → (∀ i, tbl k p i ≠ c2) ∨ (r = (k.placeholderSym, .figures) ∧ filterHit k c2 f = true))

/-- DEC completes in every state: a shift symbol moves ALPHA first, then the entry of the page comes back in CHAR; nothing
else changes (R106). While ALPHA is UNKNOWN the page is the configuration's (log 7). -/
def Obligations.DecReturnsTheTableEntry : Prop :=
  ∀ (s : State) (sym : Sym),
    ∃ a : Alpha,
      a = (if sym = s.cfg.code.symLtrs then .letters else if sym = s.cfg.code.symFigs then .figures else s.alpha) ∧
      exec (.dec sym) s =
        .next { s with alpha := a, res := resOfChar (tbl s.cfg.code (alphaPage s.cfg.decodeUnknownPage a) sym) } ∧
      (∀ ch, resChar (resOfChar ch) = ch ∧ resCharValid (resOfChar ch) = true ∧
        resSym (resOfChar ch) = 0 ∧ resPage (resOfChar ch) = 0 ∧ resFlag (resOfChar ch) = false ∧
        (resOfChar ch).getLsbD 7 = false ∧ (resOfChar ch).extractLsb' 18 14 = 0)

/-- A shift symbol decodes to its own page's entry, whatever ALPHA was (R107), for tables whose control codes differ (part
of `Inv` for a constructed block; log 32). -/
def Obligations.ShiftSymbolsDecodeToTheirOwnEntry : Prop :=
  ∀ s : State, s.cfg.code.controlsDistinct = true →
    (∃ t, exec (.dec s.cfg.code.symLtrs) s = .next t ∧ t.alpha = .letters ∧
      resChar t.res = tbl s.cfg.code .letters s.cfg.code.symLtrs) ∧
    (∃ t, exec (.dec s.cfg.code.symFigs) s = .next t ∧ t.alpha = .figures ∧
      resChar t.res = tbl s.cfg.code .figures s.cfg.code.symFigs)

/-- Decoding a sequence with no shift symbols never changes ALPHA, UNKNOWN included (R110). -/
def Obligations.DecodingWithoutShiftsKeepsAlpha : Prop :=
  ∀ (syms : List Sym) (s : State), (∀ x ∈ syms, isShift s.cfg.code x = false) →
    ∃ t, execAll (syms.map .dec) s = .next t ∧ t.alpha = s.alpha

/-- The round trip of R109, for any tables that pass R75's check. -/
def Obligations.CodecRoundTrip : Prop :=
  ∀ (k : CodeTables) (unk dunk : Page) (a b : Alpha) (c c' : Chr), k.check = true →
    (∃ p i, tbl k p i = c') → fold k (lower c) = c' →
    let r := encodeChar k unk a c 0
    tbl k r.2 r.1 = c' ∧
    (b = pageAlpha r.2 ∨ (r.1 ∈ k.sharedSyms ∧ b ≠ .unknown) ∨ isShift k r.1 = true →
      decodeChar k dunk b r.1 = c')

/-- The shipped tables pass R75's check, and their six shared control codes differ (R108; log 32). Their entries are the
spec's decision (log 6). -/
def Obligations.ShippedTablesPassTheCheck : Prop := shippedCode.check = true ∧ shippedCode.controlsDistinct = true

/-! ## The line discipline -/

/-- SCHR completes in every state; the symbols it sends and what it leaves in ALPHA and COL are R120's: nothing for a CR;
CR LF for an LF; otherwise CR LF when the character is printable and COL is at least 69, then NULL and the shift twice
when the page changes, then the payload. What COL becomes is stated for tables whose control codes differ (part of `Inv`
for a constructed block; log 32). -/
def Obligations.SchrSendsTheSpecifiedSymbols : Prop :=
  ∀ (s : State) (c : Chr) (f : FilterLevel),
    ∃ t, exec (.schr c f) s = .next t ∧
      (let k := s.cfg.code
       let r := encodeChar k s.cfg.unknownOrder s.alpha c f
       let wraps := printable k r.1 r.2 = true ∧ 69 ≤ s.col.toNat
       if r.1 = k.symCr then t = s
       else if r.1 = k.symLf then t.sent = s.sent ++ [k.symCr, k.symLf] ∧ t.alpha = s.alpha ∧ t.col = 0
       else
         t.sent = s.sent ++ (if wraps then [k.symCr, k.symLf] else []) ++
           (if pageAlpha r.2 = s.alpha then [] else [k.symNull, shiftOf k r.2, shiftOf k r.2]) ++ [r.1] ∧
         t.alpha = pageAlpha r.2 ∧
         (k.controlsDistinct = true →
           t.col = (if wraps then 0 else s.col) + (if printable k r.1 r.2 = true then 1 else 0)))

/-- A character that encodes to CR is dropped: nothing at all changes. With the shipped tables 0x0D is the only one
(R122). -/
def Obligations.CarriageReturnIsDropped : Prop :=
  ∀ (s : State) (c : Chr) (f : FilterLevel),
    (s.cfg.code = shippedCode →
      ((encodeChar s.cfg.code s.cfg.unknownOrder s.alpha c f).1 = s.cfg.code.symCr ↔ c = 0x0D)) ∧
    ((encodeChar s.cfg.code s.cfg.unknownOrder s.alpha c f).1 = s.cfg.code.symCr → exec (.schr c f) s = .next s)

/-- A character that encodes to LF sends CR then LF whatever ALPHA and COL are, leaves ALPHA and makes COL 0, for tables
whose control codes differ (part of `Inv` for a constructed block; log 32). With the shipped tables 0x0A is the only such
character, and it does so (R125). -/
def Obligations.LineFeedSendsCrThenLf : Prop :=
  ∀ (s : State) (c : Chr) (f : FilterLevel),
    (s.cfg.code = shippedCode →
      ((encodeChar s.cfg.code s.cfg.unknownOrder s.alpha c f).1 = s.cfg.code.symLf ↔ c = 0x0A)) ∧
    ((s.cfg.code.controlsDistinct = true ∧ (encodeChar s.cfg.code s.cfg.unknownOrder s.alpha c f).1 = s.cfg.code.symLf) ∨
        (s.cfg.code = shippedCode ∧ c = 0x0A) →
      ∃ t, exec (.schr c f) s = .next t ∧
        t.sent = s.sent ++ [s.cfg.code.symCr, s.cfg.code.symLf] ∧ t.alpha = s.alpha ∧ t.col = 0)

/-- What SCHR leaves unchanged: RES, the host's side, every byte of TEXT, the receiver, and every line but the writer
line and, when the block was unpowered, the power line (R26, R120). When it sends anything the timestamp is the time the
last frame ended (R144); when it sends nothing the power record is unchanged too. -/
def Obligations.SchrFrame : Prop :=
  ∀ (s t : State) (c : Chr) (f : FilterLevel), exec (.schr c f) s = .next t →
    t.res = s.res ∧ KeepsHostSide s t ∧ KeepsReceiver s t ∧
    KeepsLinesBut (s.cfg.wrLine :: if powered s then [] else [s.cfg.pwrLine]) s t ∧
    (t.sent ≠ s.sent → t.powerOnSince = some t.clock) ∧ (t.sent = s.sent → t = s)

/-- SSTR of a terminated string completes, and it is the sequence of SCHR of the string's characters in every register
and in the line trace (R127); it keeps RES and the host's side. What a byte of TEXT that nothing has written reads as is a
choice (log 13). -/
def Obligations.SstrIsTheSchrSequence : Prop :=
  ∀ (s : State) (a : TextAddr) (f : FilterLevel), textTerminated s.cfg.code s →
    ∃ t, exec (.sstr a f) s = .next t ∧
      execAll ((sstrString s a).map (fun c => .schr c f)) s = .next t ∧
      t.res = s.res ∧ KeepsHostSide s t ∧ KeepsReceiver s t ∧ KeepsLinesBut [s.cfg.wrLine, s.cfg.pwrLine] s t

/-- The empty string does nothing at all, not even a power-on (R127). -/
def Obligations.SstrOfTheEmptyStringDoesNothing : Prop :=
  ∀ (s : State) (a : TextAddr) (f : FilterLevel),
    textRead s a.toNat = s.cfg.code.terminator → exec (.sstr a f) s = .next s

/-- Nothing fails after construction (R180, R185): every operation has a next state. Every operation but one has returned in
it; an SSTR on a TEXT that holds no terminator never returns, which is a hang and no fault (R127, R185, R214): it sends the
bytes of TEXT round after round, as SCHR does, for ever, and no event of the host is taken meanwhile. That one step of the
model holds one such round is its choice (log 35). -/
def Obligations.OnlyUnterminatedTextHangs : Prop :=
  (∀ (i : Instr) (s : State),
    ∃ t, exec i s = .next t ∧
      (¬ ((∃ a f, i = .sstr a f) ∧ ∀ x, textRead s x ≠ s.cfg.code.terminator) → t.sending = s.sending)) ∧
  (∀ (s : State) (a : TextAddr) (f : FilterLevel),
    s.sending = none → (∀ x, textRead s x ≠ s.cfg.code.terminator) →
    (sstrString s a).length = 2 ^ s.platform.textAddrBits ∧
    (∀ j, j < 2 ^ s.platform.textAddrBits → (sstrString s a)[j]? = some (textRead s (a.toNat + j))) ∧
    ∃ t, exec (.sstr a f) s = .next t ∧
      ∀ n, ∃ u, execAll ((List.replicate (n + 1) (sstrString s a)).flatten.map (fun c => .schr c f)) s = .next u ∧
        u.port = s.port ∧
        runSteps n t = .next { u with sending := some ⟨a.toNat % 2 ^ s.platform.textAddrBits, f⟩ })

/-- R131 P1: of 70 printable characters sent from column 0, the first 69 send no CR and no LF and leave COL = 69; the
70th sends exactly one CR LF pair, first, and leaves COL = 1; for tables whose control codes differ (part of `Inv` for a
constructed block; log 32). -/
def Obligations.SeventyPrintablesWrapOnce : Prop :=
  ∀ (s : State) (f : FilterLevel) (cs : List Chr) (c : Chr),
    let k := s.cfg.code
    k.controlsDistinct = true → s.col = 0 → cs.length = 69 →
    (∀ x ∈ cs ++ [c], ∀ a, let r := encodeChar k s.cfg.unknownOrder a x f; printable k r.1 r.2 = true) →
    ∃ u l t m,
      execAll (cs.map (fun x => .schr x f)) s = .next u ∧ u.sent = s.sent ++ l ∧
      k.symCr ∉ l ∧ k.symLf ∉ l ∧ u.col = 69 ∧
      exec (.schr c f) u = .next t ∧ t.sent = u.sent ++ [k.symCr, k.symLf] ++ m ∧
      k.symCr ∉ m ∧ k.symLf ∉ m ∧ t.col = 1

/-- R131 P2: "AB" from the unknown page sends NULL, LETTERS-shift twice, `a`, `b`, and ends in LETTERS with COL = 2, at
every filter level, with the shipped tables. -/
def Obligations.AbFromTheUnknownPage : Prop :=
  ∀ (s : State) (a : TextAddr) (f : FilterLevel),
    s.cfg.code = shippedCode → s.alpha = .unknown → s.col = 0 →
    textRead s a.toNat = 0x41 → textRead s (a.toNat + 1) = 0x42 → textRead s (a.toNat + 2) = 0x00 →
    ∃ t, exec (.sstr a f) s = .next t ∧ t.sent = s.sent ++ [0x00, 0x1F, 0x1F, 0x03, 0x19] ∧
      t.alpha = .letters ∧ t.col = 2

/-- I-A of R25: ALPHA changes only in a step that decodes a shift symbol (DEC, or RRAW with echo) or sends one. -/
def Obligations.AlphaChangesOnlyByAShiftSymbol : Prop :=
  ∀ (i : Instr) (s t : State), exec i s = .next t → t.alpha ≠ s.alpha →
    (∃ sym, i = .dec sym ∧ isShift s.cfg.code sym = true) ∨
    (i = .rraw true ∧ isShift s.cfg.code (resSym t.res) = true) ∨
    (∃ l sym, t.sent = s.sent ++ l ∧ sym ∈ l ∧ isShift s.cfg.code sym = true)

/-- I-B of R25: COL becomes 0 only in a step that emits SYM_CR. -/
def Obligations.ColumnReturnsOnlyByACr : Prop :=
  ∀ (i : Instr) (s t : State), exec i s = .next t → s.col ≠ 0 → t.col = 0 →
    ∃ l, t.sent = s.sent ++ l ∧ s.cfg.code.symCr ∈ l

/-- Once ALPHA has left UNKNOWN, no operation returns it there (R21). -/
def Obligations.UnknownNeverReturns : Prop :=
  ∀ (i : Instr) (s t : State), exec i s = .next t → s.alpha ≠ .unknown → t.alpha ≠ .unknown

/-- While symbols are sent by SCHR and SSTR at a filter level of 1 or more, ALPHA stays true of the symbols sent: the
last shift symbol sent selects the page ALPHA holds (R212). The tables are well formed, which is part of `Inv` for a
constructed block. -/
def Obligations.FilteredSendsKeepAlphaTrue : Prop :=
  ∀ (i : Instr) (s t : State) (f : FilterLevel),
    s.cfg.code.wellFormed = true → 1 ≤ f → ((∃ c, i = .schr c f) ∨ ∃ a, i = .sstr a f) →
    AlphaTrueOfSent s.cfg.code s → exec i s = .next t → AlphaTrueOfSent s.cfg.code t

/-- What SCHR puts on the lines, and when. When it sends no symbol nothing at all changes. When it sends symbols its line
commands are that of the power-on, if the block was unpowered (R142), and then one whole frame on the writer line for each
symbol, in the order sent, and no other (R120, R141, R155). With SLEEP_JITTER = 0 it takes exactly the time of the frames,
after T_WARMUP when it powers on (R205, R220, R221), and every command comes at its time of R155. With any SLEEP_JITTER
every wait is at most that much longer and never shorter (R62, R155, R222). Times need a clock that does not pass 2^TS_BITS
(log 8). -/
def Obligations.SchrTakesTheTimeOfItsFrames : Prop :=
  ∀ (s : State) (c : Chr) (f : FilterLevel),
    ∃ t l cmds, exec (.schr c f) s = .next t ∧ t.sent = s.sent ++ l ∧ t.trace = s.trace ++ cmds ∧ (l = [] → t = s) ∧
      (let k := s.cfg.code
       let total := (if powered s = true ∨ l = [] then 0 else s.cfg.tWarmup) + (l.map (frameTime k s.cfg)).sum
       (ExactTime s total → t.clock = timeAfter s total ∧
         (l ≠ [] → cmds = powerOnCommands s ++ framesCommands k s.cfg l (timeAfter s (powerOnDelay s)))) ∧
       (l ≠ [] → ∃ es, cmds = powerOnCommands s ++ es ∧ es.map LineEvent.command = framesLevels s.cfg l ∧
         (FitsClock s total (powerOnSleeps s + 7 * l.length) →
           ∃ b, Slept s.cfg.sleepJitter (powerOnSleeps s) (powerOnDelay s) s.clock b ∧
             Paced s.cfg.sleepJitter b (l.flatMap (frameGaps k s.cfg)) (es.map (·.time)) t.clock)))

/-! ## The transport -/

/-- SRAW completes in every state. It sends the one symbol, refreshes the timestamp at its end (R144), leaves the writer
line at mark, and changes neither ALPHA nor COL nor RES (R154), nor the host's side, nor the receiver, nor any line but
the writer line and, when the block was unpowered, the power line. -/
def Obligations.SrawSendsOneSymbolAndTracksNothing : Prop :=
  ∀ (s : State) (sym : Sym),
    ∃ t, exec (.sraw sym) s = .next t ∧ t.sent = s.sent ++ [sym] ∧ t.powerOnSince = some t.clock ∧
      pinLevel s.cfg.wrLine t = some true ∧ t.shadow.getLsbD s.cfg.wrLine.toNat = true ∧
      KeepsTracker s t ∧ t.res = s.res ∧ KeepsHostSide s t ∧ KeepsReceiver s t ∧
      KeepsLinesBut (s.cfg.wrLine :: if powered s then [] else [s.cfg.pwrLine]) s t

/-- The line trace of SRAW (R155): after any power-on (R142), the start bit, the five data bits least significant first,
the stop, and no other command; the operation returns and stamps when the stop interval is over. With SLEEP_JITTER = 0 each
comes at its time; with any SLEEP_JITTER every gap is at most that much longer and never shorter (R62, R155, R222). Times
need a clock that does not pass 2^TS_BITS (log 8). -/
def Obligations.SrawLineTrace : Prop :=
  ∀ (s : State) (sym : Sym),
    let up := if powered s then 0 else s.cfg.tWarmup
    let sleeps := if powered s then 0 else 1
    let on := if powered s then [] else [⟨s.cfg.pwrLine, s.cfg.powerOnLevel, s.clock⟩]
    let at_ := fun n => timeAfter s (up + n * s.cfg.tSym)
    let stop := stopInterval s.cfg.code s.cfg sym
    let total := up + frameTime s.cfg.code s.cfg sym
    ∃ t es, exec (.sraw sym) s = .next t ∧ t.trace = s.trace ++ on ++ es ∧ t.powerOnSince = some t.clock ∧
      es.map LineEvent.command =
        [false, sym.getLsbD 0, sym.getLsbD 1, sym.getLsbD 2, sym.getLsbD 3, sym.getLsbD 4, true].map (s.cfg.wrLine, ·) ∧
      (FitsClock s total (sleeps + 7) →
        ∃ b, Slept s.cfg.sleepJitter sleeps up s.clock b ∧
          Paced s.cfg.sleepJitter b
            [s.cfg.tSym, s.cfg.tSym, s.cfg.tSym, s.cfg.tSym, s.cfg.tSym, s.cfg.tSym, stop] (es.map (·.time)) t.clock) ∧
      (ExactTime s total →
        es = [⟨s.cfg.wrLine, false, at_ 0⟩, ⟨s.cfg.wrLine, sym.getLsbD 0, at_ 1⟩, ⟨s.cfg.wrLine, sym.getLsbD 1, at_ 2⟩,
          ⟨s.cfg.wrLine, sym.getLsbD 2, at_ 3⟩, ⟨s.cfg.wrLine, sym.getLsbD 3, at_ 4⟩,
          ⟨s.cfg.wrLine, sym.getLsbD 4, at_ 5⟩, ⟨s.cfg.wrLine, true, at_ 6⟩] ∧
        t.clock = timeAfter s total ∧ t.powerOnSince = some (timeAfter s total))

/-- `StopInterval(s)` with the shipped multipliers (R143): 5 T_SYM after a shift symbol, 3 T_SYM / 2 after any other, for
any tables. -/
def Obligations.StopIntervalIsLongAfterAShift : Prop :=
  ∀ (c : Cfg) (sym : Sym), c.stopNumNormal = 3 → c.stopDenNormal = 2 → c.stopMultShift = 5 →
    stopInterval c.code c sym =
      if sym = c.code.symLtrs ∨ sym = c.code.symFigs then 5 * c.tSym else 3 * c.tSym / 2

/-- The transmitter as a shift register with a phase counter gives the state and the line trace that R141's loop gives
(R31), for any tables. -/
def Obligations.ShiftRegisterSendsTheSameFrame : Prop :=
  ∀ (k : CodeTables) (sym : Sym) (s : State), sendRawShifting k sym s = sendRaw k sym s

/-- DSB completes in the powered state, as a peek that takes no time: FLAG says whether the one sample of the keyboard line
found it at space, and nothing but RES and the receiver changes (R145, R146). -/
def Obligations.DsbPeeksWhenPowered : Prop :=
  ∀ s : State, powered s = true →
    ∃ t level, exec .dsb s = .next t ∧
      t.samples = s.samples ++ [⟨s.cfg.kbdLine, level, s.clock⟩] ∧ (∀ b bs, s.kbd = b :: bs → level = b ∧ t.kbd = bs) ∧
      t.res = resOfFlag (level != s.cfg.kbdMarkLevel) ∧ resFlag t.res = (level != s.cfg.kbdMarkLevel) ∧
      t.clock = s.clock ∧ t.powerOnSince = s.powerOnSince ∧ KeepsTracker s t ∧ KeepsHostSide s t ∧ KeepsLines s t

/-- DSB completes in the unpowered state too: it powers on first and waits out the warm-up, then takes one sample of the
keyboard line, the environment's next answer, which FLAG reports (R145, R142). With a SLEEP_JITTER the warm-up may be longer
by up to that much (R62). -/
def Obligations.DsbPowersOnWhenUnpowered : Prop :=
  ∀ s : State, powered s = false →
    ∃ t level, exec .dsb s = .next t ∧ t.powerOnSince = some s.clock ∧
      t.trace = s.trace ++ [⟨s.cfg.pwrLine, s.cfg.powerOnLevel, s.clock⟩] ∧
      t.samples = s.samples ++ [⟨s.cfg.kbdLine, level, t.clock⟩] ∧ (∀ b bs, s.kbd = b :: bs → level = b ∧ t.kbd = bs) ∧
      t.res = resOfFlag (level != s.cfg.kbdMarkLevel) ∧ resFlag t.res = (level != s.cfg.kbdMarkLevel) ∧
      (ExactTime s s.cfg.tWarmup → t.clock = timeAfter s s.cfg.tWarmup) ∧
      (FitsClock s s.cfg.tWarmup 1 → Slept s.cfg.sleepJitter 1 s.cfg.tWarmup s.clock t.clock) ∧
      KeepsTracker s t ∧ KeepsHostSide s t ∧ t.sent = s.sent ∧ KeepsLinesBut [s.cfg.pwrLine] s t

/-- RRAW without echo completes in every state: five samples of the keyboard line, whatever the environment answers, are
the bits of RES.SYM, the first at bit 0 unless RX_ORDER is REVERSED (R147, R148; log 7); ALPHA, COL, every line and the
host's side are unchanged (R150), and the timestamp is the time it returns. -/
def Obligations.RrawReceivesFiveSamples : Prop :=
  ∀ s : State,
    ∃ t es, exec (.rraw false) s = .next t ∧ t.samples = s.samples ++ es ∧ es.length = 5 ∧
      (∀ e ∈ es, e.line = s.cfg.kbdLine) ∧
      (∀ bs rest, s.kbd = bs ++ rest → bs.length = 5 → es.map (·.level) = bs ∧ t.kbd = rest) ∧
      (∀ i < 5, (resSym t.res).getLsbD i =
        ((es.map (fun e => e.level == s.cfg.kbdMarkLevel)).getD
          (match s.cfg.rxOrder with | .firstToBit0 => i | .reversed => 4 - i) false)) ∧
      t.res = (resSym t.res).setWidth 32 ∧ t.powerOnSince = some t.clock ∧
      KeepsTracker s t ∧ KeepsHostSide s t ∧ KeepsLines s t

/-- RRAW with echo completes in every state: it takes five samples of the keyboard line, the environment's next answers,
returns the symbol they make, decodes it once, which moves ALPHA on a shift symbol (R150), returns the character with CHARV
= 1 and every other field of RES 0 (R33, R85), and leaves COL and every line but the writer line unchanged. The echo is live
(R147, R149): each sampled bit is commanded at the instant of its sample, and with the start and stop of the echo (log 7)
the start T_SYM/2 after entry and the stop, at mark, RX_TAIL after the last sample, with RX_MARGIN still to come; each wait
longer by at most SLEEP_JITTER (R62). Times need a clock that does not pass 2^TS_BITS (log 8). -/
def Obligations.RrawEchoMirrorsAndDecodes : Prop :=
  ∀ s : State,
    let first := s.cfg.tSym / 2 + s.cfg.tSym
    let total := first + 4 * s.cfg.tSym + s.cfg.rxTail + s.cfg.rxMargin
    ∃ t es sym, exec (.rraw true) s = .next t ∧ t.samples = s.samples ++ es ∧ es.length = 5 ∧
      (∀ e ∈ es, e.line = s.cfg.kbdLine) ∧
      (∀ bs rest, s.kbd = bs ++ rest → bs.length = 5 → es.map (·.level) = bs ∧ t.kbd = rest) ∧
      (∀ i < 5, sym.getLsbD i =
        ((es.map (fun e => e.level == s.cfg.kbdMarkLevel)).getD
          (match s.cfg.rxOrder with | .firstToBit0 => i | .reversed => 4 - i) false)) ∧
      t.alpha = (if sym = s.cfg.code.symLtrs then .letters else if sym = s.cfg.code.symFigs then .figures else s.alpha) ∧
      resSym t.res = sym ∧ resCharValid t.res = true ∧
      resChar t.res = tbl s.cfg.code (alphaPage s.cfg.decodeUnknownPage t.alpha) sym ∧
      resPage t.res = 0 ∧ resFlag t.res = false ∧ t.res.getLsbD 7 = false ∧ t.res.extractLsb' 18 14 = 0 ∧
      t.powerOnSince = some t.clock ∧ t.col = s.col ∧ t.sent = s.sent ∧ KeepsHostSide s t ∧
      KeepsLinesBut [s.cfg.wrLine] s t ∧
      (s.cfg.echoFraming = .startAndStop →
        ∃ start stop, t.trace = s.trace ++ [⟨s.cfg.wrLine, false, start⟩] ++
            es.map (fun e => ⟨s.cfg.wrLine, e.level == s.cfg.kbdMarkLevel, e.time⟩) ++ [⟨s.cfg.wrLine, true, stop⟩] ∧
          (FitsClock s total 8 →
            Slept s.cfg.sleepJitter 1 (s.cfg.tSym / 2) s.clock start ∧
            ∃ a, Slept s.cfg.sleepJitter 1 s.cfg.tSym start a ∧
              Paced s.cfg.sleepJitter a [s.cfg.tSym, s.cfg.tSym, s.cfg.tSym, s.cfg.tSym, s.cfg.rxTail] (es.map (·.time))
                stop ∧
              Slept s.cfg.sleepJitter 1 s.cfg.rxMargin stop t.clock) ∧
          (ExactTime s total →
            start = timeAfter s (s.cfg.tSym / 2) ∧
            es.map (·.time) = [0, 1, 2, 3, 4].map (fun n => timeAfter s (first + n * s.cfg.tSym)) ∧
            stop = timeAfter s (first + 4 * s.cfg.tSym + s.cfg.rxTail) ∧ t.clock = timeAfter s total)) ∧
      (s.cfg.echoFraming = .dataOnly →
        t.trace = s.trace ++ es.map (fun e => ⟨s.cfg.wrLine, e.level == s.cfg.kbdMarkLevel, e.time⟩))

/-- The schedule of a reception (R151): sample k is taken T_SYM/2 + T_SYM + k T_SYM after entry, and the operation
returns RX_TAIL + RX_MARGIN after the last, with or without echo, when SLEEP_JITTER = 0. With any SLEEP_JITTER every wait is
at most that much longer and never shorter (R62): the first sample comes after two Sleeps, each further one after one more.
Times need a clock that does not pass 2^TS_BITS (log 8). -/
def Obligations.RrawSampleTimes : Prop :=
  ∀ (s : State) (e : Bool),
    let first := s.cfg.tSym / 2 + s.cfg.tSym
    let total := first + 4 * s.cfg.tSym + s.cfg.rxTail + s.cfg.rxMargin
    ∃ t es, exec (.rraw e) s = .next t ∧ t.samples = s.samples ++ es ∧
      (FitsClock s total 8 →
        ∃ a z, Slept s.cfg.sleepJitter 2 first s.clock a ∧
          Paced s.cfg.sleepJitter a [s.cfg.tSym, s.cfg.tSym, s.cfg.tSym, s.cfg.tSym, s.cfg.rxTail] (es.map (·.time)) z ∧
          Slept s.cfg.sleepJitter 1 s.cfg.rxMargin z t.clock) ∧
      (ExactTime s total →
        es.map (·.time) = [0, 1, 2, 3, 4].map (fun n => timeAfter s (first + n * s.cfg.tSym)) ∧
        t.clock = timeAfter s total)

/-- Loop-back is the identity (R148): the line trace that SRAW leaves carries the symbol in the data slots of its last
frame, bit 0 first; and when a keyboard line answers those levels, as that block's keyboard polarity has them, RRAW receives
the symbol, with the receive order as decided (C6), with or without echo. -/
def Obligations.LoopBackIsTheIdentity : Prop :=
  ∀ (s : State) (sym : Sym),
    ∃ t, exec (.sraw sym) s = .next t ∧ lastFrameData t = [0, 1, 2, 3, 4].map sym.getLsbD ∧
      ∀ (r : State) (e : Bool) (rest : List Bool),
        r.cfg.rxOrder = .firstToBit0 →
        r.kbd = (lastFrameData t).map (fun mark => mark == r.cfg.kbdMarkLevel) ++ rest →
        ∃ u, exec (.rraw e) r = .next u ∧ resSym u.res = sym ∧ u.kbd = rest

/-! ## The power controller -/

/-- SPWR completes in every state, unconditionally (R161, R162): the relay line is commanded, the timestamp is now (taken
before the warm-up) or absent, the delay is waited out, longer by at most SLEEP_JITTER (R62), and ALPHA, COL, RES, the host's side, the receiver and every other
line are unchanged (R226). -/
def Obligations.SpwrCommandsTheRelay : Prop :=
  ∀ (s : State) (o : Bool),
    ∃ t, exec (.spwr o) s = .next t ∧
      t.trace = s.trace ++ [⟨s.cfg.pwrLine, o == s.cfg.powerOnLevel, s.clock⟩] ∧
      t.shadow.getLsbD s.cfg.pwrLine.toNat = (o == s.cfg.powerOnLevel) ∧
      t.powerOnSince = (if o then some s.clock else none) ∧
      (ExactTime s (if o then s.cfg.tWarmup else s.cfg.tCooldown) →
        t.clock = timeAfter s (if o then s.cfg.tWarmup else s.cfg.tCooldown)) ∧
      (FitsClock s (if o then s.cfg.tWarmup else s.cfg.tCooldown) 1 →
        Slept s.cfg.sleepJitter 1 (if o then s.cfg.tWarmup else s.cfg.tCooldown) s.clock t.clock) ∧
      KeepsTracker s t ∧ t.res = s.res ∧ t.sent = s.sent ∧ KeepsHostSide s t ∧ KeepsReceiver s t ∧
      KeepsLinesBut [s.cfg.pwrLine] s t

/-- GPWR (R163): FLAG is 1 iff a power-on timestamp is recorded, and RES is all that is written. -/
def Obligations.GpwrReportsTheTimestamp : Prop :=
  ∀ s : State, ∃ r, exec .gpwr s = .next { s with res := r } ∧
    (resFlag r = true ↔ ∃ since, s.powerOnSince = some since) ∧ r = (if resFlag r then 0x00010000 else 0)

/-- TPWR (R164): the timestamp becomes now, in the unpowered state too, and nothing else is written. -/
def Obligations.TpwrStampsNow : Prop :=
  ∀ s : State, exec .tpwr s = .next { s with powerOnSince := some s.clock }

/-- CPWR reports no timeout and writes RES alone in the unpowered state, and in the powered state while the elapsed time
is below IDLE_THRESHOLD (R165, R167). The elapsed time is that of a timestamp not later than now (log 9). -/
def Obligations.CpwrBelowTheThreshold : Prop :=
  ∀ s : State,
    (s.powerOnSince = none ∨ ∃ since, s.powerOnSince = some since ∧ since ≤ s.clock ∧
      s.clock - since < s.cfg.idleThreshold) →
    exec .cpwr s = .next { s with res := 0 }

/-- CPWR takes the timeout in the powered state once the elapsed time has reached IDLE_THRESHOLD: the relay goes off, the
timestamp is absent, the cool-down is waited out, longer by at most SLEEP_JITTER (R62), FLAG is 1; ALPHA, COL and the host's side are unchanged (R165, R167). -/
def Obligations.CpwrAtTheThreshold : Prop :=
  ∀ (s : State) (since : Nat), s.powerOnSince = some since → since ≤ s.clock →
    s.cfg.idleThreshold ≤ s.clock - since →
    ∃ t, exec .cpwr s = .next t ∧ t.res = 0x00010000 ∧ t.powerOnSince = none ∧
      t.trace = s.trace ++ [⟨s.cfg.pwrLine, !s.cfg.powerOnLevel, s.clock⟩] ∧
      (ExactTime s s.cfg.tCooldown → t.clock = timeAfter s s.cfg.tCooldown) ∧
      (FitsClock s s.cfg.tCooldown 1 → Slept s.cfg.sleepJitter 1 s.cfg.tCooldown s.clock t.clock) ∧
      KeepsTracker s t ∧ t.sent = s.sent ∧ KeepsHostSide s t ∧ KeepsReceiver s t ∧ KeepsLinesBut [s.cfg.pwrLine] s t

/-- The threshold law in real time (R166, R167): with an idle threshold of N seconds CPWR reports no timeout at N-1 seconds
since the timestamp, and the timeout at N seconds. It says so for every CLOCK_UNIT that is a whole number of nanoseconds, in
which the model keeps that parameter by its own choice (log 31). -/
def Obligations.CpwrReportsAtNSeconds : Prop :=
  ∀ (s : State) (since seconds : Nat),
    0 < seconds → nanoseconds s.platform s.cfg.idleThreshold = seconds * 1000000000 → s.powerOnSince = some since → since ≤ s.clock →
    (nanoseconds s.platform (s.clock - since) = (seconds - 1) * 1000000000 →
      ∃ t, exec .cpwr s = .next t ∧ resFlag t.res = false ∧ t.powerOnSince = some since) ∧
    (nanoseconds s.platform (s.clock - since) = seconds * 1000000000 →
      ∃ t, exec .cpwr s = .next t ∧ resFlag t.res = true ∧ t.powerOnSince = none)

/-! ## The whole machine -/

/-- The invariant of the machine is kept by every step, whatever the host's event is. That a constructed block is well
configured, and SHADOW has no bit outside the bank, rests on the model's choices (logs 31, 32, 33); that an SSTR
may be running between two steps is how it holds a hang (log 14). -/
def Obligations.StepKeepsInv : Prop :=
  ∀ s t : State, Inv s → step s = .next t → Inv t

/-- The invariant holds in the reset state, with the model's choices for it (logs 3, 22, 31). -/
def Obligations.ResetSatisfiesInv : Prop := Inv State.reset

/-- No operation writes the configuration with its code tables, STATUS, the host's events or any byte of TEXT (R26, R35 to
R37, R64, R66), nor the platform's parameters (log 31). -/
def Obligations.NoOperationWritesTheHostSide : Prop :=
  ∀ (i : Instr) (s t : State), exec i s = .next t → KeepsHostSide s t

/-- No operation commands a line that is neither the writer line nor the power line: the auxiliary line keeps its pin and
its SHADOW bit (R169, R192). -/
def Obligations.OnlyWriterAndPowerLinesAreCommanded : Prop :=
  ∀ (i : Instr) (s t : State), exec i s = .next t →
    KeepsLinesBut [s.cfg.wrLine, s.cfg.pwrLine] s t ∧
    ∃ cmds, t.trace = s.trace ++ cmds ∧ ∀ e ∈ cmds, e.line = s.cfg.wrLine ∨ e.line = s.cfg.pwrLine

/-- Every operation leaves a writer line that was at mark at mark (R197), given the echo's start and stop (log 7) and
distinct roles. -/
def Obligations.WriterLineRestsAtMark : Prop :=
  ∀ (i : Instr) (s t : State), s.cfg.rolesDistinct = true → s.cfg.echoFraming = .startAndStop →
    pinLevel s.cfg.wrLine s = some true → exec i s = .next t → pinLevel s.cfg.wrLine t = some true
end

