-- ==== Sys2Proof/Laws/Codec.lean ====
section
/-! SUPPORT. The codec's primitives: the tables' search (R52), the filter (R103), decode (R106 to R108). -/

namespace Sys2Proof.Machine

theorem mem_allSyms (i : Sym) : i ∈ allSyms := by
  simp only [allSyms, List.mem_map]
  exact ⟨i.toFin, List.mem_finRange _, rfl⟩

/-- What the search finds has the entry (R52). -/
theorem lookup_some {k : CodeTables} {p : Page} {c : Chr} {i : Sym} (h : lookup k p c = some i) : tbl k p i = c := by
  simpa using List.find?_some h

/-- The search fails only when no entry matches (R52). -/
theorem lookup_none {k : CodeTables} {p : Page} {c : Chr} : lookup k p c = none ↔ ∀ i, tbl k p i ≠ c := by
  simp only [lookup, List.find?_eq_none, beq_iff_eq]
  exact ⟨fun h i => h i (mem_allSyms i), fun h i _ => h i⟩

/-- What ENC's search does (R100, R104, R105). -/
theorem searchPages_spec (k : CodeTables) (p : Page) (c : Chr) :
    (tbl k p (searchPages k p c).1 = c ∧ (searchPages k p c).2 = p) ∨
    ((∀ i, tbl k p i ≠ c) ∧ tbl k (otherPage p) (searchPages k p c).1 = c ∧ (searchPages k p c).2 = otherPage p) ∨
    ((∀ i, tbl k p i ≠ c) ∧ (∀ i, tbl k (otherPage p) i ≠ c) ∧ searchPages k p c = (k.placeholderSym, .figures)) := by
  unfold searchPages
  split
  · next i h => exact .inl ⟨lookup_some h, rfl⟩
  · next h =>
    rw [lookup_none] at h
    split
    · next i h' => exact .inr (.inl ⟨h, lookup_some h', rfl⟩)
    · next h' => exact .inr (.inr ⟨h, lookup_none.mp h', rfl⟩)

/-- Level 0 substitutes nothing (R103). -/
@[simp] theorem filterHit_zero (k : CodeTables) (c : Chr) : filterHit k c 0 = false := by
  unfold filterHit
  simp

/-- A non-shift symbol leaves ALPHA (R110). -/
theorem decodeAlpha_of_not_shift {k : CodeTables} {a : Alpha} {sym : Sym} (h : isShift k sym = false) :
    decodeAlpha k a sym = a := by
  simp only [isShift, Bool.or_eq_false_iff, beq_eq_false_iff_ne] at h
  simp [decodeAlpha, h.1, h.2]

/-- Decode never writes UNKNOWN (R21). -/
theorem decodeAlpha_ne_unknown {k : CodeTables} {a : Alpha} {sym : Sym} (h : a ≠ .unknown) :
    decodeAlpha k a sym ≠ .unknown := by
  unfold decodeAlpha
  split
  · simp
  · split
    · simp
    · exact h

end Sys2Proof.Machine
end

