-- ==== Sys2Proof/Laws/Encoding.lean ====
section
/-! SUPPORT. The fields of a command word (R80) and what the formats (R82 to R84) put into them. -/

namespace Sys2Proof

/-- One bit of a command word (R80). -/
theorem cmdWord_getLsbD (op arg : BitVec 4) (x : BitVec 16) (i : Nat) :
    (cmdWord op arg x).getLsbD i =
      if i < 16 then x.getLsbD i else if i < 24 then false else if i < 28 then arg.getLsbD (i - 24)
      else op.getLsbD (i - 28) := by
  unfold cmdWord
  simp only [BitVec.getLsbD_append, BitVec.getLsbD_zero]
  have e1 : i - 16 - 8 = i - 24 := by omega
  have e2 : i - 24 - 4 = i - 28 := by omega
  rw [e1, e2]
  split
  · rfl
  · by_cases h2 : i < 24
    · rw [if_pos h2, if_pos (by omega)]
    · rw [if_neg h2, if_neg (by omega)]
      by_cases h3 : i < 28
      · rw [if_pos h3, if_pos (by omega)]
      · rw [if_neg h3, if_neg (by omega)]

@[simp] theorem cmdOp_cmdWord (op arg : BitVec 4) (x : BitVec 16) : cmdOp (cmdWord op arg x) = op := by
  apply BitVec.eq_of_getLsbD_eq
  intro i hi
  rw [cmdOp, BitVec.getLsbD_extractLsb', cmdWord_getLsbD, if_neg (by omega), if_neg (by omega), if_neg (by omega)]
  simp [hi]

@[simp] theorem cmdArg_cmdWord (op arg : BitVec 4) (x : BitVec 16) : cmdArg (cmdWord op arg x) = arg := by
  apply BitVec.eq_of_getLsbD_eq
  intro i hi
  rw [cmdArg, BitVec.getLsbD_extractLsb', cmdWord_getLsbD, if_neg (by omega), if_neg (by omega), if_pos (by omega)]
  simp [hi]

@[simp] theorem cmdZero_cmdWord (op arg : BitVec 4) (x : BitVec 16) : cmdZero (cmdWord op arg x) = 0 := by
  apply BitVec.eq_of_getLsbD_eq
  intro i hi
  rw [cmdZero, BitVec.getLsbD_extractLsb', cmdWord_getLsbD, if_neg (by omega), if_pos (by omega)]
  simp

@[simp] theorem cmdOperand_cmdWord (op arg : BitVec 4) (x : BitVec 16) : cmdOperand (cmdWord op arg x) = x := by
  apply BitVec.eq_of_getLsbD_eq
  intro i hi
  rw [cmdOperand, BitVec.getLsbD_extractLsb', cmdWord_getLsbD, if_pos (by omega)]
  simp [hi]

/-- A command word with ZERO = 0 is made of its other fields. -/
theorem cmdWord_fields (w : CmdWord) (h : cmdZero w = 0) : cmdWord (cmdOp w) (cmdArg w) (cmdOperand w) = w := by
  apply BitVec.eq_of_getLsbD_eq
  intro i hi
  rw [cmdWord_getLsbD]
  split
  · next h1 => simp [cmdOperand, h1]
  · split
    · next h1 h2 =>
      have hz : (cmdZero w).getLsbD (i - 16) = false := by rw [h]; simp
      have e : 16 + (i - 16) = i := by omega
      rw [cmdZero, BitVec.getLsbD_extractLsb', e] at hz
      have h3 : i - 16 < 8 := by omega
      simpa [h3] using hz.symm
    · split
      · next h1 h2 h3 =>
        have e : 24 + (i - 24) = i := by omega
        rw [cmdArg, BitVec.getLsbD_extractLsb', e]
        have : i - 24 < 4 := by omega
        simp [this]
      · next h1 h2 h3 =>
        have e : 28 + (i - 28) = i := by omega
        rw [cmdOp, BitVec.getLsbD_extractLsb', e]
        have : i - 28 < 4 := by omega
        simp [this]

/-- A command word is known by its four fields. -/
theorem cmdWord_ext {v w : CmdWord} (ho : cmdOp v = cmdOp w) (ha : cmdArg v = cmdArg w)
    (hz : cmdZero v = cmdZero w) (hx : cmdOperand v = cmdOperand w) : v = w := by
  apply BitVec.eq_of_getLsbD_eq
  intro i hi
  have key : ∀ (a b : Nat), a ≤ i → i < a + b → v.extractLsb' a b = w.extractLsb' a b → v.getLsbD i = w.getLsbD i := by
    intro a b h1 h2 he
    have hb := congrArg (fun x => x.getLsbD (i - a)) he
    simp only [BitVec.getLsbD_extractLsb'] at hb
    have e : a + (i - a) = i := by omega
    have l : i - a < b := by omega
    simpa [e, l] using hb
  rcases Nat.lt_or_ge i 16 with h | h
  · exact key 0 16 (Nat.zero_le _) (by omega) hx
  rcases Nat.lt_or_ge i 24 with h' | h'
  · exact key 16 8 h (by omega) hz
  rcases Nat.lt_or_ge i 28 with h'' | h''
  · exact key 24 4 h' (by omega) ha
  · exact key 28 4 h'' (by omega) ho

/-- A word selects a row field by field (R81). -/
theorem selectedBy_iff (r : OpcodeRow) (w : CmdWord) :
    r.selectedBy w = true ↔
      cmdOp w &&& cmdOp r.mask = cmdOp r.fixed ∧ cmdArg w &&& cmdArg r.mask = cmdArg r.fixed ∧
      cmdZero w &&& cmdZero r.mask = cmdZero r.fixed ∧ cmdOperand w &&& cmdOperand r.mask = cmdOperand r.fixed := by
  have ex : ∀ (a b : Nat), (w &&& r.mask).extractLsb' a b = w.extractLsb' a b &&& r.mask.extractLsb' a b := by
    intro a b
    apply BitVec.eq_of_getLsbD_eq
    intro i hi
    simp [hi]
  simp only [OpcodeRow.selectedBy, beq_iff_eq]
  constructor
  · intro h
    have f : ∀ (a b : Nat), w.extractLsb' a b &&& r.mask.extractLsb' a b = r.fixed.extractLsb' a b :=
      fun a b => (ex a b).symm.trans (congrArg (fun x : CmdWord => x.extractLsb' a b) h)
    exact ⟨f _ _, f _ _, f _ _, f _ _⟩
  · rintro ⟨h1, h2, h3, h4⟩
    exact cmdWord_ext ((ex _ _).trans h1) ((ex _ _).trans h2) ((ex _ _).trans h3) ((ex _ _).trans h4)

theorem setWidth16_char (c : Chr) : (c.setWidth 16).extractLsb' 8 8 = 0 ∧ (c.setWidth 16).extractLsb' 0 8 = c := by
  constructor
  · apply BitVec.eq_of_getLsbD_eq; intro i hi
    simp [BitVec.getLsbD_extractLsb']
  · apply BitVec.eq_of_getLsbD_eq; intro i hi
    simp [hi]; omega

theorem setWidth16_sym (c : Sym) : (c.setWidth 16).extractLsb' 5 11 = 0 ∧ (c.setWidth 16).extractLsb' 0 5 = c := by
  constructor
  · apply BitVec.eq_of_getLsbD_eq; intro i hi
    simp [BitVec.getLsbD_extractLsb']
  · apply BitVec.eq_of_getLsbD_eq; intro i hi
    simp [hi]; omega

theorem argOfBool_fields (b : Bool) : (argOfBool b).extractLsb' 1 3 = 0 ∧ (argOfBool b).getLsbD 0 = b := by
  cases b <;> decide

end Sys2Proof
end

