-- ==== Sys2Proof/Laws/Memory.lean ====
section
/-! SUPPORT. The laws of TEXT: a write reads back, leaves every other byte, and keeps the canonical form (R57). -/

namespace Sys2Proof.Machine

/-- A listed form that starts above an address reads as nothing there. -/
theorem Memory.read_of_wfFrom {size : Nat} : ∀ (m : List Host.Cell) (lo x : Nat),
    Memory.wfFrom size lo m = true → x < lo → Memory.read m x = textUnlisted
  | [], _, _, _, _ => rfl
  | (a, b) :: m, lo, x, h, hx => by
    simp only [Memory.wfFrom, Bool.and_eq_true, decide_eq_true_eq] at h
    have hne : a ≠ x := by omega
    simp only [Memory.read, if_neg hne]
    exact Memory.read_of_wfFrom m (a + 1) x h.2 (by omega)

/-- A canonical form from `lo` on is one from any lower bound. -/
theorem Memory.wfFrom_mono {size : Nat} (m : List Host.Cell) {lo lo' : Nat} (hl : lo' ≤ lo)
    (h : Memory.wfFrom size lo m = true) : Memory.wfFrom size lo' m = true := by
  cases m with
  | nil => rfl
  | cons c m =>
    simp only [Memory.wfFrom, Bool.and_eq_true, decide_eq_true_eq] at h ⊢
    exact ⟨⟨⟨by omega, h.1.1.2⟩, h.1.2⟩, h.2⟩

/-- A write keeps the canonical form. -/
theorem Memory.write_wfFrom {size : Nat} : ∀ (m : List Host.Cell) (lo x : Nat) (v : Chr),
    Memory.wfFrom size lo m = true → lo ≤ x → x < size → Memory.wfFrom size lo (Memory.write m x v) = true
  | [], lo, x, v, _, hx, hb => by
    unfold Memory.write
    split
    · rfl
    · next hv => simp [Memory.wfFrom, hx, hb, hv]
  | (a, b) :: m, lo, x, v, h, hx, hb => by
    have h' := h
    simp only [Memory.wfFrom, Bool.and_eq_true, decide_eq_true_eq, bne_iff_ne] at h'
    obtain ⟨⟨⟨hlo, ha⟩, hbu⟩, hm⟩ := h'
    unfold Memory.write
    split
    · split
      · exact h
      · next hlt hv =>
        simp only [Memory.wfFrom, Bool.and_eq_true, decide_eq_true_eq, bne_iff_ne]
        exact ⟨⟨⟨hx, hb⟩, hv⟩, ⟨⟨by omega, ha⟩, hbu⟩, hm⟩
    · split
      · next _ heq =>
        subst heq
        split
        · exact Memory.wfFrom_mono m (by omega) hm
        · next hv =>
          simp only [Memory.wfFrom, Bool.and_eq_true, decide_eq_true_eq, bne_iff_ne]
          exact ⟨⟨⟨hx, hb⟩, hv⟩, hm⟩
      · next hlt hne =>
        simp only [Memory.wfFrom, Bool.and_eq_true, decide_eq_true_eq, bne_iff_ne]
        exact ⟨⟨⟨hlo, ha⟩, hbu⟩, Memory.write_wfFrom m (a + 1) x v hm (by omega) hb⟩

/-- Every memory operation keeps the canonical form. -/
theorem Memory.write_wf {size : Nat} (m : List Host.Cell) (x : Nat) (v : Chr) (h : Memory.wf size m = true)
    (hx : x < size) : Memory.wf size (Memory.write m x v) = true :=
  Memory.write_wfFrom m 0 x v h (Nat.zero_le x) hx

/-- In a canonical form, a write reads back and every other byte reads as before. -/
theorem Memory.read_write_from {size : Nat} : ∀ (m : List Host.Cell) (lo x y : Nat) (v : Chr),
    Memory.wfFrom size lo m = true → Memory.read (Memory.write m x v) y = if y = x then v else Memory.read m y
  | [], _, x, y, v, _ => by
    unfold Memory.write
    split
    · next hv => split <;> simp [Memory.read, hv]
    · next hv => simp only [Memory.read]; split <;> split <;> simp_all
  | (a, b) :: m, lo, x, y, v, h => by
    have h' := h
    simp only [Memory.wfFrom, Bool.and_eq_true, decide_eq_true_eq, bne_iff_ne] at h'
    obtain ⟨⟨⟨hlo, ha⟩, hbu⟩, hm⟩ := h'
    unfold Memory.write
    split
    · next hlt =>
      split
      · next hv =>
        split
        · next hy =>
          subst hy
          rw [hv, Memory.read, if_neg (by omega)]
          exact Memory.read_of_wfFrom m (a + 1) y hm (by omega)
        · rfl
      · by_cases hy : y = x
        · subst hy; simp [Memory.read]
        · rw [if_neg hy]; simp only [Memory.read, if_neg (Ne.symm hy)]
    · split
      · next hxa =>
        subst hxa
        split
        · next hv =>
          split
          · next hy =>
            subst hy; rw [hv]
            exact Memory.read_of_wfFrom m (y + 1) y hm (by omega)
          · next hy => rw [Memory.read, if_neg (Ne.symm hy)]
        · by_cases hy : y = x
          · subst hy; simp [Memory.read]
          · rw [if_neg hy]; simp only [Memory.read, if_neg (Ne.symm hy)]
      · next hlt hne =>
        simp only [Memory.read]
        split
        · next hay => rw [if_neg (by omega)]
        · exact Memory.read_write_from m (a + 1) x y v hm

/-! ### The space (R50, R59) -/

theorem textSize_pos (p : Platform) : 0 < textSize p := Nat.two_pow_pos _

theorem textIndex_lt (p : Platform) (a : Nat) : textIndex p a < textSize p := Nat.mod_lt _ (textSize_pos p)

/-- Taking an address modulo the size of TEXT twice, with steps between, is taking it once. -/
theorem textIndex_add (p : Platform) (a j : Nat) : textIndex p (textIndex p a + j) = textIndex p (a + j) :=
  Nat.mod_add_mod _ _ _

@[simp] theorem textIndex_idem (p : Platform) (a : Nat) : textIndex p (textIndex p a) = textIndex p a :=
  Nat.mod_mod _ _

/-- A byte is read at its address in the space. -/
@[simp] theorem textRead_textIndex (s : State) (a : Nat) : textRead s (textIndex s.platform a) = textRead s a := by
  simp [textRead]

/-- What the host's write of one byte can do: it reads back, every other byte reads as before, the canonical form is kept,
and no register changes (R57). -/
theorem textWrite_spec (a : Nat) (b : Chr) (s : State) (h : Memory.wf (textSize s.platform) s.text = true) :
    (∀ x, textRead (textWrite a b s) x =
      if textIndex s.platform x = textIndex s.platform a then b else textRead s x) ∧
    Memory.wf (textSize s.platform) (textWrite a b s).text = true ∧
    textWrite a b s = { s with text := (textWrite a b s).text } :=
  ⟨fun _ => Memory.read_write_from s.text 0 _ _ b h, Memory.write_wf _ _ b h (textIndex_lt _ _), rfl⟩

end Sys2Proof.Machine
end

