-- ==== Sys2Proof/Laws/State.lean ====
section
/-! SUPPORT. One lemma per field of State per update: what the update leaves in the field. -/

namespace Sys2Proof.Machine

variable (s : State)

@[simp] theorem setAlpha_alpha (a : Alpha) : (setAlpha a s).alpha = a := rfl
@[simp] theorem setAlpha_col (a : Alpha) : (setAlpha a s).col = s.col := rfl
@[simp] theorem setAlpha_powerOnSince (a : Alpha) : (setAlpha a s).powerOnSince = s.powerOnSince := rfl
@[simp] theorem setAlpha_shadow (a : Alpha) : (setAlpha a s).shadow = s.shadow := rfl
@[simp] theorem setAlpha_res (a : Alpha) : (setAlpha a s).res = s.res := rfl
@[simp] theorem setAlpha_status (a : Alpha) : (setAlpha a s).status = s.status := rfl
@[simp] theorem setAlpha_cfg (a : Alpha) : (setAlpha a s).cfg = s.cfg := rfl
@[simp] theorem setAlpha_platform (a : Alpha) : (setAlpha a s).platform = s.platform := rfl
@[simp] theorem setAlpha_text (a : Alpha) : (setAlpha a s).text = s.text := rfl
@[simp] theorem setAlpha_clock (a : Alpha) : (setAlpha a s).clock = s.clock := rfl
@[simp] theorem setAlpha_sending (a : Alpha) : (setAlpha a s).sending = s.sending := rfl
@[simp] theorem setAlpha_port (a : Alpha) : (setAlpha a s).port = s.port := rfl
@[simp] theorem setAlpha_kbd (a : Alpha) : (setAlpha a s).kbd = s.kbd := rfl
@[simp] theorem setAlpha_draws (a : Alpha) : (setAlpha a s).draws = s.draws := rfl
@[simp] theorem setAlpha_trace (a : Alpha) : (setAlpha a s).trace = s.trace := rfl
@[simp] theorem setAlpha_samples (a : Alpha) : (setAlpha a s).samples = s.samples := rfl
@[simp] theorem setAlpha_sent (a : Alpha) : (setAlpha a s).sent = s.sent := rfl

@[simp] theorem setCol_alpha (c : Col) : (setCol c s).alpha = s.alpha := rfl
@[simp] theorem setCol_col (c : Col) : (setCol c s).col = c := rfl
@[simp] theorem setCol_powerOnSince (c : Col) : (setCol c s).powerOnSince = s.powerOnSince := rfl
@[simp] theorem setCol_shadow (c : Col) : (setCol c s).shadow = s.shadow := rfl
@[simp] theorem setCol_res (c : Col) : (setCol c s).res = s.res := rfl
@[simp] theorem setCol_status (c : Col) : (setCol c s).status = s.status := rfl
@[simp] theorem setCol_cfg (c : Col) : (setCol c s).cfg = s.cfg := rfl
@[simp] theorem setCol_platform (c : Col) : (setCol c s).platform = s.platform := rfl
@[simp] theorem setCol_text (c : Col) : (setCol c s).text = s.text := rfl
@[simp] theorem setCol_clock (c : Col) : (setCol c s).clock = s.clock := rfl
@[simp] theorem setCol_sending (c : Col) : (setCol c s).sending = s.sending := rfl
@[simp] theorem setCol_port (c : Col) : (setCol c s).port = s.port := rfl
@[simp] theorem setCol_kbd (c : Col) : (setCol c s).kbd = s.kbd := rfl
@[simp] theorem setCol_draws (c : Col) : (setCol c s).draws = s.draws := rfl
@[simp] theorem setCol_trace (c : Col) : (setCol c s).trace = s.trace := rfl
@[simp] theorem setCol_samples (c : Col) : (setCol c s).samples = s.samples := rfl
@[simp] theorem setCol_sent (c : Col) : (setCol c s).sent = s.sent := rfl

@[simp] theorem setPowerOnSince_alpha (p : Option Nat) : (setPowerOnSince p s).alpha = s.alpha := rfl
@[simp] theorem setPowerOnSince_col (p : Option Nat) : (setPowerOnSince p s).col = s.col := rfl
@[simp] theorem setPowerOnSince_powerOnSince (p : Option Nat) : (setPowerOnSince p s).powerOnSince = p := rfl
@[simp] theorem setPowerOnSince_shadow (p : Option Nat) : (setPowerOnSince p s).shadow = s.shadow := rfl
@[simp] theorem setPowerOnSince_res (p : Option Nat) : (setPowerOnSince p s).res = s.res := rfl
@[simp] theorem setPowerOnSince_status (p : Option Nat) : (setPowerOnSince p s).status = s.status := rfl
@[simp] theorem setPowerOnSince_cfg (p : Option Nat) : (setPowerOnSince p s).cfg = s.cfg := rfl
@[simp] theorem setPowerOnSince_platform (p : Option Nat) : (setPowerOnSince p s).platform = s.platform := rfl
@[simp] theorem setPowerOnSince_text (p : Option Nat) : (setPowerOnSince p s).text = s.text := rfl
@[simp] theorem setPowerOnSince_clock (p : Option Nat) : (setPowerOnSince p s).clock = s.clock := rfl
@[simp] theorem setPowerOnSince_sending (p : Option Nat) : (setPowerOnSince p s).sending = s.sending := rfl
@[simp] theorem setPowerOnSince_port (p : Option Nat) : (setPowerOnSince p s).port = s.port := rfl
@[simp] theorem setPowerOnSince_kbd (p : Option Nat) : (setPowerOnSince p s).kbd = s.kbd := rfl
@[simp] theorem setPowerOnSince_draws (p : Option Nat) : (setPowerOnSince p s).draws = s.draws := rfl
@[simp] theorem setPowerOnSince_trace (p : Option Nat) : (setPowerOnSince p s).trace = s.trace := rfl
@[simp] theorem setPowerOnSince_samples (p : Option Nat) : (setPowerOnSince p s).samples = s.samples := rfl
@[simp] theorem setPowerOnSince_sent (p : Option Nat) : (setPowerOnSince p s).sent = s.sent := rfl

@[simp] theorem setRes_alpha (r : BitVec 32) : (setRes r s).alpha = s.alpha := rfl
@[simp] theorem setRes_col (r : BitVec 32) : (setRes r s).col = s.col := rfl
@[simp] theorem setRes_powerOnSince (r : BitVec 32) : (setRes r s).powerOnSince = s.powerOnSince := rfl
@[simp] theorem setRes_shadow (r : BitVec 32) : (setRes r s).shadow = s.shadow := rfl
@[simp] theorem setRes_res (r : BitVec 32) : (setRes r s).res = r := rfl
@[simp] theorem setRes_status (r : BitVec 32) : (setRes r s).status = s.status := rfl
@[simp] theorem setRes_cfg (r : BitVec 32) : (setRes r s).cfg = s.cfg := rfl
@[simp] theorem setRes_platform (r : BitVec 32) : (setRes r s).platform = s.platform := rfl
@[simp] theorem setRes_text (r : BitVec 32) : (setRes r s).text = s.text := rfl
@[simp] theorem setRes_clock (r : BitVec 32) : (setRes r s).clock = s.clock := rfl
@[simp] theorem setRes_sending (r : BitVec 32) : (setRes r s).sending = s.sending := rfl
@[simp] theorem setRes_port (r : BitVec 32) : (setRes r s).port = s.port := rfl
@[simp] theorem setRes_kbd (r : BitVec 32) : (setRes r s).kbd = s.kbd := rfl
@[simp] theorem setRes_draws (r : BitVec 32) : (setRes r s).draws = s.draws := rfl
@[simp] theorem setRes_trace (r : BitVec 32) : (setRes r s).trace = s.trace := rfl
@[simp] theorem setRes_samples (r : BitVec 32) : (setRes r s).samples = s.samples := rfl
@[simp] theorem setRes_sent (r : BitVec 32) : (setRes r s).sent = s.sent := rfl

@[simp] theorem setStatus_alpha (b : BitVec 8) : (setStatus b s).alpha = s.alpha := rfl
@[simp] theorem setStatus_col (b : BitVec 8) : (setStatus b s).col = s.col := rfl
@[simp] theorem setStatus_powerOnSince (b : BitVec 8) : (setStatus b s).powerOnSince = s.powerOnSince := rfl
@[simp] theorem setStatus_shadow (b : BitVec 8) : (setStatus b s).shadow = s.shadow := rfl
@[simp] theorem setStatus_res (b : BitVec 8) : (setStatus b s).res = s.res := rfl
@[simp] theorem setStatus_status (b : BitVec 8) : (setStatus b s).status = b := rfl
@[simp] theorem setStatus_cfg (b : BitVec 8) : (setStatus b s).cfg = s.cfg := rfl
@[simp] theorem setStatus_platform (b : BitVec 8) : (setStatus b s).platform = s.platform := rfl
@[simp] theorem setStatus_text (b : BitVec 8) : (setStatus b s).text = s.text := rfl
@[simp] theorem setStatus_clock (b : BitVec 8) : (setStatus b s).clock = s.clock := rfl
@[simp] theorem setStatus_sending (b : BitVec 8) : (setStatus b s).sending = s.sending := rfl
@[simp] theorem setStatus_port (b : BitVec 8) : (setStatus b s).port = s.port := rfl
@[simp] theorem setStatus_kbd (b : BitVec 8) : (setStatus b s).kbd = s.kbd := rfl
@[simp] theorem setStatus_draws (b : BitVec 8) : (setStatus b s).draws = s.draws := rfl
@[simp] theorem setStatus_trace (b : BitVec 8) : (setStatus b s).trace = s.trace := rfl
@[simp] theorem setStatus_samples (b : BitVec 8) : (setStatus b s).samples = s.samples := rfl
@[simp] theorem setStatus_sent (b : BitVec 8) : (setStatus b s).sent = s.sent := rfl

@[simp] theorem setCfg_alpha (c : Cfg) : (setCfg c s).alpha = s.alpha := rfl
@[simp] theorem setCfg_col (c : Cfg) : (setCfg c s).col = s.col := rfl
@[simp] theorem setCfg_powerOnSince (c : Cfg) : (setCfg c s).powerOnSince = s.powerOnSince := rfl
@[simp] theorem setCfg_shadow (c : Cfg) : (setCfg c s).shadow = s.shadow := rfl
@[simp] theorem setCfg_res (c : Cfg) : (setCfg c s).res = s.res := rfl
@[simp] theorem setCfg_status (c : Cfg) : (setCfg c s).status = s.status := rfl
@[simp] theorem setCfg_cfg (c : Cfg) : (setCfg c s).cfg = c := rfl
@[simp] theorem setCfg_platform (c : Cfg) : (setCfg c s).platform = s.platform := rfl
@[simp] theorem setCfg_text (c : Cfg) : (setCfg c s).text = s.text := rfl
@[simp] theorem setCfg_clock (c : Cfg) : (setCfg c s).clock = s.clock := rfl
@[simp] theorem setCfg_sending (c : Cfg) : (setCfg c s).sending = s.sending := rfl
@[simp] theorem setCfg_port (c : Cfg) : (setCfg c s).port = s.port := rfl
@[simp] theorem setCfg_kbd (c : Cfg) : (setCfg c s).kbd = s.kbd := rfl
@[simp] theorem setCfg_draws (c : Cfg) : (setCfg c s).draws = s.draws := rfl
@[simp] theorem setCfg_trace (c : Cfg) : (setCfg c s).trace = s.trace := rfl
@[simp] theorem setCfg_samples (c : Cfg) : (setCfg c s).samples = s.samples := rfl
@[simp] theorem setCfg_sent (c : Cfg) : (setCfg c s).sent = s.sent := rfl

@[simp] theorem setText_alpha (m : List Host.Cell) : (setText m s).alpha = s.alpha := rfl
@[simp] theorem setText_col (m : List Host.Cell) : (setText m s).col = s.col := rfl
@[simp] theorem setText_powerOnSince (m : List Host.Cell) : (setText m s).powerOnSince = s.powerOnSince := rfl
@[simp] theorem setText_shadow (m : List Host.Cell) : (setText m s).shadow = s.shadow := rfl
@[simp] theorem setText_res (m : List Host.Cell) : (setText m s).res = s.res := rfl
@[simp] theorem setText_status (m : List Host.Cell) : (setText m s).status = s.status := rfl
@[simp] theorem setText_cfg (m : List Host.Cell) : (setText m s).cfg = s.cfg := rfl
@[simp] theorem setText_platform (m : List Host.Cell) : (setText m s).platform = s.platform := rfl
@[simp] theorem setText_text (m : List Host.Cell) : (setText m s).text = m := rfl
@[simp] theorem setText_clock (m : List Host.Cell) : (setText m s).clock = s.clock := rfl
@[simp] theorem setText_sending (m : List Host.Cell) : (setText m s).sending = s.sending := rfl
@[simp] theorem setText_port (m : List Host.Cell) : (setText m s).port = s.port := rfl
@[simp] theorem setText_kbd (m : List Host.Cell) : (setText m s).kbd = s.kbd := rfl
@[simp] theorem setText_draws (m : List Host.Cell) : (setText m s).draws = s.draws := rfl
@[simp] theorem setText_trace (m : List Host.Cell) : (setText m s).trace = s.trace := rfl
@[simp] theorem setText_samples (m : List Host.Cell) : (setText m s).samples = s.samples := rfl
@[simp] theorem setText_sent (m : List Host.Cell) : (setText m s).sent = s.sent := rfl

@[simp] theorem setClock_alpha (t : Nat) : (setClock t s).alpha = s.alpha := rfl
@[simp] theorem setClock_col (t : Nat) : (setClock t s).col = s.col := rfl
@[simp] theorem setClock_powerOnSince (t : Nat) : (setClock t s).powerOnSince = s.powerOnSince := rfl
@[simp] theorem setClock_shadow (t : Nat) : (setClock t s).shadow = s.shadow := rfl
@[simp] theorem setClock_res (t : Nat) : (setClock t s).res = s.res := rfl
@[simp] theorem setClock_status (t : Nat) : (setClock t s).status = s.status := rfl
@[simp] theorem setClock_cfg (t : Nat) : (setClock t s).cfg = s.cfg := rfl
@[simp] theorem setClock_platform (t : Nat) : (setClock t s).platform = s.platform := rfl
@[simp] theorem setClock_text (t : Nat) : (setClock t s).text = s.text := rfl
@[simp] theorem setClock_clock (t : Nat) : (setClock t s).clock = t := rfl
@[simp] theorem setClock_sending (t : Nat) : (setClock t s).sending = s.sending := rfl
@[simp] theorem setClock_port (t : Nat) : (setClock t s).port = s.port := rfl
@[simp] theorem setClock_kbd (t : Nat) : (setClock t s).kbd = s.kbd := rfl
@[simp] theorem setClock_draws (t : Nat) : (setClock t s).draws = s.draws := rfl
@[simp] theorem setClock_trace (t : Nat) : (setClock t s).trace = s.trace := rfl
@[simp] theorem setClock_samples (t : Nat) : (setClock t s).samples = s.samples := rfl
@[simp] theorem setClock_sent (t : Nat) : (setClock t s).sent = s.sent := rfl

@[simp] theorem setSending_alpha (p : Option StringSend) : (setSending p s).alpha = s.alpha := rfl
@[simp] theorem setSending_col (p : Option StringSend) : (setSending p s).col = s.col := rfl
@[simp] theorem setSending_powerOnSince (p : Option StringSend) : (setSending p s).powerOnSince = s.powerOnSince := rfl
@[simp] theorem setSending_shadow (p : Option StringSend) : (setSending p s).shadow = s.shadow := rfl
@[simp] theorem setSending_res (p : Option StringSend) : (setSending p s).res = s.res := rfl
@[simp] theorem setSending_status (p : Option StringSend) : (setSending p s).status = s.status := rfl
@[simp] theorem setSending_cfg (p : Option StringSend) : (setSending p s).cfg = s.cfg := rfl
@[simp] theorem setSending_platform (p : Option StringSend) : (setSending p s).platform = s.platform := rfl
@[simp] theorem setSending_text (p : Option StringSend) : (setSending p s).text = s.text := rfl
@[simp] theorem setSending_clock (p : Option StringSend) : (setSending p s).clock = s.clock := rfl
@[simp] theorem setSending_sending (p : Option StringSend) : (setSending p s).sending = p := rfl
@[simp] theorem setSending_port (p : Option StringSend) : (setSending p s).port = s.port := rfl
@[simp] theorem setSending_kbd (p : Option StringSend) : (setSending p s).kbd = s.kbd := rfl
@[simp] theorem setSending_draws (p : Option StringSend) : (setSending p s).draws = s.draws := rfl
@[simp] theorem setSending_trace (p : Option StringSend) : (setSending p s).trace = s.trace := rfl
@[simp] theorem setSending_samples (p : Option StringSend) : (setSending p s).samples = s.samples := rfl
@[simp] theorem setSending_sent (p : Option StringSend) : (setSending p s).sent = s.sent := rfl

@[simp] theorem setPort_alpha (es : List HostEvent) : (setPort es s).alpha = s.alpha := rfl
@[simp] theorem setPort_col (es : List HostEvent) : (setPort es s).col = s.col := rfl
@[simp] theorem setPort_powerOnSince (es : List HostEvent) : (setPort es s).powerOnSince = s.powerOnSince := rfl
@[simp] theorem setPort_shadow (es : List HostEvent) : (setPort es s).shadow = s.shadow := rfl
@[simp] theorem setPort_res (es : List HostEvent) : (setPort es s).res = s.res := rfl
@[simp] theorem setPort_status (es : List HostEvent) : (setPort es s).status = s.status := rfl
@[simp] theorem setPort_cfg (es : List HostEvent) : (setPort es s).cfg = s.cfg := rfl
@[simp] theorem setPort_platform (es : List HostEvent) : (setPort es s).platform = s.platform := rfl
@[simp] theorem setPort_text (es : List HostEvent) : (setPort es s).text = s.text := rfl
@[simp] theorem setPort_clock (es : List HostEvent) : (setPort es s).clock = s.clock := rfl
@[simp] theorem setPort_sending (es : List HostEvent) : (setPort es s).sending = s.sending := rfl
@[simp] theorem setPort_port (es : List HostEvent) : (setPort es s).port = es := rfl
@[simp] theorem setPort_kbd (es : List HostEvent) : (setPort es s).kbd = s.kbd := rfl
@[simp] theorem setPort_draws (es : List HostEvent) : (setPort es s).draws = s.draws := rfl
@[simp] theorem setPort_trace (es : List HostEvent) : (setPort es s).trace = s.trace := rfl
@[simp] theorem setPort_samples (es : List HostEvent) : (setPort es s).samples = s.samples := rfl
@[simp] theorem setPort_sent (es : List HostEvent) : (setPort es s).sent = s.sent := rfl

@[simp] theorem logSent_alpha (sym : Sym) : (logSent sym s).alpha = s.alpha := rfl
@[simp] theorem logSent_col (sym : Sym) : (logSent sym s).col = s.col := rfl
@[simp] theorem logSent_powerOnSince (sym : Sym) : (logSent sym s).powerOnSince = s.powerOnSince := rfl
@[simp] theorem logSent_shadow (sym : Sym) : (logSent sym s).shadow = s.shadow := rfl
@[simp] theorem logSent_res (sym : Sym) : (logSent sym s).res = s.res := rfl
@[simp] theorem logSent_status (sym : Sym) : (logSent sym s).status = s.status := rfl
@[simp] theorem logSent_cfg (sym : Sym) : (logSent sym s).cfg = s.cfg := rfl
@[simp] theorem logSent_platform (sym : Sym) : (logSent sym s).platform = s.platform := rfl
@[simp] theorem logSent_text (sym : Sym) : (logSent sym s).text = s.text := rfl
@[simp] theorem logSent_clock (sym : Sym) : (logSent sym s).clock = s.clock := rfl
@[simp] theorem logSent_sending (sym : Sym) : (logSent sym s).sending = s.sending := rfl
@[simp] theorem logSent_port (sym : Sym) : (logSent sym s).port = s.port := rfl
@[simp] theorem logSent_kbd (sym : Sym) : (logSent sym s).kbd = s.kbd := rfl
@[simp] theorem logSent_draws (sym : Sym) : (logSent sym s).draws = s.draws := rfl
@[simp] theorem logSent_trace (sym : Sym) : (logSent sym s).trace = s.trace := rfl
@[simp] theorem logSent_samples (sym : Sym) : (logSent sym s).samples = s.samples := rfl
@[simp] theorem logSent_sent (sym : Sym) : (logSent sym s).sent = s.sent ++ [sym] := rfl

@[simp] theorem sleep_alpha (d : Nat) : (sleep d s).alpha = s.alpha := rfl
@[simp] theorem sleep_col (d : Nat) : (sleep d s).col = s.col := rfl
@[simp] theorem sleep_powerOnSince (d : Nat) : (sleep d s).powerOnSince = s.powerOnSince := rfl
@[simp] theorem sleep_shadow (d : Nat) : (sleep d s).shadow = s.shadow := rfl
@[simp] theorem sleep_res (d : Nat) : (sleep d s).res = s.res := rfl
@[simp] theorem sleep_status (d : Nat) : (sleep d s).status = s.status := rfl
@[simp] theorem sleep_cfg (d : Nat) : (sleep d s).cfg = s.cfg := rfl
@[simp] theorem sleep_platform (d : Nat) : (sleep d s).platform = s.platform := rfl
@[simp] theorem sleep_text (d : Nat) : (sleep d s).text = s.text := rfl
@[simp] theorem sleep_clock (d : Nat) : (sleep d s).clock = advance s.platform s.clock (d + sleepExcess s) := rfl
@[simp] theorem sleep_sending (d : Nat) : (sleep d s).sending = s.sending := rfl
@[simp] theorem sleep_port (d : Nat) : (sleep d s).port = s.port := rfl
@[simp] theorem sleep_kbd (d : Nat) : (sleep d s).kbd = s.kbd := rfl
@[simp] theorem sleep_draws (d : Nat) : (sleep d s).draws = s.draws + 1 := rfl
@[simp] theorem sleep_trace (d : Nat) : (sleep d s).trace = s.trace := rfl
@[simp] theorem sleep_samples (d : Nat) : (sleep d s).samples = s.samples := rfl
@[simp] theorem sleep_sent (d : Nat) : (sleep d s).sent = s.sent := rfl

@[simp] theorem lineCommand_alpha (n : LineNo) (v : Bool) : (lineCommand n v s).alpha = s.alpha := rfl
@[simp] theorem lineCommand_col (n : LineNo) (v : Bool) : (lineCommand n v s).col = s.col := rfl
@[simp] theorem lineCommand_powerOnSince (n : LineNo) (v : Bool) : (lineCommand n v s).powerOnSince = s.powerOnSince := rfl
@[simp] theorem lineCommand_shadow (n : LineNo) (v : Bool) : (lineCommand n v s).shadow = shadowPut n v s.shadow := rfl
@[simp] theorem lineCommand_res (n : LineNo) (v : Bool) : (lineCommand n v s).res = s.res := rfl
@[simp] theorem lineCommand_status (n : LineNo) (v : Bool) : (lineCommand n v s).status = s.status := rfl
@[simp] theorem lineCommand_cfg (n : LineNo) (v : Bool) : (lineCommand n v s).cfg = s.cfg := rfl
@[simp] theorem lineCommand_platform (n : LineNo) (v : Bool) : (lineCommand n v s).platform = s.platform := rfl
@[simp] theorem lineCommand_text (n : LineNo) (v : Bool) : (lineCommand n v s).text = s.text := rfl
@[simp] theorem lineCommand_clock (n : LineNo) (v : Bool) : (lineCommand n v s).clock = s.clock := rfl
@[simp] theorem lineCommand_sending (n : LineNo) (v : Bool) : (lineCommand n v s).sending = s.sending := rfl
@[simp] theorem lineCommand_port (n : LineNo) (v : Bool) : (lineCommand n v s).port = s.port := rfl
@[simp] theorem lineCommand_kbd (n : LineNo) (v : Bool) : (lineCommand n v s).kbd = s.kbd := rfl
@[simp] theorem lineCommand_draws (n : LineNo) (v : Bool) : (lineCommand n v s).draws = s.draws := rfl
@[simp] theorem lineCommand_trace (n : LineNo) (v : Bool) : (lineCommand n v s).trace = s.trace ++ [⟨n, v, s.clock⟩] := rfl
@[simp] theorem lineCommand_samples (n : LineNo) (v : Bool) : (lineCommand n v s).samples = s.samples := rfl
@[simp] theorem lineCommand_sent (n : LineNo) (v : Bool) : (lineCommand n v s).sent = s.sent := rfl

@[simp] theorem lineGet_alpha (n : LineNo) : (lineGet n s).alpha = s.alpha := rfl
@[simp] theorem lineGet_col (n : LineNo) : (lineGet n s).col = s.col := rfl
@[simp] theorem lineGet_powerOnSince (n : LineNo) : (lineGet n s).powerOnSince = s.powerOnSince := rfl
@[simp] theorem lineGet_shadow (n : LineNo) : (lineGet n s).shadow = s.shadow := rfl
@[simp] theorem lineGet_res (n : LineNo) : (lineGet n s).res = s.res := rfl
@[simp] theorem lineGet_status (n : LineNo) : (lineGet n s).status = s.status := rfl
@[simp] theorem lineGet_cfg (n : LineNo) : (lineGet n s).cfg = s.cfg := rfl
@[simp] theorem lineGet_platform (n : LineNo) : (lineGet n s).platform = s.platform := rfl
@[simp] theorem lineGet_text (n : LineNo) : (lineGet n s).text = s.text := rfl
@[simp] theorem lineGet_clock (n : LineNo) : (lineGet n s).clock = s.clock := rfl
@[simp] theorem lineGet_sending (n : LineNo) : (lineGet n s).sending = s.sending := rfl
@[simp] theorem lineGet_port (n : LineNo) : (lineGet n s).port = s.port := rfl
@[simp] theorem lineGet_kbd (n : LineNo) : (lineGet n s).kbd = s.kbd.tail := rfl
@[simp] theorem lineGet_draws (n : LineNo) : (lineGet n s).draws = s.draws + 1 := rfl
@[simp] theorem lineGet_trace (n : LineNo) : (lineGet n s).trace = s.trace := rfl
@[simp] theorem lineGet_samples (n : LineNo) : (lineGet n s).samples = s.samples ++ [⟨n, lineLevel n s, s.clock⟩] := rfl
@[simp] theorem lineGet_sent (n : LineNo) : (lineGet n s).sent = s.sent := rfl

@[simp] theorem blankDevice_alpha : (blankDevice s).alpha = .unknown := rfl
@[simp] theorem blankDevice_col : (blankDevice s).col = 0 := rfl
@[simp] theorem blankDevice_powerOnSince : (blankDevice s).powerOnSince = none := rfl
@[simp] theorem blankDevice_shadow : (blankDevice s).shadow = 0 := rfl
@[simp] theorem blankDevice_res : (blankDevice s).res = 0 := rfl
@[simp] theorem blankDevice_status : (blankDevice s).status = 0 := rfl
@[simp] theorem blankDevice_cfg : (blankDevice s).cfg = s.cfg := rfl
@[simp] theorem blankDevice_platform : (blankDevice s).platform = s.platform := rfl
@[simp] theorem blankDevice_text : (blankDevice s).text = s.text := rfl
@[simp] theorem blankDevice_clock : (blankDevice s).clock = s.clock := rfl
@[simp] theorem blankDevice_sending : (blankDevice s).sending = none := rfl
@[simp] theorem blankDevice_port : (blankDevice s).port = s.port := rfl
@[simp] theorem blankDevice_kbd : (blankDevice s).kbd = s.kbd := rfl
@[simp] theorem blankDevice_draws : (blankDevice s).draws = s.draws := rfl
@[simp] theorem blankDevice_trace : (blankDevice s).trace = [] := rfl
@[simp] theorem blankDevice_samples : (blankDevice s).samples = [] := rfl
@[simp] theorem blankDevice_sent : (blankDevice s).sent = [] := rfl

end Sys2Proof.Machine
end

