-- ==== Sys2Proof/Laws/Ops.lean ====
section
/-! SUPPORT. For each shared operation, what it can do, said once: what it leaves alone, how it moves the clock, and
which lines it commands. -/

namespace Sys2Proof.Machine

/-! ### Derived readings that depend on few fields -/

theorem textRead_congr {s t : State} (h : t.text = s.text) (hp : t.platform = s.platform) (a : Nat) :
    textRead t a = textRead s a := by
  simp only [textRead, h, hp]

theorem powered_eq (s : State) : powered s = s.powerOnSince.isSome := rfl

/-! ### Lines: what a list of commands does to SHADOW and to the pins -/

/-- SHADOW after a list of line commands. -/
def applyCommands (cmds : List LineEvent) (m : LineMask) : LineMask :=
  cmds.foldl (fun m e => shadowPut e.line e.level m) m

/-- From `s` to `t` exactly the commands `cmds` were given to the lines. -/
def Commands (cmds : List LineEvent) (s t : State) : Prop :=
  t.trace = s.trace ++ cmds ∧ t.shadow = applyCommands cmds s.shadow

theorem Commands.refl {s t : State} (ht : t.trace = s.trace) (hs : t.shadow = s.shadow) : Commands [] s t := by
  simp [Commands, applyCommands, ht, hs]

theorem Commands.trans {a b : List LineEvent} {s t u : State} (h : Commands a s t) (h' : Commands b t u) :
    Commands (a ++ b) s u := by
  obtain ⟨h1, h2⟩ := h
  obtain ⟨h3, h4⟩ := h'
  exact ⟨by rw [h3, h1, List.append_assoc], by rw [h4, h2]; simp [applyCommands, List.foldl_append]⟩

theorem Commands.congr {a : List LineEvent} {s t u : State} (h : Commands a s t)
    (ht : u.trace = t.trace) (hs : u.shadow = t.shadow) : Commands a s u :=
  ⟨ht.trans h.1, hs.trans h.2⟩

theorem lineCommand_commands (n : LineNo) (v : Bool) (s : State) :
    Commands [⟨n, v, s.clock⟩] s (lineCommand n v s) := ⟨rfl, rfl⟩

/-- One SHADOW bit after a command (R24, R53, R54). -/
theorem shadowPut_getLsbD (n j : LineNo) (v : Bool) (m : LineMask) :
    (shadowPut n v m).getLsbD j.toNat = if j = n then v else m.getLsbD j.toNat := by
  have hj : j.toNat < maxLines := j.isLt
  have hb : (1#maxLines <<< n.toNat).getLsbD j.toNat = decide (j = n) := by
    rw [BitVec.getLsbD_shiftLeft]
    by_cases h : j = n
    · subst h; simp [hj]
    · have hne : j.toNat ≠ n.toNat := fun e => h (BitVec.eq_of_toNat_eq e)
      simp only [h, decide_false, Bool.and_eq_false_iff, BitVec.getLsbD_one]
      by_cases hlt : j.toNat < n.toNat
      · left; simp [hlt]
      · right; simp; omega
  unfold shadowPut
  cases v
  · rw [if_neg (by decide), BitVec.getLsbD_and, BitVec.getLsbD_not, hb]
    by_cases h : j = n <;> simp [h, hj]
  · rw [if_pos rfl, BitVec.getLsbD_or, hb]
    by_cases h : j = n <;> simp [h]

theorem lastLevel_append (n : LineNo) (tr : List LineEvent) (e : LineEvent) :
    lastLevel n (tr ++ [e]) = if e.line = n then some e.level else lastLevel n tr := by
  unfold lastLevel
  by_cases h : e.line = n <;> simp [h]

/-- The last command to a line decides its SHADOW bit and its pin; a line without one keeps both. -/
theorem commands_bits (n : LineNo) (cmds : List LineEvent) : ∀ (m : LineMask) (tr : List LineEvent),
    ((applyCommands cmds m).getLsbD n.toNat = m.getLsbD n.toNat ∧ lastLevel n (tr ++ cmds) = lastLevel n tr ∧
      lastLevel n cmds = none) ∨
    ∃ v, (applyCommands cmds m).getLsbD n.toNat = v ∧ lastLevel n (tr ++ cmds) = some v ∧ lastLevel n cmds = some v := by
  induction cmds using List.reverseRecOn with
  | nil => intro m tr; left; simp [applyCommands, lastLevel]
  | append_singleton cs e ih =>
    intro m tr
    rw [← List.append_assoc, lastLevel_append, lastLevel_append]
    have ha : applyCommands (cs ++ [e]) m = shadowPut e.line e.level (applyCommands cs m) := by
      simp [applyCommands, List.foldl_append]
    rw [ha, shadowPut_getLsbD]
    by_cases h : e.line = n
    · right; exact ⟨e.level, by simp [h]⟩
    · have h' : ¬ n = e.line := fun x => h x.symm
      simp only [if_neg h, if_neg h']
      exact ih m tr

theorem lastLevel_none_of_not_mem (n : LineNo) (cmds : List LineEvent) (h : ∀ e ∈ cmds, e.line ≠ n) :
    lastLevel n cmds = none := by
  have : cmds.reverse.find? (fun e => e.line == n) = none := by
    rw [List.find?_eq_none]
    intro e he
    simpa using h e (List.mem_reverse.mp he)
  simp [lastLevel, this]

/-- A line that no command names keeps its SHADOW bit and its pin. -/
theorem Commands.keepsOther {cmds : List LineEvent} {s t : State} (h : Commands cmds s t) (n : LineNo)
    (hn : ∀ e ∈ cmds, e.line ≠ n) :
    t.shadow.getLsbD n.toNat = s.shadow.getLsbD n.toNat ∧ pinLevel n t = pinLevel n s := by
  have hl := lastLevel_none_of_not_mem n cmds hn
  obtain ⟨ht, hs⟩ := h
  unfold pinLevel
  rw [ht, hs]
  rcases commands_bits n cmds s.shadow s.trace with ⟨h1, h2, _⟩ | ⟨v, _, _, h3⟩
  · exact ⟨h1, h2⟩
  · rw [hl] at h3; cases h3

/-- Line commands keep SHADOW a mirror of the pins (R25 I-C). -/
theorem Commands.mirrors {cmds : List LineEvent} {s t : State} (h : Commands cmds s t) (n : LineNo)
    (hm : s.shadow.getLsbD n.toNat = (pinLevel n s).getD false) :
    t.shadow.getLsbD n.toNat = (pinLevel n t).getD false := by
  obtain ⟨ht, hs⟩ := h
  unfold pinLevel at hm ⊢
  rw [ht, hs]
  rcases commands_bits n cmds s.shadow s.trace with ⟨h1, h2, _⟩ | ⟨v, h1, h2, _⟩
  · rw [h1, h2, hm]
  · rw [h1, h2]; rfl

/-! ### What an operation leaves alone -/

/-- Everything that neither the transmitter nor the power controller writes. -/
structure Quiet (s t : State) : Prop where
  alpha : t.alpha = s.alpha
  col : t.col = s.col
  res : t.res = s.res
  status : t.status = s.status
  cfg : t.cfg = s.cfg
  platform : t.platform = s.platform
  text : t.text = s.text
  sending : t.sending = s.sending
  port : t.port = s.port
  kbd : t.kbd = s.kbd
  samples : t.samples = s.samples

theorem Quiet.refl (s : State) : Quiet s s := ⟨rfl, rfl, rfl, rfl, rfl, rfl, rfl, rfl, rfl, rfl, rfl⟩

theorem Quiet.trans {s t u : State} (h : Quiet s t) (h' : Quiet t u) : Quiet s u :=
  ⟨h'.alpha.trans h.alpha, h'.col.trans h.col, h'.res.trans h.res, h'.status.trans h.status, h'.cfg.trans h.cfg,
   h'.platform.trans h.platform,
   h'.text.trans h.text, h'.sending.trans h.sending, h'.port.trans h.port, h'.kbd.trans h.kbd, h'.samples.trans h.samples⟩

theorem sleep_quiet (d : Nat) (s : State) : Quiet s (sleep d s) :=
  ⟨rfl, rfl, rfl, rfl, rfl, rfl, rfl, rfl, rfl, rfl, rfl⟩

theorem lineCommand_quiet (n : LineNo) (v : Bool) (s : State) : Quiet s (lineCommand n v s) :=
  ⟨rfl, rfl, rfl, rfl, rfl, rfl, rfl, rfl, rfl, rfl, rfl⟩

theorem setPowerOnSince_quiet (p : Option Nat) (s : State) : Quiet s (setPowerOnSince p s) :=
  ⟨rfl, rfl, rfl, rfl, rfl, rfl, rfl, rfl, rfl, rfl, rfl⟩

theorem logSent_quiet (sym : Sym) (s : State) : Quiet s (logSent sym s) :=
  ⟨rfl, rfl, rfl, rfl, rfl, rfl, rfl, rfl, rfl, rfl, rfl⟩

/-! ### The clock -/

variable {p : Platform}

theorem clockEnd_pos (p : Platform) : 0 < clockEnd p := Nat.two_pow_pos _

/-- An advance that ends before the clock's end is a sum (R190). -/
theorem advance_eq {t : Nat} {d : Nat} (h : t + d < clockEnd p) : advance p t d = t + d := if_pos h

/-- Whatever the sum, the clock stays TS_BITS wide (R190). -/
theorem advance_lt (p : Platform) (t : Nat) (d : Nat) : advance p t d < clockEnd p := by
  unfold advance
  split
  · assumption
  · exact Nat.mod_lt _ (clockEnd_pos p)

/-- Exact time asks for the configuration, the platform and the clock alone. -/
theorem ExactTime.congr {s t : State} {a b : Nat} (h : ExactTime s a) (hc : t.cfg = s.cfg)
    (hp : t.platform = s.platform) (hb : t.clock + b ≤ s.clock + a) : ExactTime t b :=
  ⟨by rw [hc]; exact h.1, by rw [hp]; exact Nat.lt_of_le_of_lt hb h.2⟩

/-- A Sleep leaves a TS_BITS-wide clock (R190). -/
theorem sleep_clock_lt (d : Nat) (s : State) : (sleep d s).clock < clockEnd s.platform := advance_lt _ _ _

/-- A Sleep's excess is at most SLEEP_JITTER (R62). -/
theorem sleepExcess_le (s : State) : sleepExcess s ≤ s.cfg.sleepJitter := by
  unfold sleepExcess
  split
  · omega
  · exact Nat.lt_succ_iff.mp (Nat.mod_lt _ (Nat.succ_pos _))

/-- One Sleep lasts its length and at most SLEEP_JITTER more, while the clock does not pass its end (R62, R190). -/
theorem sleep_slept {d : Nat} {s : State} (h : FitsClock s d 1) :
    Slept s.cfg.sleepJitter 1 d s.clock (sleep d s).clock := by
  have hx := sleepExcess_le s
  unfold FitsClock at h
  have e : (sleep d s).clock = s.clock + (d + sleepExcess s) := advance_eq (by omega)
  rw [e]
  constructor <;> omega

/-! ### How long several Sleeps take -/

theorem Slept.refl (j a : Nat) : Slept j 0 0 a a := ⟨by omega, by omega⟩

theorem Slept.trans {j m n d e a b c : Nat} (h : Slept j m d a b) (h' : Slept j n e b c) :
    Slept j (m + n) (d + e) a c := by
  obtain ⟨h1, h2⟩ := h
  obtain ⟨h3, h4⟩ := h'
  refine ⟨by omega, ?_⟩
  rw [Nat.add_mul]
  omega

/-- Without jitter Sleeps are exact (R62). -/
theorem Slept.exact {n d a b : Nat} (h : Slept 0 n d a b) : b = a + d := by
  obtain ⟨h1, h2⟩ := h
  omega

theorem Slept.of_eq {j m n d e a b : Nat} (h : Slept j m d a b) (hn : m = n) (hd : d = e) : Slept j n e a b :=
  hn ▸ hd ▸ h

/-- Exact time is room for any number of Sleeps. -/
theorem ExactTime.fits {s : State} {d : Nat} (h : ExactTime s d) (n : Nat) : FitsClock s d n := by
  unfold FitsClock
  rw [h.1]
  exact h.2

/-- After some of the Sleeps there is room for the others. -/
theorem FitsClock.after {s t : State} {d e d' m n n' : Nat} (h : FitsClock s d n)
    (hs : Slept s.cfg.sleepJitter m e s.clock t.clock) (hc : t.cfg = s.cfg) (hp : t.platform = s.platform)
    (hd : e + d' ≤ d) (hn : m + n' ≤ n) : FitsClock t d' n' := by
  unfold FitsClock at h ⊢
  have := Nat.mul_le_mul_right s.cfg.sleepJitter hn
  rw [Nat.add_mul] at this
  rw [hc, hp]
  obtain ⟨-, h2⟩ := hs
  omega

theorem FitsClock.mono {s : State} {d d' n n' : Nat} (h : FitsClock s d n) (hd : d' ≤ d) (hn : n' ≤ n) :
    FitsClock s d' n' :=
  h.after (Slept.refl _ _) rfl rfl (by omega) (by omega)

/-- Waits one after the other take their lengths, one Sleep each. -/
theorem Paced.slept {j : Nat} : ∀ {ds ts : List Nat} {a z : Nat}, Paced j a ds ts z → Slept j ds.length ds.sum a z
  | [], [], _, _, h => h ▸ Slept.refl j _
  | d :: ds, _ :: ts, a, z, ⟨_, b, h, h'⟩ => by
    have := h.trans h'.slept
    rwa [Nat.add_comm, ← List.length_cons (a := d), ← List.sum_cons] at this
  | [], _ :: _, _, _, h => h.elim
  | _ :: _, [], _, _, h => h.elim

theorem Paced.append {j : Nat} {es us : List Nat} {b z : Nat} (h' : Paced j b es us z) :
    ∀ {ds ts : List Nat} {a : Nat}, Paced j a ds ts b → Paced j a (ds ++ es) (ts ++ us) z
  | [], [], _, h => h ▸ h'
  | _ :: _, _ :: _, _, ⟨h1, c, h2, h3⟩ => ⟨h1, c, h2, Paced.append h' h3⟩
  | [], _ :: _, _, h => h.elim
  | _ :: _, [], _, h => h.elim

/-- The instants, from `o` on, at which waits of the given lengths begin when Sleeps are exact. -/
def offsets : Nat → List Nat → List Nat
  | _, [] => []
  | o, d :: ds => o :: offsets (o + d) ds

theorem offsets_append : ∀ (ds es : List Nat) (o : Nat), offsets o (ds ++ es) = offsets o ds ++ offsets (o + ds.sum) es
  | [], _, _ => rfl
  | d :: ds, es, o => by
    rw [List.cons_append, offsets, offsets, offsets_append, List.cons_append, List.sum_cons, Nat.add_assoc]

/-- Without jitter the instants are fixed (R62). -/
theorem Paced.exact : ∀ {ds ts : List Nat} {a z : Nat}, Paced 0 a ds ts z → ts = offsets a ds ∧ z = a + ds.sum
  | [], [], _, _, h => ⟨rfl, h.symm⟩
  | d :: ds, t :: ts, a, z, ⟨h1, b, h2, h3⟩ => by
    have hb := h2.exact
    obtain ⟨e1, e2⟩ := h3.exact
    subst h1 hb
    exact ⟨by rw [e1]; rfl, by rw [e2, List.sum_cons, Nat.add_assoc]⟩
  | [], _ :: _, _, _, h => h.elim
  | _ :: _, [], _, _, h => h.elim

/-- Line commands are their lines and levels, and their times. -/
theorem lineEvents_ext : ∀ {es us : List LineEvent}, es.map LineEvent.command = us.map LineEvent.command →
    es.map (·.time) = us.map (·.time) → es = us
  | [], [], _, _ => rfl
  | ⟨n, v, t⟩ :: es, ⟨n', v', t'⟩ :: us, h, h' => by
    simp only [List.map_cons, List.cons.injEq, LineEvent.command, Prod.mk.injEq] at h h'
    obtain ⟨⟨rfl, rfl⟩, h⟩ := h
    obtain ⟨rfl, h'⟩ := h'
    rw [lineEvents_ext h h']
  | [], _ :: _, h, _ => by cases h
  | _ :: _, [], h, _ => by cases h

/-! ### The shared operations -/

/-- One slot (R77). -/
theorem slot_spec (v : Bool) (d : Nat) (s : State) :
    Quiet s (slot v d s) ∧ (slot v d s).sent = s.sent ∧ (slot v d s).powerOnSince = s.powerOnSince ∧
    Commands [⟨s.cfg.wrLine, v, s.clock⟩] s (slot v d s) ∧
    (FitsClock s d 1 → Slept s.cfg.sleepJitter 1 d s.clock (slot v d s).clock) :=
  ⟨(lineCommand_quiet _ _ _).trans (sleep_quiet _ _), rfl, rfl, ⟨rfl, rfl⟩,
   fun h => sleep_slept (s := lineCommand _ _ s) h⟩

/-- Slots one after the other (R77): a command to the writer line for each, at the instants that the waits fix. -/
theorem slots_spec : ∀ (l : List (Bool × Nat)) (s : State),
    Quiet s (l.foldl (fun s p => slot p.1 p.2 s) s) ∧
    (l.foldl (fun s p => slot p.1 p.2 s) s).sent = s.sent ∧
    (l.foldl (fun s p => slot p.1 p.2 s) s).powerOnSince = s.powerOnSince ∧
    ∃ es, Commands es s (l.foldl (fun s p => slot p.1 p.2 s) s) ∧
      es.map LineEvent.command = l.map (fun p => (s.cfg.wrLine, p.1)) ∧
      (FitsClock s (l.map (·.2)).sum l.length →
        Paced s.cfg.sleepJitter s.clock (l.map (·.2)) (es.map (·.time)) (l.foldl (fun s p => slot p.1 p.2 s) s).clock)
  | [], s => ⟨Quiet.refl s, rfl, rfl, [], Commands.refl rfl rfl, rfl, fun _ => rfl⟩
  | (v, d) :: l, s => by
    obtain ⟨q, h1, h2, c, ht⟩ := slot_spec v d s
    obtain ⟨q', h1', h2', es, c', hm, ht'⟩ := slots_spec l (slot v d s)
    refine ⟨q.trans q', h1'.trans h1, h2'.trans h2, ⟨s.cfg.wrLine, v, s.clock⟩ :: es, c.trans c', ?_, fun hf => ?_⟩
    · rw [List.map_cons, hm, q.cfg]; rfl
    · rw [List.map_cons, List.sum_cons, List.length_cons] at hf
      have hs := ht (hf.mono (by omega) (by omega))
      have := ht' (hf.after hs q.cfg q.platform (by omega) (by omega))
      rw [q.cfg] at this
      exact ⟨rfl, _, hs, this⟩

/-- SetPower (R161). -/
theorem setPower_spec (on : Bool) (s : State) :
    Quiet s (setPower on s) ∧ (setPower on s).sent = s.sent ∧
    (setPower on s).powerOnSince = (if on then some s.clock else none) ∧
    Commands [⟨s.cfg.pwrLine, on == s.cfg.powerOnLevel, s.clock⟩] s (setPower on s) ∧
    (FitsClock s (if on then s.cfg.tWarmup else s.cfg.tCooldown) 1 →
      Slept s.cfg.sleepJitter 1 (if on then s.cfg.tWarmup else s.cfg.tCooldown) s.clock (setPower on s).clock) := by
  cases on
  · refine ⟨⟨rfl, rfl, rfl, rfl, rfl, rfl, rfl, rfl, rfl, rfl, rfl⟩, rfl, rfl, ?_,
      fun h => sleep_slept (s := setPowerOnSince none (lineCommand _ _ s)) h⟩
    have : (false == s.cfg.powerOnLevel) = !s.cfg.powerOnLevel := by cases s.cfg.powerOnLevel <;> rfl
    rw [this]
    exact ⟨rfl, rfl⟩
  · refine ⟨⟨rfl, rfl, rfl, rfl, rfl, rfl, rfl, rfl, rfl, rfl, rfl⟩, rfl, rfl, ?_,
      fun h => sleep_slept (s := setPowerOnSince (some _) (lineCommand _ _ s)) h⟩
    have : (true == s.cfg.powerOnLevel) = s.cfg.powerOnLevel := by cases s.cfg.powerOnLevel <;> rfl
    rw [this]
    exact ⟨rfl, rfl⟩

/-- The auto power-on (R142). -/
theorem autoPowerOn_spec (s : State) :
    Quiet s (autoPowerOn s) ∧ (autoPowerOn s).sent = s.sent ∧
    (autoPowerOn s).powerOnSince = (if powered s then s.powerOnSince else some s.clock) ∧
    Commands (powerOnCommands s) s (autoPowerOn s) ∧
    (FitsClock s (powerOnDelay s) (powerOnSleeps s) →
      Slept s.cfg.sleepJitter (powerOnSleeps s) (powerOnDelay s) s.clock (autoPowerOn s).clock) := by
  unfold autoPowerOn powerOnCommands powerOnDelay powerOnSleeps
  by_cases h : powered s = true
  · rw [if_pos h, if_pos h, if_pos h, if_pos h, if_pos h]
    exact ⟨Quiet.refl s, rfl, rfl, Commands.refl rfl rfl, fun _ => Slept.refl _ _⟩
  · rw [if_neg h, if_neg h, if_neg h, if_neg h, if_neg h]
    have := setPower_spec true s
    have hl : (true == s.cfg.powerOnLevel) = s.cfg.powerOnLevel := by cases s.cfg.powerOnLevel <;> rfl
    rw [hl] at this
    simpa using this

theorem autoPowerOn_powered (s : State) : powered (autoPowerOn s) = true := by
  unfold autoPowerOn
  split
  · assumption
  · rfl

/-- The slots of a frame (R77, R141). -/
def frameSlots (k : CodeTables) (c : Cfg) (sym : Sym) : List (Bool × Nat) := (frameLevels sym).zip (frameGaps k c sym)

theorem sendRaw_eq (k : CodeTables) (sym : Sym) (s : State) :
    sendRaw k sym s =
      powerTouch (logSent sym ((frameSlots k (autoPowerOn s).cfg sym).foldl (fun s p => slot p.1 p.2 s)
        (autoPowerOn s))) := rfl

theorem frameGaps_sum (k : CodeTables) (c : Cfg) (sym : Sym) : (frameGaps k c sym).sum = frameTime k c sym := by
  simp only [frameGaps, frameTime, List.sum_cons, List.sum_nil]
  omega

/-- SendRaw (R141, R155): what it keeps, what it sends, and its commands with their times: the power line when it must,
then the frame. -/
theorem sendRaw_spec (k : CodeTables) (sym : Sym) (s : State) :
    Quiet s (sendRaw k sym s) ∧ (sendRaw k sym s).sent = s.sent ++ [sym] ∧
    (sendRaw k sym s).powerOnSince = some (sendRaw k sym s).clock ∧
    ∃ es, Commands (powerOnCommands s ++ es) s (sendRaw k sym s) ∧ es.map LineEvent.command = framesLevels s.cfg [sym] ∧
      (FitsClock s (powerOnDelay s + frameTime k s.cfg sym) (powerOnSleeps s + 7) →
        ∃ b, Slept s.cfg.sleepJitter (powerOnSleeps s) (powerOnDelay s) s.clock b ∧
          Paced s.cfg.sleepJitter b (frameGaps k s.cfg sym) (es.map (·.time)) (sendRaw k sym s).clock) := by
  obtain ⟨q, h1, -, c, ht⟩ := autoPowerOn_spec s
  obtain ⟨q', h1', -, es, c', hm, ht'⟩ := slots_spec (frameSlots k (autoPowerOn s).cfg sym) (autoPowerOn s)
  rw [sendRaw_eq]
  refine ⟨((q.trans q').trans (logSent_quiet _ _)).trans (setPowerOnSince_quiet _ _), ?_, rfl, es,
    (c.trans c').congr rfl rfl, ?_, fun hf => ?_⟩
  · simp only [powerTouch, setPowerOnSince_sent, logSent_sent, h1', h1]
  · rw [hm, q.cfg]; rfl
  · have hs := ht (hf.mono (by omega) (by omega))
    refine ⟨_, hs, ?_⟩
    simp only [powerTouch, setPowerOnSince_clock, logSent_clock]
    have hg : (frameSlots k (autoPowerOn s).cfg sym).map (·.2) = frameGaps k s.cfg sym := by rw [q.cfg]; rfl
    have hl : (frameSlots k (autoPowerOn s).cfg sym).length = 7 := rfl
    rw [hg, hl, frameGaps_sum, congrArg Cfg.sleepJitter q.cfg] at ht'
    exact ht' (hf.after hs q.cfg q.platform (by omega) (by omega))

end Sys2Proof.Machine
end

