-- ==== Sys2Proof/Laws/Sending.lean ====
section
/-! SUPPORT. What sending a list of symbols can do, said once: `Sends` holds of SendRaw, Emit, SCHR and SSTR and composes,
so that a statement about any of them follows from the symbols it sends. -/

namespace Sys2Proof.Machine

/-- Sending nothing takes no time. -/
@[simp] theorem sendingTime_nil (k : CodeTables) (s : State) : sendingTime k s [] = 0 := by simp [sendingTime]

/-- Sending one symbol takes what SendRaw takes (R142, R155). -/
theorem sendingTime_singleton (k : CodeTables) (s : State) (sym : Sym) :
    sendingTime k s [sym] = powerOnDelay s + frameTime k s.cfg sym := by
  simp [sendingTime, powerOnDelay]

/-- Of two lists sent one after the other only the first that sends anything waits for the warm-up. -/
theorem sendingTime_append {k : CodeTables} {s t : State} {a : List Sym} (hc : t.cfg = s.cfg)
    (hp : powered t = if a = [] then powered s else true) (b : List Sym) :
    sendingTime k s (a ++ b) = sendingTime k s a + sendingTime k t b := by
  by_cases ha : a = []
  · simp [sendingTime, ha, hc, hp]
  · simp [sendingTime, ha, hc, hp, Nat.add_assoc]

theorem flatMap_gaps_length (k : CodeTables) (c : Cfg) (syms : List Sym) :
    (syms.flatMap (frameGaps k c)).length = 7 * syms.length := by
  induction syms with
  | nil => rfl
  | cons sym syms ih =>
    rw [List.flatMap_cons, List.length_append, ih, List.length_cons]
    simp only [frameGaps, List.length_cons, List.length_nil]
    omega

theorem flatMap_gaps_sum (k : CodeTables) (c : Cfg) (syms : List Sym) :
    (syms.flatMap (frameGaps k c)).sum = (syms.map (frameTime k c)).sum := by
  induction syms with
  | nil => rfl
  | cons sym syms ih =>
    rw [List.flatMap_cons, List.sum_append, ih, frameGaps_sum, List.map_cons, List.sum_cons]

/-- From `s` to `t` exactly the symbols `syms` were sent. -/
structure Sends (k : CodeTables) (syms : List Sym) (s t : State) : Prop where
  res : t.res = s.res
  status : t.status = s.status
  cfg : t.cfg = s.cfg
  platform : t.platform = s.platform
  text : t.text = s.text
  sending : t.sending = s.sending
  port : t.port = s.port
  kbd : t.kbd = s.kbd
  samples : t.samples = s.samples
  sent : t.sent = s.sent ++ syms
  stamped : syms ≠ [] → t.powerOnSince = some t.clock
  untouched : syms = [] → t.powerOnSince = s.powerOnSince ∧ t.clock = s.clock ∧ t.trace = s.trace ∧ t.shadow = s.shadow
  lines : ∃ cmds, Commands cmds s t ∧
    ∀ e ∈ cmds, e.line = s.cfg.wrLine ∨ (powered s = false ∧ e.line = s.cfg.pwrLine)
  mark : syms ≠ [] → pinLevel s.cfg.wrLine t = some true ∧ t.shadow.getLsbD s.cfg.wrLine.toNat = true
  frames : syms ≠ [] → ∃ es, t.trace = s.trace ++ powerOnCommands s ++ es ∧
    es.map LineEvent.command = framesLevels s.cfg syms ∧
    (FitsClock s (powerOnDelay s + (syms.map (frameTime k s.cfg)).sum) (powerOnSleeps s + 7 * syms.length) →
      ∃ b, Slept s.cfg.sleepJitter (powerOnSleeps s) (powerOnDelay s) s.clock b ∧
        Paced s.cfg.sleepJitter b (syms.flatMap (frameGaps k s.cfg)) (es.map (·.time)) t.clock)
  clockFits : syms ≠ [] → t.clock < clockEnd s.platform

theorem Sends.refl (k : CodeTables) (s : State) : Sends k [] s s where
  res := rfl
  status := rfl
  cfg := rfl
  platform := rfl
  text := rfl
  sending := rfl
  port := rfl
  kbd := rfl
  samples := rfl
  sent := by simp
  stamped := by simp
  untouched := fun _ => ⟨rfl, rfl, rfl, rfl⟩
  lines := ⟨[], Commands.refl rfl rfl, by simp⟩
  mark := by simp
  frames := by simp
  clockFits := by simp

/-- Writes of ALPHA and COL do not show in `Sends`. -/
theorem Sends.setAlpha {k : CodeTables} {syms : List Sym} {s t : State} (h : Sends k syms s t) (a : Alpha) :
    Sends k syms s (setAlpha a t) :=
  { res := h.res, status := h.status, cfg := h.cfg, platform := h.platform, text := h.text,
    sending := h.sending, port := h.port, kbd := h.kbd, samples := h.samples, sent := h.sent, stamped := h.stamped, untouched := h.untouched, lines := h.lines,
    mark := h.mark, frames := h.frames, clockFits := h.clockFits }

theorem Sends.setCol {k : CodeTables} {syms : List Sym} {s t : State} (h : Sends k syms s t) (c : Col) :
    Sends k syms s (setCol c t) :=
  { res := h.res, status := h.status, cfg := h.cfg, platform := h.platform, text := h.text,
    sending := h.sending, port := h.port, kbd := h.kbd, samples := h.samples, sent := h.sent, stamped := h.stamped, untouched := h.untouched, lines := h.lines,
    mark := h.mark, frames := h.frames, clockFits := h.clockFits }

/-- After anything was sent the block is powered. -/
theorem Sends.powered {k : CodeTables} {syms : List Sym} {s t : State} (h : Sends k syms s t)
    (hp : powered s = true ∨ syms ≠ []) : powered t = true := by
  by_cases hs : syms = []
  · rcases hp with hp | hp
    · simp only [powered_eq, (h.untouched hs).1] at hp ⊢; exact hp
    · exact absurd hs hp
  · simp only [powered_eq, h.stamped hs, Option.isSome_some]

theorem Sends.trans {k : CodeTables} {a b : List Sym} {s t u : State} (h : Sends k a s t) (h' : Sends k b t u) :
    Sends k (a ++ b) s u where
  res := h'.res.trans h.res
  status := h'.status.trans h.status
  cfg := h'.cfg.trans h.cfg
  platform := h'.platform.trans h.platform
  text := h'.text.trans h.text
  sending := h'.sending.trans h.sending
  port := h'.port.trans h.port
  kbd := h'.kbd.trans h.kbd
  samples := h'.samples.trans h.samples
  sent := by rw [h'.sent, h.sent, List.append_assoc]
  stamped := by
    intro hne
    by_cases hb : b = []
    · obtain ⟨h1, h2, -⟩ := h'.untouched hb
      rw [h1, h2]; exact h.stamped (by simpa [hb] using hne)
    · exact h'.stamped hb
  untouched := by
    intro he
    obtain ⟨ha, hb⟩ := List.append_eq_nil_iff.mp he
    obtain ⟨h1, h2, h3, h4⟩ := h.untouched ha
    obtain ⟨h5, h6, h7, h8⟩ := h'.untouched hb
    exact ⟨h5.trans h1, h6.trans h2, h7.trans h3, h8.trans h4⟩
  lines := by
    obtain ⟨c1, hc1, l1⟩ := h.lines
    obtain ⟨c2, hc2, l2⟩ := h'.lines
    refine ⟨c1 ++ c2, hc1.trans hc2, ?_⟩
    intro e he
    rcases List.mem_append.mp he with he | he
    · exact l1 e he
    · rcases l2 e he with hw | ⟨hp, hw⟩
      · left; rw [hw, h.cfg]
      · right
        rw [h.cfg] at hw
        refine ⟨?_, hw⟩
        cases hs : Machine.powered s
        · rfl
        · rw [h.powered (.inl hs)] at hp; cases hp
  mark := by
    intro hne
    by_cases hb : b = []
    · obtain ⟨-, -, h3, h4⟩ := h'.untouched hb
      have hm := h.mark (by simpa [hb] using hne)
      simp only [pinLevel, h3, h4] at hm ⊢
      exact hm
    · have := h'.mark hb
      rwa [h.cfg] at this
  frames := by
    intro hne
    by_cases ha : a = []
    · -- nothing sent before: `t` is `s` for the power, the clock and the lines
      obtain ⟨hp, hc, htr, -⟩ := h.untouched ha
      subst ha
      have := h'.frames (by simpa using hne)
      have hpw : Machine.powered t = Machine.powered s := by rw [powered_eq, powered_eq, hp]
      simpa only [powerOnCommands, powerOnDelay, powerOnSleeps, FitsClock, hpw, hc, htr, h.cfg, h.platform,
        List.nil_append] using this
    · obtain ⟨es, he, hl, hp⟩ := h.frames ha
      by_cases hb : b = []
      · obtain ⟨-, hc, htr, -⟩ := h'.untouched hb
        subst hb
        rw [List.append_nil, htr, hc]
        exact ⟨es, he, hl, hp⟩
      · obtain ⟨us, he', hl', hp'⟩ := h'.frames hb
        have hpw : Machine.powered t = true := h.powered (.inr ha)
        simp only [powerOnCommands, powerOnDelay, powerOnSleeps, hpw, if_true, List.append_nil, Nat.zero_add] at he' hp'
        refine ⟨es ++ us, by rw [he', he, List.append_assoc _ es], ?_, fun hf => ?_⟩
        · rw [List.map_append, hl, hl', h.cfg]
          simp [framesLevels]
        · rw [List.map_append, List.sum_append, List.length_append, ← Nat.add_assoc, Nat.mul_add, ← Nat.add_assoc] at hf
          obtain ⟨b0, hs, hpc⟩ := hp (hf.mono (by omega) (by omega))
          have htot := hs.trans (hpc.slept.of_eq (flatMap_gaps_length k _ a) (flatMap_gaps_sum k _ a))
          rw [h.cfg] at hp'
          obtain ⟨b1, hs', hpc'⟩ := hp' (hf.after htot h.cfg h.platform (by omega) (by omega))
          have : b1 = t.clock := by obtain ⟨x, y⟩ := hs'; omega
          subst this
          refine ⟨b0, hs, ?_⟩
          rw [List.flatMap_append, List.map_append]
          exact hpc'.append hpc
  clockFits := by
    intro hne
    by_cases hb : b = []
    · rw [(h'.untouched hb).2.1]
      exact h.clockFits (by simpa [hb] using hne)
    · rw [← h.platform]
      exact h'.clockFits hb

/-- A line that SendRaw's operations do not command keeps its SHADOW bit and pin. -/
theorem Sends.keepsOther {k : CodeTables} {syms : List Sym} {s t : State} (h : Sends k syms s t) :
    KeepsLinesBut (s.cfg.wrLine :: if Machine.powered s then [] else [s.cfg.pwrLine]) s t := by
  intro n hn
  obtain ⟨cmds, hc, hl⟩ := h.lines
  refine hc.keepsOther n ?_
  intro e he heq
  rcases hl e he with hw | ⟨hp, hw⟩
  · exact hn (by rw [← heq, hw]; exact List.mem_cons_self)
  · exact hn (by rw [hp, ← heq, hw]; simp)

theorem Sends.hostSide {k : CodeTables} {syms : List Sym} {s t : State} (h : Sends k syms s t) : KeepsHostSide s t :=
  ⟨h.cfg, h.platform, h.status, h.port, textRead_congr h.text h.platform⟩

/-! ### The times of a sending -/

theorem framesCommands_command (k : CodeTables) (c : Cfg) : ∀ (syms : List Sym) (t : Nat),
    (framesCommands k c syms t).map LineEvent.command = framesLevels c syms
  | [], _ => rfl
  | sym :: syms, t => by
    rw [framesCommands, List.map_append, framesCommands_command k c syms]
    rfl

theorem framesCommands_time (k : CodeTables) (c : Cfg) : ∀ (syms : List Sym) (t : Nat),
    (framesCommands k c syms t).map (·.time) = offsets t (syms.flatMap (frameGaps k c))
  | [], _ => rfl
  | sym :: syms, t => by
    rw [framesCommands, List.map_append, framesCommands_time k c syms, List.flatMap_cons, offsets_append, frameGaps_sum]
    congr 1
    simp only [frameCommands, frameLevels, frameGaps, offsets, List.mapIdx_cons, List.mapIdx_nil, List.map_cons,
      List.map_nil, List.cons.injEq, and_true]
    omega

/-- With exact Sleeps the line trace is fixed (R155). -/
theorem Sends.trace_exact {k : CodeTables} {syms : List Sym} {s t : State} (h : Sends k syms s t) (hne : syms ≠ [])
    (hx : ExactTime s (powerOnDelay s + (syms.map (frameTime k s.cfg)).sum)) :
    t.trace = s.trace ++ powerOnCommands s ++ framesCommands k s.cfg syms (s.clock + powerOnDelay s) := by
  obtain ⟨es, he, hl, hp⟩ := h.frames hne
  obtain ⟨b, hs, hpc⟩ := hp (hx.fits _)
  rw [hx.1] at hs hpc
  rw [hs.exact] at hpc
  rw [he, lineEvents_ext (hl.trans (framesCommands_command k s.cfg syms _).symm)
    (hpc.exact.1.trans (framesCommands_time k s.cfg syms _).symm)]

/-- The Sleeps of a sending. -/
theorem Sends.slept {k : CodeTables} {syms : List Sym} {s t : State} (h : Sends k syms s t)
    (hf : FitsClock s (sendingTime k s syms) (sendingSleeps s syms)) :
    Slept s.cfg.sleepJitter (sendingSleeps s syms) (sendingTime k s syms) s.clock t.clock := by
  by_cases hs : syms = []
  · subst hs
    rw [(h.untouched rfl).2.1]
    simpa [sendingSleeps] using Slept.refl _ _
  · obtain ⟨es, -, -, hp⟩ := h.frames hs
    have e1 : sendingTime k s syms = powerOnDelay s + (syms.map (frameTime k s.cfg)).sum := by
      simp [sendingTime, powerOnDelay, hs]
    have e2 : sendingSleeps s syms = powerOnSleeps s + 7 * syms.length := by
      simp [sendingSleeps, powerOnSleeps, hs]
    rw [e1, e2] at hf ⊢
    obtain ⟨b, hb, hpc⟩ := hp hf
    exact hb.trans (hpc.slept.of_eq (flatMap_gaps_length k _ syms) (flatMap_gaps_sum k _ syms))

/-- With exact Sleeps a sending takes exactly its time (R220, R221). -/
theorem Sends.time {k : CodeTables} {syms : List Sym} {s t : State} (h : Sends k syms s t)
    (hx : ExactTime s (sendingTime k s syms)) : t.clock = s.clock + sendingTime k s syms := by
  have := h.slept (hx.fits _)
  rw [hx.1] at this
  exact this.exact

/-! ### SendRaw -/

/-- SendRaw leaves a TS_BITS-wide clock (R190). -/
theorem sendRaw_clock_lt (k : CodeTables) (sym : Sym) (s : State) :
    (sendRaw k sym s).clock < clockEnd s.platform := by
  rw [← (sendRaw_spec k sym s).1.platform]
  exact sleep_clock_lt _ (lineCommand _ _ _)

/-- A list of commands whose last one is to line `n`. -/
theorem commands_last {n : LineNo} {v : Bool} {es : List LineEvent} {l : List (LineNo × Bool)}
    (h : es.map LineEvent.command = l ++ [(n, v)]) : ∃ init last, es = init ++ [last] ∧ last.line = n ∧ last.level = v := by
  obtain ⟨a, b, rfl, -, hb⟩ := List.map_eq_append_iff.mp h
  obtain ⟨e, rfl, he⟩ := List.map_eq_singleton_iff.mp hb
  simp only [LineEvent.command, Prod.mk.injEq] at he
  exact ⟨a, e, rfl, he.1, he.2⟩

/-- SendRaw sends its symbol (R141). -/
theorem sendRaw_sends (k : CodeTables) (sym : Sym) (s : State) : Sends k [sym] s (sendRaw k sym s) := by
  obtain ⟨q, hs, hp, es, hc, hl, ht⟩ := sendRaw_spec k sym s
  refine ⟨q.res, q.status, q.cfg, q.platform, q.text, q.sending, q.port, q.kbd, q.samples, hs, fun _ => hp, by simp, ⟨_, hc, ?_⟩, ?_,
    fun _ => ⟨es, by rw [hc.1, List.append_assoc], hl, by simpa using ht⟩, fun _ => sendRaw_clock_lt k sym s⟩
  · intro e he
    rcases List.mem_append.mp he with he | he
    · right
      unfold powerOnCommands at he
      cases hpw : powered s
      · rw [hpw] at he; simp at he; exact ⟨rfl, by rw [he]⟩
      · rw [hpw] at he; simp at he
    · left
      have hm : e.command ∈ framesLevels s.cfg [sym] := hl ▸ List.mem_map_of_mem he
      simp only [framesLevels, List.flatMap_cons, List.flatMap_nil, List.append_nil, List.mem_map] at hm
      obtain ⟨v, -, hv⟩ := hm
      exact (congrArg Prod.fst hv).symm
  · intro _
    obtain ⟨init, last, rfl, hw, hv⟩ := commands_last (n := s.cfg.wrLine) (v := true)
      (l := ((frameLevels sym).dropLast.map fun v => (s.cfg.wrLine, v))) hl
    have h1 : pinLevel s.cfg.wrLine (sendRaw k sym s) = some true := by
      unfold pinLevel
      rw [hc.1, ← List.append_assoc, ← List.append_assoc, lastLevel_append, if_pos hw, hv]
    refine ⟨h1, ?_⟩
    rw [hc.2]
    have : applyCommands (powerOnCommands s ++ (init ++ [last])) s.shadow =
        shadowPut last.line last.level (applyCommands (powerOnCommands s ++ init) s.shadow) := by
      simp [applyCommands, List.foldl_append]
    rw [this, shadowPut_getLsbD, if_pos hw.symm, hv]

/-- The data slots of the frame that SendRaw leaves on the writer line carry the symbol, bit 0 first (R77, R141). -/
theorem sendRaw_lastFrameData (k : CodeTables) (sym : Sym) (s : State) :
    lastFrameData (sendRaw k sym s) = [0, 1, 2, 3, 4].map sym.getLsbD := by
  obtain ⟨q, -, -, es, hc, hl, -⟩ := sendRaw_spec k sym s
  -- the writer line's levels are the frame's
  have hw : (es.filter (·.line == s.cfg.wrLine)).map (·.level) = frameLevels sym := by
    have h1 : es.filter (·.line == s.cfg.wrLine) = es := List.filter_eq_self.mpr fun e he => by
      have hm : e.command ∈ framesLevels s.cfg [sym] := hl ▸ List.mem_map_of_mem he
      simp only [framesLevels, List.flatMap_cons, List.flatMap_nil, List.append_nil, List.mem_map] at hm
      obtain ⟨v, -, hv⟩ := hm
      exact beq_iff_eq.mpr (congrArg Prod.fst hv).symm
    have h2 := congrArg (List.map Prod.snd) hl
    rw [List.map_map] at h2
    rw [h1]
    exact h2
  unfold lastFrameData
  rw [q.cfg, hc.1]
  simp only [List.filter_append, List.map_append, hw, frameLevels]
  simp

/-! ### The line discipline -/

@[simp] theorem sendRaw_alpha (k : CodeTables) (sym : Sym) (s : State) : (sendRaw k sym s).alpha = s.alpha :=
  (sendRaw_spec k sym s).1.alpha

@[simp] theorem sendRaw_col (k : CodeTables) (sym : Sym) (s : State) : (sendRaw k sym s).col = s.col :=
  (sendRaw_spec k sym s).1.col

/-- Emit (R121). -/
theorem emit_sends (k : CodeTables) (sym : Sym) (s : State) : Sends k [sym] s (emit k sym s) :=
  (sendRaw_sends k sym s).setCol _

@[simp] theorem emit_alpha (k : CodeTables) (sym : Sym) (s : State) : (emit k sym s).alpha = s.alpha := by
  simp [emit]

@[simp] theorem emit_col (k : CodeTables) (sym : Sym) (s : State) :
    (emit k sym s).col = colAfter k s.alpha sym s.col := by
  simp [emit]

/-- CR then LF (R123, R125). -/
theorem emitCrLf_sends (k : CodeTables) (s : State) : Sends k [k.symCr, k.symLf] s (emitCrLf k s) :=
  (emit_sends k k.symCr s).trans (emit_sends k k.symLf _)

/-- The page change (R124). -/
theorem changePage_sends (k : CodeTables) (p : Page) (s : State) :
    Sends k [k.symNull, shiftOf k p, shiftOf k p] s (changePage k p s) :=
  ((((emit_sends k k.symNull s).trans (emit_sends k (shiftOf k p) _)).trans (emit_sends k (shiftOf k p) _))).setAlpha _

@[simp] theorem changePage_alpha (k : CodeTables) (p : Page) (s : State) : (changePage k p s).alpha = pageAlpha p := rfl

/-- The symbols of a due wrap. -/
def wrapSyms (k : CodeTables) (sym : Sym) (p : Page) (col : Col) : List Sym :=
  if printable k sym p && decide (wrapCol ≤ col) then [k.symCr, k.symLf] else []

/-- The symbols of a due page change. -/
def shiftSyms (k : CodeTables) (p : Page) (a : Alpha) : List Sym :=
  if pageAlpha p ≠ a then [k.symNull, shiftOf k p, shiftOf k p] else []

/-- The symbols SCHR sends for an encoded character (R120, R126). -/
def schrSyms (k : CodeTables) (sym : Sym) (p : Page) (a : Alpha) (col : Col) : List Sym :=
  if sym = k.symCr then [] else if sym = k.symLf then [k.symCr, k.symLf]
  else wrapSyms k sym p col ++ shiftSyms k p a ++ [sym]

theorem wrapIfDue_sends (k : CodeTables) (sym : Sym) (p : Page) (s : State) :
    Sends k (wrapSyms k sym p s.col) s (wrapIfDue k sym p s) := by
  unfold wrapIfDue wrapSyms
  split
  · exact emitCrLf_sends k s
  · exact Sends.refl k s

@[simp] theorem wrapIfDue_alpha (k : CodeTables) (sym : Sym) (p : Page) (s : State) :
    (wrapIfDue k sym p s).alpha = s.alpha := by
  unfold wrapIfDue emitCrLf
  split <;> simp

theorem changePageIfDue_sends (k : CodeTables) (p : Page) (s : State) :
    Sends k (shiftSyms k p s.alpha) s (changePageIfDue k p s) := by
  unfold changePageIfDue shiftSyms
  split
  · exact changePage_sends k p s
  · exact Sends.refl k s

@[simp] theorem changePageIfDue_alpha (k : CodeTables) (p : Page) (s : State) :
    (changePageIfDue k p s).alpha = pageAlpha p := by
  unfold changePageIfDue
  split
  · rfl
  · next h => exact (not_not.mp h).symm

/-- SCHR after encoding (R120). -/
theorem sendEncoded_sends (k : CodeTables) (sym : Sym) (p : Page) (s : State) :
    Sends k (schrSyms k sym p s.alpha s.col) s (sendEncoded k sym p s) := by
  unfold sendEncoded schrSyms
  split
  · exact Sends.refl k s
  · split
    · exact emitCrLf_sends k s
    · have h := ((wrapIfDue_sends k sym p s).trans (changePageIfDue_sends k p (wrapIfDue k sym p s))).trans
        (emit_sends k sym _)
      rw [wrapIfDue_alpha] at h
      exact h

end Sys2Proof.Machine
end

