-- ==== Sys2Proof/Laws/LineDiscipline.lean ====
section
/-! SUPPORT. What SCHR and SSTR do to the tracker and which symbols they send (R120 to R133). -/

namespace Sys2Proof.Machine

/-- ALPHA and COL after SCHR (R120, R130). -/
theorem sendEncoded_alpha (k : CodeTables) (sym : Sym) (p : Page) (s : State) :
    (sendEncoded k sym p s).alpha =
      if sym = k.symCr ∨ sym = k.symLf then s.alpha else pageAlpha p := by
  unfold sendEncoded
  by_cases h : sym = k.symCr
  · simp [h]
  · by_cases h' : sym = k.symLf
    · simp [h', emitCrLf]
      split <;> simp
    · simp [h, h']

/-- The control symbols are apart from CR and LF: what the six positions of R108 give. -/
structure DistinctControls (k : CodeTables) : Prop where
  nullCr : k.symNull ≠ k.symCr
  lfCr : k.symLf ≠ k.symCr
  ltrsCr : k.symLtrs ≠ k.symCr
  figsCr : k.symFigs ≠ k.symCr
  nullLf : k.symNull ≠ k.symLf
  ltrsLf : k.symLtrs ≠ k.symLf
  figsLf : k.symFigs ≠ k.symLf
  nullLtrs : k.symNull ≠ k.symLtrs
  nullFigs : k.symNull ≠ k.symFigs
  figsLtrs : k.symFigs ≠ k.symLtrs

theorem distinctControls {k : CodeTables} (h : k.controlsDistinct = true) : DistinctControls k := by
  simp only [CodeTables.controlsDistinct, CodeTables.sharedSyms, decide_eq_true_eq, List.nodup_cons, List.mem_cons,
    List.not_mem_nil, or_false, not_or] at h
  constructor <;> tauto

theorem colAfter_cr (k : CodeTables) (a : Alpha) (c : Col) : colAfter k a k.symCr c = 0 := by simp [colAfter]

theorem colAfter_lf {k : CodeTables} (h : DistinctControls k) (a : Alpha) (c : Col) : colAfter k a k.symLf c = c := by
  simp [colAfter, h.lfCr, advances]

theorem colAfter_null {k : CodeTables} (h : DistinctControls k) (a : Alpha) (c : Col) : colAfter k a k.symNull c = c := by
  simp [colAfter, h.nullCr, advances]

theorem colAfter_shift {k : CodeTables} (h : DistinctControls k) (a : Alpha) (p : Page) (c : Col) :
    colAfter k a (shiftOf k p) c = c := by
  cases p
  · simp [colAfter, shiftOf, h.ltrsCr, advances, isShift]
  · simp [colAfter, shiftOf, h.figsCr, advances, isShift]

theorem emitCrLf_col {k : CodeTables} (h : DistinctControls k) (s : State) : (emitCrLf k s).col = 0 := by
  simp [emitCrLf, colAfter_cr, colAfter_lf h]

theorem changePageIfDue_col {k : CodeTables} (h : DistinctControls k) (p : Page) (s : State) :
    (changePageIfDue k p s).col = s.col := by
  unfold changePageIfDue changePage
  split
  · simp [colAfter_null h, colAfter_shift h]
  · rfl

theorem wrapIfDue_col {k : CodeTables} (h : DistinctControls k) (sym : Sym) (p : Page) (s : State) :
    (wrapIfDue k sym p s).col = if printable k sym p = true ∧ wrapCol ≤ s.col then 0 else s.col := by
  unfold wrapIfDue
  by_cases hw : printable k sym p = true ∧ wrapCol ≤ s.col
  · rw [if_pos (by simpa using hw), if_pos hw, emitCrLf_col h]
  · rw [if_neg (by simpa using hw), if_neg hw]

/-- A payload advances the cursor exactly when it is printable (R123). -/
theorem colAfter_payload {k : CodeTables} {sym : Sym} {p : Page} (h1 : sym ≠ k.symCr) (c : Col) :
    colAfter k (pageAlpha p) sym c = c + (if printable k sym p = true then 1 else 0) := by
  have : advances k (pageAlpha p) sym = printable k sym p := by
    have e : (pageAlpha p == Alpha.figures) = (p == Page.figures) := by cases p <;> rfl
    have g1 : (sym == k.symCr) = false := beq_eq_false_iff_ne.mpr h1
    simp [advances, printable, g1, e]
  unfold colAfter
  rw [if_neg h1, this]
  split <;> simp

theorem sendEncoded_col {k : CodeTables} (h : DistinctControls k) (sym : Sym) (p : Page) (s : State) :
    (sendEncoded k sym p s).col =
      if sym = k.symCr then s.col else if sym = k.symLf then 0
      else (if printable k sym p = true ∧ wrapCol ≤ s.col then 0 else s.col) +
        (if printable k sym p = true then 1 else 0) := by
  unfold sendEncoded
  by_cases h1 : sym = k.symCr
  · simp [h1]
  · by_cases h2 : sym = k.symLf
    · rw [if_neg h1, if_pos h2, if_neg h1, if_pos h2, emitCrLf_col h]
    · rw [if_neg h1, if_neg h2, if_neg h1, if_neg h2, emit_col, changePageIfDue_alpha, colAfter_payload h1,
        changePageIfDue_col h, wrapIfDue_col h]

theorem sendEncoded_cr (k : CodeTables) (p : Page) (s : State) : sendEncoded k k.symCr p s = s := by
  simp [sendEncoded]

theorem schrSyms_eq_nil {k : CodeTables} {sym : Sym} {p : Page} {a : Alpha} {c : Col} :
    schrSyms k sym p a c = [] ↔ sym = k.symCr := by
  unfold schrSyms
  by_cases h1 : sym = k.symCr
  · simp [h1]
  · by_cases h2 : sym = k.symLf
    · rw [h2] at h1; simp [h1, h2]
    · simp [h1, h2]

/-- What SCHR sends (R120). -/
theorem sendChar_sends (k : CodeTables) (c : Chr) (f : FilterLevel) (s : State) :
    ∃ syms, Sends k syms s (sendChar k c f s) ∧ (syms = [] → sendChar k c f s = s) := by
  refine ⟨_, sendEncoded_sends k _ _ s, fun h => ?_⟩
  rw [schrSyms_eq_nil] at h
  show sendEncoded k (encodeChar k s.cfg.unknownOrder s.alpha c f).1 _ s = s
  rw [h]
  exact sendEncoded_cr k _ s

/-- Reading on from the next TP (R127). -/
theorem textRead_nextText (s : State) (a j : Nat) :
    textRead s (nextText s.platform a + j) = textRead s (a + (j + 1)) := by
  rw [← textRead_textIndex, nextText, textIndex_add, textRead_textIndex]
  congr 1; omega

/-- The string at an address depends on TEXT and the platform alone. -/
theorem stringAt_congr {k : CodeTables} {s t : State} (ht : t.text = s.text) (hp : t.platform = s.platform) :
    ∀ (n a : Nat), stringAt k t n a = stringAt k s n a
  | 0, _ => rfl
  | n + 1, a => by simp only [stringAt, textRead_congr ht hp, hp, stringAt_congr ht hp n]

/-- TP after some bytes (R127). -/
theorem nextText_iterate (p : Platform) : ∀ (n a : Nat), (nextText p)^[n + 1] a = textIndex p (a + (n + 1))
  | 0, _ => rfl
  | n + 1, a => by
    rw [Function.iterate_succ_apply, nextText_iterate p n, nextText, textIndex_add]
    congr 1; omega

/-- On a TEXT without a terminator a string is every byte that is read. -/
theorem stringAt_unterminated {k : CodeTables} {s : State} (h : ∀ x, textRead s x ≠ k.terminator) : ∀ n a,
    (stringAt k s n a).length = n ∧ ∀ j < n, (stringAt k s n a)[j]? = some (textRead s (a + j))
  | 0, a => by simp [stringAt]
  | n + 1, a => by
    obtain ⟨h1, h2⟩ := stringAt_unterminated h n (nextText s.platform a)
    rw [stringAt, if_neg (h a)]
    refine ⟨by simp [h1], fun j hj => ?_⟩
    cases j with
    | zero => simp
    | succ j => simp [h2 j (by omega), textRead_nextText]

/-- A sequence of SCHR is one send after the other. -/
theorem execAll_schr (f : FilterLevel) : ∀ (cs : List Chr) (s : State),
    execAll (cs.map fun c => .schr c f) s = .next (cs.foldl (fun u c => sendChar s.cfg.code c f u) s)
  | [], s => rfl
  | c :: cs, s => by
    obtain ⟨l, hs, -⟩ := sendChar_sends s.cfg.code c f s
    simp only [List.map_cons, execAll, exec, execSchr, List.foldl_cons]
    rw [execAll_schr, hs.cfg]

/-- The loop of SSTR, said once: it sends the characters before the terminator, and with no terminator among the next `n`
bytes it is still running after them (R127). -/
theorem sendStringLoop_spec (k : CodeTables) (f : FilterLevel) : ∀ (n a : Nat) (s : State),
    ((∀ j < n, textRead s (a + j) ≠ k.terminator) →
      sendStringLoop k f n a s = setSending (some ⟨(nextText s.platform)^[n] a, f⟩)
        ((stringAt k s n a).foldl (fun s c => sendChar k c f s) s)) ∧
    ((∃ j < n, textRead s (a + j) = k.terminator) →
      sendStringLoop k f n a s = (stringAt k s n a).foldl (fun s c => sendChar k c f s) s) := by
  intro n
  induction n with
  | zero => intro a s; simp [sendStringLoop, stringAt]
  | succ n ih =>
    intro a s
    unfold sendStringLoop
    by_cases ht : textRead s a = k.terminator
    · refine ⟨fun h => absurd ht (h 0 (Nat.succ_pos n)), fun _ => ?_⟩
      simp [ht, stringAt]
    · obtain ⟨syms, hs, -⟩ := sendChar_sends k (textRead s a) f s
      set t := sendChar k (textRead s a) f s with hteq
      have hread : ∀ j, textRead t (nextText s.platform a + j) = textRead s (a + (j + 1)) := fun j => by
        rw [textRead_congr hs.text hs.platform, textRead_nextText]
      obtain ⟨i1, i2⟩ := ih (nextText s.platform a) t
      simp only [hread, hs.platform] at i1 i2
      rw [if_neg ht]
      simp only [stringAt, if_neg ht, List.foldl_cons, Function.iterate_succ_apply, ← hteq]
      rw [stringAt_congr hs.text hs.platform] at i1 i2
      refine ⟨fun h => i1 fun j hj => h (j + 1) (by omega), fun ⟨j, hj, hjt⟩ => ?_⟩
      have hj0 : j ≠ 0 := by rintro rfl; exact ht hjt
      exact i2 ⟨j - 1, by omega, by rw [Nat.sub_add_cancel (by omega)]; exact hjt⟩

/-- Reading as many bytes as TEXT has, from anywhere, reads all of TEXT. -/
theorem text_cycle (s : State) (P : Chr → Prop) (a : Nat) :
    (∃ j < textSize s.platform, P (textRead s (a + j))) ↔ ∃ x, P (textRead s x) := by
  refine ⟨fun ⟨j, _, h⟩ => ⟨_, h⟩, fun ⟨x, h⟩ => ?_⟩
  -- the distance from `a` up to `x`, in the space
  have hx := textIndex_lt s.platform x
  have ha := textIndex_lt s.platform a
  refine ⟨textIndex s.platform (textIndex s.platform x + (textSize s.platform - textIndex s.platform a)),
    textIndex_lt _ _, ?_⟩
  have e : textIndex s.platform (a + textIndex s.platform
      (textIndex s.platform x + (textSize s.platform - textIndex s.platform a))) = textIndex s.platform x := by
    rw [Nat.add_comm, textIndex_add, Nat.add_comm, ← textIndex_add]
    have : textIndex s.platform a + (textIndex s.platform x + (textSize s.platform - textIndex s.platform a)) =
        textIndex s.platform x + textSize s.platform := by omega
    rw [this]
    simp [textIndex]
  rw [← textRead_textIndex, e, textRead_textIndex]
  exact h

/-- Sending characters one after the other (R127). -/
theorem sendChars_sends (k : CodeTables) (f : FilterLevel) : ∀ (cs : List Chr) (s : State),
    ∃ syms, Sends k syms s (cs.foldl (fun s c => sendChar k c f s) s)
  | [], s => ⟨[], Sends.refl k s⟩
  | c :: cs, s => by
    obtain ⟨a, ha, -⟩ := sendChar_sends k c f s
    obtain ⟨b, hb⟩ := sendChars_sends k f cs (sendChar k c f s)
    exact ⟨a ++ b, ha.trans hb⟩

/-- Everything a round of SSTR can do (R127): it sends the string from TP on, and afterwards the operation is still running
exactly when TEXT holds no terminator, at the TP it began with. -/
theorem sendStringRound_spec (tp : Nat) (f : FilterLevel) (s : State) :
    ∃ u syms, u = (stringAt s.cfg.code s (textSize s.platform) tp).foldl (fun u c => sendChar s.cfg.code c f u) s ∧
      Sends s.cfg.code syms s u ∧
      ((textTerminated s.cfg.code s ∧ sendStringRound tp f s = u) ∨
       ((∀ x, textRead s x ≠ s.cfg.code.terminator) ∧
        sendStringRound tp f s = setSending (some ⟨textIndex s.platform tp, f⟩) u)) := by
  obtain ⟨h1, h2⟩ := sendStringLoop_spec s.cfg.code f (textSize s.platform) tp s
  obtain ⟨syms, hs⟩ := sendChars_sends s.cfg.code f (stringAt s.cfg.code s (textSize s.platform) tp) s
  refine ⟨_, syms, rfl, hs, ?_⟩
  by_cases h : ∃ x, textRead s x = s.cfg.code.terminator
  · exact .inl ⟨h, h2 ((text_cycle s (· = s.cfg.code.terminator) _).mpr h)⟩
  · have h' := not_exists.mp h
    refine .inr ⟨h', (h1 fun j _ => h' _).trans ?_⟩
    -- the whole of TEXT has been read: TP is back
    have hpos : 0 < textSize s.platform := Nat.two_pow_pos _
    have e : (nextText s.platform)^[textSize s.platform] tp = textIndex s.platform tp := by
      rw [← Nat.sub_add_cancel hpos, nextText_iterate, Nat.sub_add_cancel hpos]
      simp [textIndex]
    rw [e]

/-- Everything SSTR can do (R127). -/
theorem execSstr_spec (a : TextAddr) (f : FilterLevel) (s : State) :
    ∃ t u syms, execSstr a f s = .next t ∧ u = (sstrString s a).foldl (fun u c => sendChar s.cfg.code c f u) s ∧
      Sends s.cfg.code syms s u ∧
      ((textTerminated s.cfg.code s ∧ t = u) ∨
       ((∀ x, textRead s x ≠ s.cfg.code.terminator) ∧
        t = setSending (some ⟨textIndex s.platform a.toNat, f⟩) u)) := by
  obtain ⟨u, syms, hu, hs, h⟩ := sendStringRound_spec (textIndex s.platform a.toNat) f s
  have e : textIndex s.platform (textIndex s.platform a.toNat) = textIndex s.platform a.toNat := by simp [textIndex]
  rw [e] at h
  exact ⟨_, u, syms, rfl, hu, hs, h⟩

end Sys2Proof.Machine
end

