-- ==== Sys2Proof/Laws/PerInstr.lean ====
section
/-! SUPPORT. The family of statements made once per operation: an operation's word selects the operation's own row of
R81. -/

namespace Sys2Proof.Laws.EncodesToItsRow

/-- The word of an operation selects the row of R81 that has its mnemonic. -/
def Statement (i : Instr) : Prop :=
  ∃ r ∈ opcodeRows, r.mnemonic = i.mnemonic ∧ r.selectedBy (encode i) = true

theorem enc (c : Chr) (f : FilterLevel) : Statement (.enc c f) := by
  refine ⟨⟨"ENC", 0x10000000, 0xF0FFFF00⟩, by decide, rfl, ?_⟩
  revert f c; decide +kernel

theorem dec (sym : Sym) : Statement (.dec sym) := by
  refine ⟨⟨"DEC", 0x20000000, 0xFFFFFFE0⟩, by decide, rfl, ?_⟩
  revert sym; decide +kernel

theorem schr (c : Chr) (f : FilterLevel) : Statement (.schr c f) := by
  refine ⟨⟨"SCHR", 0x30000000, 0xF0FFFF00⟩, by decide, rfl, ?_⟩
  revert f c; decide +kernel

/-- The operand's sixteen bits are all outside the row's mask. -/
theorem sstr (a : TextAddr) (f : FilterLevel) : Statement (.sstr a f) := by
  refine ⟨⟨"SSTR", 0x40000000, 0xF0FF0000⟩, by decide, rfl, ?_⟩
  simp only [OpcodeRow.selectedBy, encode, beq_iff_eq]
  have split : cmdWord 0x4 f a &&& 0xF0FF0000 = cmdWord 0x4 f 0 &&& 0xF0FF0000 := by
    apply BitVec.eq_of_getLsbD_eq
    intro i _
    rw [BitVec.getLsbD_and, BitVec.getLsbD_and, cmdWord_getLsbD, cmdWord_getLsbD]
    by_cases h : i < 16
    · have low : ∀ j : Fin 16, BitVec.getLsbD (0xF0FF0000 : CmdWord) j.val = false := by decide
      rw [show BitVec.getLsbD (0xF0FF0000 : CmdWord) i = false from low ⟨i, h⟩, Bool.and_false, Bool.and_false]
    · rw [if_neg h, if_neg h]
  rw [split]
  clear split
  revert f; decide

theorem sraw (sym : Sym) : Statement (.sraw sym) := by
  refine ⟨⟨"SRAW", 0x50000000, 0xFFFFFFE0⟩, by decide, rfl, ?_⟩
  revert sym; decide +kernel

theorem dsb : Statement .dsb :=
  ⟨⟨"DSB", 0x60000000, 0xFFFFFFFF⟩, by decide, rfl, by decide⟩

theorem rraw (echo : Bool) : Statement (.rraw echo) := by
  refine ⟨⟨"RRAW", 0x70000000, 0xFEFFFFFF⟩, by decide, rfl, ?_⟩
  cases echo <;> decide

theorem spwr (on : Bool) : Statement (.spwr on) := by
  refine ⟨⟨"SPWR", 0x80000000, 0xFEFFFFFF⟩, by decide, rfl, ?_⟩
  cases on <;> decide

theorem gpwr : Statement .gpwr :=
  ⟨⟨"GPWR", 0x90000000, 0xFFFFFFFF⟩, by decide, rfl, by decide⟩

theorem tpwr : Statement .tpwr :=
  ⟨⟨"TPWR", 0xA0000000, 0xFFFFFFFF⟩, by decide, rfl, by decide⟩

theorem cpwr : Statement .cpwr :=
  ⟨⟨"CPWR", 0xB0000000, 0xFFFFFFFF⟩, by decide, rfl, by decide⟩

end Sys2Proof.Laws.EncodesToItsRow
end

