-- ==== Sys2Proof/Laws/Receiving.lean ====
section
/-! SUPPORT. What a reception can do, said once (R147 to R151). -/

namespace Sys2Proof.Machine

/-- What RRAW's frame does not write. -/
structure Listens (s t : State) : Prop where
  alpha : t.alpha = s.alpha
  col : t.col = s.col
  powerOnSince : t.powerOnSince = s.powerOnSince
  res : t.res = s.res
  status : t.status = s.status
  cfg : t.cfg = s.cfg
  platform : t.platform = s.platform
  text : t.text = s.text
  sending : t.sending = s.sending
  port : t.port = s.port
  sent : t.sent = s.sent

theorem Listens.refl (s : State) : Listens s s := ⟨rfl, rfl, rfl, rfl, rfl, rfl, rfl, rfl, rfl, rfl, rfl⟩

theorem Listens.trans {s t u : State} (h : Listens s t) (h' : Listens t u) : Listens s u :=
  ⟨h'.alpha.trans h.alpha, h'.col.trans h.col, h'.powerOnSince.trans h.powerOnSince, h'.res.trans h.res,
   h'.status.trans h.status, h'.cfg.trans h.cfg, h'.platform.trans h.platform,
   h'.text.trans h.text, h'.sending.trans h.sending, h'.port.trans h.port, h'.sent.trans h.sent⟩

theorem sleep_listens (d : Nat) (s : State) : Listens s (sleep d s) :=
  ⟨rfl, rfl, rfl, rfl, rfl, rfl, rfl, rfl, rfl, rfl, rfl⟩

theorem lineCommand_listens (n : LineNo) (v : Bool) (s : State) : Listens s (lineCommand n v s) :=
  ⟨rfl, rfl, rfl, rfl, rfl, rfl, rfl, rfl, rfl, rfl, rfl⟩

/-- The echo of a list of samples (R149): the writer line follows the sampled bits. -/
def echoCommands (c : Cfg) (es : List LineEvent) : List LineEvent :=
  es.map fun e => ⟨c.wrLine, markBit c e.level, e.time⟩

/-- The accumulator after a list of samples (R148). -/
def assembled (c : Cfg) (acc : Sym) (es : List LineEvent) : Sym :=
  es.foldl (fun acc e => rxAssemble c.rxOrder acc (markBit c e.level)) acc

/-- One sample (R147). -/
theorem rxSample_spec (echo : Bool) (d : Nat) (acc : Sym) (s : State) :
    ∃ e : LineEvent, e.line = s.cfg.kbdLine ∧ e.time = s.clock ∧ (∀ b bs, s.kbd = b :: bs → e.level = b) ∧
      (rxSample echo d (acc, s)).1 = rxAssemble s.cfg.rxOrder acc (markBit s.cfg e.level) ∧
      Listens s (rxSample echo d (acc, s)).2 ∧
      (rxSample echo d (acc, s)).2.samples = s.samples ++ [e] ∧
      (rxSample echo d (acc, s)).2.kbd = s.kbd.tail ∧
      Commands (if echo then echoCommands s.cfg [e] else []) s (rxSample echo d (acc, s)).2 ∧
      (FitsClock s d 1 → Slept s.cfg.sleepJitter 1 d s.clock (rxSample echo d (acc, s)).2.clock) := by
  refine ⟨⟨s.cfg.kbdLine, lineLevel s.cfg.kbdLine s, s.clock⟩, rfl, rfl, ?_, ?_, ?_, ?_, ?_, ?_, ?_⟩
  · intro b bs h; simp [lineLevel, h]
  all_goals cases echo
  · rfl
  · rfl
  · exact ⟨rfl, rfl, rfl, rfl, rfl, rfl, rfl, rfl, rfl, rfl, rfl⟩
  · exact ⟨rfl, rfl, rfl, rfl, rfl, rfl, rfl, rfl, rfl, rfl, rfl⟩
  · rfl
  · rfl
  · rfl
  · rfl
  · exact Commands.refl rfl rfl
  · exact ⟨rfl, rfl⟩
  · exact fun h => sleep_slept (s := lineGet _ s) h
  · exact fun h => sleep_slept (s := lineCommand _ _ (lineGet _ s)) h

/-- A run of samples (R147, R148, R149, R151). -/
theorem rxSamples_spec (echo : Bool) : ∀ (ds : List Nat) (acc : Sym) (s : State),
    ∃ es : List LineEvent, es.length = ds.length ∧ (∀ e ∈ es, e.line = s.cfg.kbdLine) ∧
      (∀ bs rest, s.kbd = bs ++ rest → bs.length = ds.length →
        es.map (·.level) = bs ∧ (ds.foldl (fun q d => rxSample echo d q) (acc, s)).2.kbd = rest) ∧
      (ds.foldl (fun q d => rxSample echo d q) (acc, s)).1 = assembled s.cfg acc es ∧
      Listens s (ds.foldl (fun q d => rxSample echo d q) (acc, s)).2 ∧
      (ds.foldl (fun q d => rxSample echo d q) (acc, s)).2.samples = s.samples ++ es ∧
      Commands (if echo then echoCommands s.cfg es else []) s (ds.foldl (fun q d => rxSample echo d q) (acc, s)).2 ∧
      (FitsClock s ds.sum ds.length →
        Paced s.cfg.sleepJitter s.clock ds (es.map (·.time)) (ds.foldl (fun q d => rxSample echo d q) (acc, s)).2.clock)
  | [], acc, s => by
    refine ⟨[], rfl, by simp, ?_, rfl, Listens.refl s, by simp, ?_, ?_⟩
    · intro bs rest h hl
      have : bs = [] := List.length_eq_zero_iff.mp hl
      subst this
      exact ⟨rfl, h⟩
    · cases echo <;> exact Commands.refl rfl rfl
    · exact fun _ => rfl
  | d :: ds, acc, s => by
    obtain ⟨e, el, et, elv, eacc, elis, esam, ekbd, ecmd, eclk⟩ := rxSample_spec echo d acc s
    obtain ⟨es, hl, hline, hk, hacc, hlis, hsam, hcmd, htime⟩ :=
      rxSamples_spec echo ds (rxSample echo d (acc, s)).1 (rxSample echo d (acc, s)).2
    have hc := elis.cfg
    rw [Prod.mk.eta] at hk hacc hlis hsam hcmd htime
    rw [hc] at hline hacc hcmd
    simp only [List.foldl_cons]
    refine ⟨e :: es, by simp [hl], ?_, ?_, ?_, elis.trans hlis, ?_, ?_, ?_⟩
    · intro x hx
      rcases List.mem_cons.mp hx with rfl | hx
      · exact el
      · exact hline x hx
    · intro bs rest h hlen
      cases bs with
      | nil => simp at hlen
      | cons b bs =>
        rw [List.cons_append] at h
        obtain ⟨h1, h2⟩ := hk bs rest (by rw [ekbd, h]; rfl) (by simpa using hlen)
        exact ⟨by simp [elv _ _ h, h1], h2⟩
    · rw [hacc, eacc]; rfl
    · rw [hsam, esam, List.append_assoc]; rfl
    · have := ecmd.trans hcmd
      cases echo
      · exact this
      · exact this
    · intro hf
      rw [List.sum_cons, List.length_cons] at hf
      have hs := eclk (hf.mono (by omega) (by omega))
      have := htime (hf.after hs elis.cfg elis.platform (by omega) (by omega))
      rw [hc] at this
      rw [List.map_cons]
      exact ⟨et, _, hs, this⟩

/-- The start and stop that echo adds to the five data commands (R149). -/
def echoFrame (c : Cfg) (start stop : Nat) (es : List LineEvent) : List LineEvent :=
  if c.echoFraming = .startAndStop then ⟨c.wrLine, false, start⟩ :: (echoCommands c es ++ [⟨c.wrLine, true, stop⟩])
  else echoCommands c es

/-- `ReceiveRaw(e)` up to the margin, said once (R147). -/
theorem receiveFrame_spec (echo : Bool) (s : State) :
    ∃ (es : List LineEvent) (start stop : Nat), es.length = 5 ∧ (∀ e ∈ es, e.line = s.cfg.kbdLine) ∧
      (∀ bs rest, s.kbd = bs ++ rest → bs.length = 5 →
        es.map (·.level) = bs ∧ (receiveFrame echo s).2.kbd = rest) ∧
      (receiveFrame echo s).1 = assembled s.cfg 0 es ∧
      Listens s (receiveFrame echo s).2 ∧
      (receiveFrame echo s).2.samples = s.samples ++ es ∧
      Commands (if echo then echoFrame s.cfg start stop es else []) s (receiveFrame echo s).2 ∧
      (FitsClock s (s.cfg.tSym / 2 + s.cfg.tSym + 4 * s.cfg.tSym + s.cfg.rxTail + s.cfg.rxMargin) 8 →
        Slept s.cfg.sleepJitter 1 (s.cfg.tSym / 2) s.clock start ∧
        ∃ a, Slept s.cfg.sleepJitter 1 s.cfg.tSym start a ∧
          Paced s.cfg.sleepJitter a (rxWaits s.cfg) (es.map (·.time)) stop ∧
          Slept s.cfg.sleepJitter 1 s.cfg.rxMargin stop (receiveFrame echo s).2.clock) := by
  -- the state before the first sample
  set s1 := sleep (s.cfg.tSym / 2) s with hs1
  set s2 := (if echoFrames echo s1 then lineCommand s1.cfg.wrLine false s1 else s1) with hs2
  set s3 := sleep s2.cfg.tSym s2 with hs3
  have l2 : Listens s1 s2 := by
    rw [hs2]; split
    · exact lineCommand_listens _ _ _
    · exact Listens.refl _
  have k2 : s2.kbd = s1.kbd ∧ s2.samples = s1.samples ∧ s2.clock = s1.clock := by
    rw [hs2]; split <;> exact ⟨rfl, rfl, rfl⟩
  have c2 : Commands (if echo then (if s.cfg.echoFraming = .startAndStop then [⟨s.cfg.wrLine, false, s1.clock⟩] else [])
      else []) s1 s2 := by
    rw [hs2]
    cases echo
    · simpa [echoFrames] using Commands.refl rfl rfl
    · by_cases he : s.cfg.echoFraming = .startAndStop
      · have : echoFrames true s1 = true := by simp [echoFrames, hs1, he]
        rw [if_pos this, if_pos rfl, if_pos he]
        exact ⟨rfl, rfl⟩
      · have : ¬ echoFrames true s1 = true := by simp [echoFrames, hs1, he]
        rw [if_neg this, if_pos rfl, if_neg he]
        exact Commands.refl rfl rfl
  have l3 : Listens s s3 := (sleep_listens _ s).trans (l2.trans (sleep_listens _ s2))
  have g3 : s3.cfg = s.cfg := l3.cfg
  obtain ⟨es, hlen, hline, hk, hacc, hlis, hsam, hcmd, htime⟩ := rxSamples_spec echo (rxWaits s3.cfg) 0 s3
  set q := (rxWaits s3.cfg).foldl (fun q d => rxSample echo d q) (0, s3) with hq
  set s4 := (if echoFrames echo q.2 then lineCommand q.2.cfg.wrLine true q.2 else q.2) with hs4
  have hr : receiveFrame echo s = (q.1, sleep s4.cfg.rxMargin s4) := rfl
  have l4 : Listens q.2 s4 := by
    rw [hs4]; split
    · exact lineCommand_listens _ _ _
    · exact Listens.refl _
  have k4 : s4.kbd = q.2.kbd ∧ s4.samples = q.2.samples ∧ s4.clock = q.2.clock := by
    rw [hs4]; split <;> exact ⟨rfl, rfl, rfl⟩
  have gq : q.2.cfg = s.cfg := hlis.cfg.trans g3
  have c4 : Commands (if echo then (if s.cfg.echoFraming = .startAndStop then [⟨s.cfg.wrLine, true, q.2.clock⟩] else [])
      else []) q.2 s4 := by
    rw [hs4]
    cases echo
    · simpa [echoFrames] using Commands.refl rfl rfl
    · by_cases he : s.cfg.echoFraming = .startAndStop
      · have : echoFrames true q.2 = true := by simp [echoFrames, gq, he]
        rw [if_pos this, if_pos rfl, if_pos he, gq]
        exact ⟨rfl, rfl⟩
      · have : ¬ echoFrames true q.2 = true := by simp [echoFrames, gq, he]
        rw [if_neg this, if_pos rfl, if_neg he]
        exact Commands.refl rfl rfl
  rw [hr]
  rw [g3] at hline hacc hcmd htime
  have kb3 : s3.kbd = s.kbd := k2.1
  have sm3 : s3.samples = s.samples := k2.2.1
  refine ⟨es, s1.clock, q.2.clock, by simpa [rxWaits] using hlen, hline, ?_, hacc,
    (l3.trans hlis).trans (l4.trans (sleep_listens _ s4)), ?_, ?_, ?_⟩
  · intro bs rest h hl
    obtain ⟨h1, h2⟩ := hk bs rest (kb3.trans h) (by simpa [rxWaits] using hl)
    exact ⟨h1, k4.1.trans h2⟩
  · exact k4.2.1.trans (hsam.trans (by rw [sm3]))
  · have c3 : Commands (if echo then (if s.cfg.echoFraming = .startAndStop then [⟨s.cfg.wrLine, false, s1.clock⟩] else [])
      else []) s s3 := ⟨c2.1, c2.2⟩
    have := ((c3.trans hcmd).trans c4).congr (u := sleep s4.cfg.rxMargin s4) rfl rfl
    cases echo
    · exact this
    · by_cases he : s.cfg.echoFraming = .startAndStop
      · simpa [echoFrame, he] using this
      · simpa [echoFrame, he] using this
  · intro hf
    have hsum : (rxWaits s.cfg).sum = 4 * s.cfg.tSym + s.cfg.rxTail := by
      simp only [rxWaits, List.sum_cons, List.sum_nil]; omega
    have hlen5 : (rxWaits s.cfg).length = 5 := rfl
    have t0 : Slept s.cfg.sleepJitter 1 (s.cfg.tSym / 2) s.clock s1.clock := sleep_slept (hf.mono (by omega) (by omega))
    have t1 : Slept s.cfg.sleepJitter 1 (s.cfg.tSym / 2) s.clock s2.clock := k2.2.2 ▸ t0
    have g2 : s2.cfg = s.cfg := l2.cfg
    have p2 : s2.platform = s.platform := l2.platform
    have t2 : Slept s.cfg.sleepJitter 1 s.cfg.tSym s2.clock s3.clock := by
      have := sleep_slept (hf.after (d' := s2.cfg.tSym) (n' := 1) t1 g2 p2 (by rw [g2]; omega) (by omega))
      rw [← hs3] at this
      rwa [g2] at this
    have t3 := t1.trans t2
    have hp := htime (hf.after t3 l3.cfg l3.platform (by omega) (by omega))
    have g4 : s4.cfg = s.cfg := l4.cfg.trans gq
    have p4 : s4.platform = s.platform := l4.platform.trans (hlis.platform.trans l3.platform)
    have t4 : Slept s.cfg.sleepJitter 7 (s.cfg.tSym / 2 + s.cfg.tSym + (4 * s.cfg.tSym + s.cfg.rxTail)) s.clock s4.clock :=
      (t3.trans (k4.2.2 ▸ hp.slept)).of_eq (by omega) (by omega)
    have t5 := sleep_slept (hf.after (d' := s4.cfg.rxMargin) (n' := 1) t4 g4 p4 (by rw [g4]; omega) (by omega))
    generalize sleep s4.cfg.rxMargin s4 = s5 at t5 ⊢
    rw [g4, k4.2.2] at t5
    exact ⟨t0, _, k2.2.2 ▸ t2, hp, t5⟩

/-- With exact Sleeps the schedule of a reception is fixed (R151). -/
theorem reception_exact {c : Cfg} {t a b z u : Nat} {ts : List Nat} (h0 : Slept 0 1 (c.tSym / 2) t b)
    (h1 : Slept 0 1 c.tSym b a) (h2 : Paced 0 a (rxWaits c) ts z) (h3 : Slept 0 1 c.rxMargin z u) :
    b = t + c.tSym / 2 ∧ z = t + (c.tSym / 2 + c.tSym + 4 * c.tSym + c.rxTail) ∧
    ts = [0, 1, 2, 3, 4].map (fun n => t + (c.tSym / 2 + c.tSym + n * c.tSym)) ∧
    u = t + (c.tSym / 2 + c.tSym + 4 * c.tSym + c.rxTail + c.rxMargin) := by
  obtain ⟨h4, h5⟩ := h2.exact
  have := h1.exact
  have := h3.exact
  have h6 := h0.exact
  simp only [rxWaits, List.sum_cons, List.sum_nil] at h5
  refine ⟨h6, by omega, ?_, by omega⟩
  rw [h4]
  simp only [rxWaits, offsets, List.map_cons, List.map_nil, List.cons.injEq, and_true]
  omega

/-- The bits of the assembled symbol: the first sample is bit 0, or bit 4 when the order is reversed (R148). -/
theorem assembled_bits (c : Cfg) (es : List LineEvent) (h : es.length = 5) (i : Nat) (hi : i < 5) :
    (assembled c 0 es).getLsbD i =
      ((es.map (fun e => e.level == c.kbdMarkLevel)).getD
        (match c.rxOrder with | .firstToBit0 => i | .reversed => 4 - i) false) := by
  match es, h with
  | [e0, e1, e2, e3, e4], _ =>
    simp only [assembled, List.foldl_cons, List.foldl_nil, List.map_cons, List.map_nil, markBit]
    generalize (e0.level == c.kbdMarkLevel) = b0
    generalize (e1.level == c.kbdMarkLevel) = b1
    generalize (e2.level == c.kbdMarkLevel) = b2
    generalize (e3.level == c.kbdMarkLevel) = b3
    generalize (e4.level == c.kbdMarkLevel) = b4
    cases c.rxOrder <;> revert i <;> revert b0 b1 b2 b3 b4 <;> decide

/-- RRAW without echo, over one reception (R147, R150). -/
theorem execRraw_plain (s : State) :
    execRraw false s = .next (setRes (resOfSym (receiveFrame false s).1) (powerTouch (receiveFrame false s).2)) := by
  unfold execRraw
  generalize receiveFrame false s = q
  rfl

/-- RRAW with echo, over one reception and one decode (R147, R150). -/
theorem execRraw_echo (s : State) :
    execRraw true s =
      .next (setRes
        (resOfSymChar (receiveFrame true s).1
          (decodeChar s.cfg.code s.cfg.decodeUnknownPage (receiveFrame true s).2.alpha
            (receiveFrame true s).1))
        (powerTouch (decodeSym s.cfg.code (receiveFrame true s).1 (receiveFrame true s).2))) := by
  have h : (receiveFrame true s).2.cfg = s.cfg := by
    obtain ⟨-, -, -, -, -, -, -, hl, -⟩ := receiveFrame_spec true s
    exact hl.cfg
  unfold execRraw
  rw [← h]
  generalize receiveFrame true s = q
  rfl

end Sys2Proof.Machine
end

