-- ==== Sys2Proof/Laws/Step.lean ====
section
/-! SUPPORT. What a construction and a step can do, said once (R193, R200). -/

namespace Sys2Proof.Machine

/-- What a construction answers to a well configured request: the bring-up or one of the two failures (R200). -/
theorem construct_wellConfigured {c : Cfg} {s : State} (h : wellConfigured s.platform c) (bank : BankAnswer) :
    construct c bank s = match bank with
      | .ok => .next (bringUp c (blankDevice s))
      | .acquireFails => .next (raiseConstructError .acquire (blankDevice s))
      | .mapFails => .next (raiseConstructError .map (blankDevice s)) := by
  cases bank <;> simp [construct, h.1, h.2.1, h.2.2]

/-- A construction that is taken is well configured, and ends in the bring-up or in one of the two failures (R200). -/
theorem construct_next {c : Cfg} {bank : BankAnswer} {s t : State} (h : construct c bank s = .next t) :
    wellConfigured s.platform c ∧
    ((bank = .ok ∧ t = bringUp c (blankDevice s)) ∨
     (bank = .acquireFails ∧ t = raiseConstructError .acquire (blankDevice s)) ∨
     (bank = .mapFails ∧ t = raiseConstructError .map (blankDevice s))) := by
  have hw : wellConfigured s.platform c := by
    unfold construct at h
    split at h
    · cases h
    · next h1 =>
      split at h
      · cases h
      · next h2 =>
        split at h
        · cases h
        · next h3 => exact ⟨by simpa using h1, by simpa using h2, by simpa using h3⟩
  rw [construct_wellConfigured hw] at h
  exact ⟨hw, by cases bank <;> cases h <;> simp⟩

/-- A command word that is taken decodes, on a constructed block (R86). -/
theorem runCommand_next {w : CmdWord} {s t : State} (h : runCommand w s = .next t) :
    constructed s = true ∧ ∃ i, decode w = .ok i ∧ exec i s = .next t := by
  unfold runCommand at h
  split at h
  · next hc =>
    split at h
    · next i hi => exact ⟨hc, i, hi, h⟩
    · cases h
  · cases h

/-- Everything a step can do. -/
theorem step_cases {s t : State} (h : step s = .next t) :
    (∃ p, s.sending = some p ∧ t = resumeSstr p s) ∨
    (s.sending = none ∧
      ((s.port = [] ∧ t = s) ∨
       (∃ c bank es, s.port = .construct c bank :: es ∧ construct c bank (setPort es s) = .next t) ∨
       (∃ w es i, s.port = .command w :: es ∧ constructed s = true ∧ decode w = .ok i ∧ exec i (setPort es s) = .next t) ∨
       (∃ d es, s.port = .wait d :: es ∧ t = setClock (advance s.platform s.clock d) (setPort es s)) ∨
       (∃ a b es, s.port = .fillText a b :: es ∧ t = textWrite a b (setPort es s)))) := by
  unfold step takeEvent at h
  match hs : s.sending, h with
  | some p, h => cases h; exact .inl ⟨p, rfl, rfl⟩
  | none, h =>
    refine .inr ⟨rfl, ?_⟩
    match hp : s.port, h with
    | [], h => cases h; exact .inl ⟨rfl, rfl⟩
    | .construct c bank :: es, h => exact .inr (.inl ⟨c, bank, es, rfl, h⟩)
    | .command w :: es, h =>
      obtain ⟨hc, i, hi, he⟩ := runCommand_next h
      exact .inr (.inr (.inl ⟨w, es, i, rfl, hc, hi, he⟩))
    | .wait d :: es, h => cases h; exact .inr (.inr (.inr (.inl ⟨d, es, rfl, rfl⟩)))
    | .fillText a b :: es, h => cases h; exact .inr (.inr (.inr (.inr ⟨a, b, es, rfl, rfl⟩)))

/-- One step more. -/
theorem runSteps_succ' (n : Nat) (s t : State) (h : runSteps n s = .next t) : runSteps (n + 1) s = step t := by
  induction n generalizing s with
  | zero => simp only [runSteps] at h; cases h; simp only [runSteps]; cases step t <;> rfl
  | succ n ih =>
    rw [runSteps] at h ⊢
    split at h
    · next u hu => exact ih u h
    · cases h
    · cases h

end Sys2Proof.Machine
end

