-- ==== Sys2Proof/Machine/Assembler.lean ====
section
/-! DEFINITION. The assembler's lines (R89, R90) as the host events they stand for. A character operand is its byte and a
comment is nothing; the text of a line is not parsed. -/

namespace Sys2Proof.Machine

/-- The constant names of R72, as symbol operands (R89). -/
inductive SymName where
  | null | lf | sp | cr | wru | bell | figs | ltrs | placeholder
deriving DecidableEq, Repr

/-- A symbol operand: `0x00`..`0x1F` or a constant name (R89). -/
inductive SymOperand where
  | value (s : Sym)
  | name (n : SymName)
deriving DecidableEq, Repr

/-- A text operand: an address, or a quoted string that the assembler places (R89). -/
inductive TextOperand where
  | address (a : TextAddr)
  | quoted (cs : List Chr)
deriving DecidableEq, Repr

/-- One line (R89). An omitted filter level is `none`; `WAIT d` is a pseudo-instruction (R90). -/
inductive AsmLine where
  | enc (c : Chr) (f : Option FilterLevel)
  | dec (s : SymOperand)
  | schr (c : Chr) (f : Option FilterLevel)
  | sstr (t : TextOperand) (f : Option FilterLevel)
  | sraw (s : SymOperand)
  | dsb
  | rraw (echo : Bool)
  | spwr (on : Bool)
  | gpwr
  | tpwr
  | cpwr
  | wait (d : Nat)
deriving DecidableEq, Repr

/-- The value of a constant name (R72). -/
def symNamed (k : CodeTables) : SymName → Sym
  | .null => k.symNull
  | .lf => k.symLf
  | .sp => k.symSp
  | .cr => k.symCr
  | .wru => k.symWru
  | .bell => k.symBell
  | .figs => k.symFigs
  | .ltrs => k.symLtrs
  | .placeholder => k.placeholderSym

/-- The symbol of a symbol operand (R89). -/
def symOperand (k : CodeTables) : SymOperand → Sym
  | .value s => s
  | .name n => symNamed k n

/-- An omitted filter level is DEFAULT_FILTER (R89). -/
def filterOperand (c : Cfg) (f : Option FilterLevel) : FilterLevel := f.getD c.defaultFilter

/-- A string placed in TEXT from `a` on, with a TERMINATOR after it (R89). The addresses run as TP does (R127): past 0xFFFF
they go on to 0x10000 when TEXT has such addresses, and a write wraps at 2^TEXT_ADDR_BITS (R59), so that SSTR at `a` reads
the placed string. DESIGN CHOICE (log 34): with TEXT_ADDR_BITS above 16, R50's 16-bit index and R59's wrap leave it open. -/
def placeString (k : CodeTables) : Nat → List Chr → List HostEvent
  | a, [] => [.fillText a k.terminator]
  | a, c :: cs => .fillText a c :: placeString k (a + 1) cs

/-- The events of one line and the TEXT address for the next string, `a` being the one now (DESIGN CHOICE, log 28). It must
fit an SSTR operand, so it is taken modulo 2^16 (DESIGN CHOICE, log 34). -/
def assembleLine (g : Cfg) (a : TextAddr) : AsmLine → List HostEvent × TextAddr
  | .enc c f => ([.command (encode (.enc c (filterOperand g f)))], a)
  | .dec s => ([.command (encode (.dec (symOperand g.code s)))], a)
  | .schr c f => ([.command (encode (.schr c (filterOperand g f)))], a)
  | .sstr (.address t) f => ([.command (encode (.sstr t (filterOperand g f)))], a)
  | .sstr (.quoted cs) f =>
    (placeString g.code a.toNat cs ++ [.command (encode (.sstr a (filterOperand g f)))], a + BitVec.ofNat 16 (cs.length + 1))
  | .sraw s => ([.command (encode (.sraw (symOperand g.code s)))], a)
  | .dsb => ([.command (encode .dsb)], a)
  | .rraw e => ([.command (encode (.rraw e))], a)
  | .spwr o => ([.command (encode (.spwr o))], a)
  | .gpwr => ([.command (encode .gpwr)], a)
  | .tpwr => ([.command (encode .tpwr)], a)
  | .cpwr => ([.command (encode .cpwr)], a)
  | .wait d => ([.wait d], a)

/-- A program, its strings placed one after the other from `a` on. Strings that are
longer together than the addresses an operand can name, or than TEXT, overwrite one another. -/
def assemble (g : Cfg) : TextAddr → List AsmLine → List HostEvent
  | _, [] => []
  | a, l :: ls => (assembleLine g a l).1 ++ assemble g (assembleLine g a l).2 ls

end Sys2Proof.Machine
end

