-- ==== Sys2Proof/Tests/Slice0.lean ====
section
/-! SUPPORT. Tests on fixed values, each named; an expected result comes from the spec's text or vectors, which the
comment names. Then one theorem for each statement with hypotheses, that a concrete state meets them all. -/

namespace Sys2Proof.Tests

open Sys2Proof Sys2Proof.Machine

-- One kernel evaluation at a time: run side by side, they pass the memory limit of the check.
set_option Elab.async false

/-! ### The checks of WellFormed -/

theorem test_word_reservedOpcode :
    wordSpellsCommand 0x00000000 = false ∧ wordSpellsCommand 0x0F000000 = false ∧ wordSpellsCommand 0xC0000000 = false ∧
    wordSpellsCommand 0xFFFFFFFF = false := by decide
theorem test_word_nonzeroZeroField : wordSpellsCommand 0x10010041 = false ∧ wordSpellsCommand 0xB0010000 = false := by decide
theorem test_word_nonzeroArg :
    wordSpellsCommand 0x21000001 = false ∧ wordSpellsCommand 0x72000000 = false ∧ wordSpellsCommand 0x91000000 = false := by decide
theorem test_word_nonzeroOperand :
    wordSpellsCommand 0x10000141 = false ∧ wordSpellsCommand 0x20000020 = false ∧ wordSpellsCommand 0x70000001 = false ∧
    wordSpellsCommand 0xA0000001 = false := by decide

/-- R75 (b): `e` twice in TBL_L. -/
theorem test_tables_injective : CodeTables.injective { shippedCode with tblL := shippedCode.tblL.set 3 0x65 } = false := by
  decide +kernel
/-- R75 (c): the two NULL entries differ; the who-are-you position is shared. -/
theorem test_tables_sharedExactly :
    CodeTables.sharedExactly { shippedCode with tblF := shippedCode.tblF.set 0 0x01 } = false ∧
    CodeTables.sharedExactly { shippedCode with tblF := shippedCode.tblF.set 9 0x64 } = false := by decide +kernel
/-- R75 (d): TBL_F holds `e` at another position. -/
theorem test_tables_noOtherShared :
    CodeTables.noOtherShared { shippedCode with tblF := shippedCode.tblF.set 9 0x65 } = false := by decide +kernel
/-- R75 (e): no `e`; an upper-case letter. -/
theorem test_tables_lettersOnly :
    CodeTables.lettersOnly { shippedCode with tblL := shippedCode.tblL.set 1 0x7B } = false ∧
    CodeTables.lettersOnly { shippedCode with tblF := shippedCode.tblF.set 9 0x41 } = false := by decide +kernel
/-- R75 (f): no apostrophe. -/
theorem test_tables_hasApostrophe :
    CodeTables.hasApostrophe { shippedCode with tblF := shippedCode.tblF.set 5 0x22 } = false := by decide +kernel
/-- R75 (g): the placeholder is a national position. -/
theorem test_tables_placeholderUnfiltered :
    CodeTables.placeholderUnfiltered { shippedCode with placeholderSym := 0x0D } = false := by decide +kernel
/-- R108: LF at the position of CR. -/
theorem test_tables_controlsDistinct : CodeTables.controlsDistinct { shippedCode with symLf := 0x08 } = false := by decide
/-- R35: a bank of 27 lines has no line 27; one of 28 has. -/
theorem test_roles_outsideBank :
    Platform.hasLines { referencePlatform with lineCount := 27 } referenceCfg = false ∧
    Platform.hasLines { referencePlatform with lineCount := 28 } referenceCfg = true := by decide
/-- C-04, and a repeat of the auxiliary line. -/
theorem test_roles_repeated :
    Cfg.rolesDistinct { referenceCfg with kbdLine := 17 } = false ∧
    Cfg.rolesDistinct { referenceCfg with auxLine := 22 } = false := by decide

/-! ### Decoding: words written out from R80 to R84, one operation of every row -/

/-- OP 0001, ARG 0011 (level 3), ZERO, OPERAND 0x004A: E-49. -/
theorem test_decode_enc : decode 0b00010011000000000000000001001010 = .ok (.enc 0x4A 3) := by decide
/-- OP 0010, symbol 11001. -/
theorem test_decode_dec : decode 0b00100000000000000000000000011001 = .ok (.dec 0x19) := by decide
/-- OP 0011, ARG 1111, character 11111111. -/
theorem test_decode_schr : decode 0b00111111000000000000000011111111 = .ok (.schr 0xFF 15) := by decide
/-- OP 0100, ARG 0100, address 0x8001. -/
theorem test_decode_sstr : decode 0b01000100000000001000000000000001 = .ok (.sstr 0x8001 4) := by decide
/-- OP 0101, symbol 10101. -/
theorem test_decode_sraw : decode 0b01010000000000000000000000010101 = .ok (.sraw 0x15) := by decide
theorem test_decode_dsb : decode 0b01100000000000000000000000000000 = .ok .dsb := by decide
/-- OP 0111, ARG[0] is the echo flag. -/
theorem test_decode_rraw :
    decode 0b01110000000000000000000000000000 = .ok (.rraw false) ∧
    decode 0b01110001000000000000000000000000 = .ok (.rraw true) := by decide
/-- OP 1000, ARG[0] is on. -/
theorem test_decode_spwr :
    decode 0b10000000000000000000000000000000 = .ok (.spwr false) ∧
    decode 0b10000001000000000000000000000000 = .ok (.spwr true) := by decide
theorem test_decode_gpwr : decode 0b10010000000000000000000000000000 = .ok .gpwr := by decide
theorem test_decode_tpwr : decode 0b10100000000000000000000000000000 = .ok .tpwr := by decide
theorem test_decode_cpwr : decode 0b10110000000000000000000000000000 = .ok .cpwr := by decide
/-- The refusals of 95_test_vectors.md, each by its reason. -/
theorem test_decode_refused :
    decode 0x10000141 = .error .nonzeroOperand ∧ decode 0x10010041 = .error .nonzeroZeroField ∧
    decode 0x20000020 = .error .nonzeroOperand ∧ decode 0x21000001 = .error .nonzeroArg ∧
    decode 0x72000000 = .error .nonzeroArg ∧ decode 0x70000001 = .error .nonzeroOperand ∧
    decode 0x82000000 = .error .nonzeroArg ∧ decode 0x91000000 = .error .nonzeroArg ∧
    decode 0xA0000001 = .error .nonzeroOperand ∧ decode 0xB0010000 = .error .nonzeroZeroField ∧
    decode 0x00000000 = .error .reservedOpcode ∧ decode 0xE0000000 = .error .reservedOpcode := by decide
theorem test_decodeTableWord : decodeTableWord 32 0x31000037 = some (.schr 0x37 1) ∧ decodeTableWord 32 0 = none := by decide

/-! ### One operation on a small state -/

/-- The operation has a next state, and it meets a test. -/
def runsTo (i : Instr) (s : State) (p : State → Bool) : Bool :=
  match exec i s with
  | .next t => p t
  | .fault _ => false
  | .refused _ => false

theorem runsTo_spec {i : Instr} {s : State} {p : State → Bool} (h : runsTo i s p = true) :
    ∃ t, exec i s = .next t ∧ p t = true := by
  unfold runsTo at h
  split at h
  · next t ht => exact ⟨t, ht, h⟩
  · cases h
  · cases h

/-- A constructed block, powered since 0, at clock 2 000 000, on a page. -/
def poweredOn (a : Alpha) (col : Col) : State :=
  { State.reset with alpha := a, col := col, powerOnSince := some 0, clock := 2000000 }

/-- TEXT with a string from an address on. -/
def withText (s : State) (a : Nat) (cs : List Chr) : State :=
  { s with text := cs.mapIdx fun i c => (a + i, c) }

/-- E-13: the quote folds to the apostrophe. -/
theorem test_enc_folds : runsTo (.enc 0x22 0) State.reset (fun t => t.res == 0x00000045) = true := by decide +kernel
/-- E-09: SP is found in the current page, FIGURES. -/
theorem test_enc_currentPageFirst :
    runsTo (.enc 0x20 0) (poweredOn .figures 0) (fun t => t.res == 0x00000044) = true := by decide +kernel
/-- D-02. -/
theorem test_dec_figures :
    runsTo (.dec 0x01) (poweredOn .figures 0) (fun t => t.res == 0x00023300) = true := by decide +kernel
/-- D-09: the shift moves ALPHA before the lookup. -/
theorem test_dec_shift :
    runsTo (.dec 0x1B) State.reset (fun t => t.res == 0x00020E00 && t.alpha == .figures) = true := by decide +kernel
/-- P1's first character: `A` from reset, with the power-on. -/
theorem test_schr_fromReset :
    runsTo (.schr 0x41 0) State.reset
      (fun t => t.sent == [0x00, 0x1F, 0x1F, 0x03] && t.clock == 2740000 && t.col == 1) = true := by decide +kernel
/-- S3: the 70th letter wraps first. -/
theorem test_schr_wraps :
    runsTo (.schr 0x61 0) (poweredOn .letters 69)
      (fun t => t.sent == [0x08, 0x02, 0x03] && t.col == 1 && t.clock == 2450000) = true := by decide +kernel
/-- P7: the bell advances the cursor in neither of its two sends; `j` does. -/
theorem test_sstr_bell :
    runsTo (.sstr 0x0400 0) (withText (poweredOn .unknown 0) 0x400 [0x6A, 0x07, 0x07, 0x6A])
      (fun t => t.col == 2 && t.alpha == .letters && t.clock == 4370000 && t.sent.length == 13) = true := by decide +kernel
/-- P4: filter level 4 sends the placeholder for `!`. -/
theorem test_sstr_filters :
    runsTo (.sstr 0x0300 4) (withText (poweredOn .unknown 0) 0x300 [0x48, 0x69, 0x20, 0x35, 0x21, 0x0A])
      (fun t => t.sent == [0x00, 0x1F, 0x1F, 0x14, 0x06, 0x04, 0x00, 0x1B, 0x1B, 0x10, 0x19, 0x08, 0x02] &&
        t.col == 0 && t.alpha == .figures && t.clock == 4230000) = true := by decide +kernel
/-- R127 with TERMINATOR 0x24 and TEXT_ADDR_BITS 4: TP wraps from 15 to 0, and NUL is sent. -/
theorem test_sstr_parameters :
    runsTo (.sstr 0x000F 0)
      { poweredOn .letters 0 with
        text := [(0, 0x24), (15, 0x61)],
        cfg := { referenceCfg with code := { shippedCode with terminator := 0x24 } },
        platform := { referencePlatform with textAddrBits := 4 } }
      (fun t => t.sent == [0x03]) = true := by decide +kernel
/-- P6: the frame of 0x04 from 2 000 000 on. -/
theorem test_sraw_frame :
    runsTo (.sraw 0x04) (poweredOn .unknown 0)
      (fun t => (t.trace.drop 2).map (fun e => (e.level, e.time)) ==
        [(false, 2000000), (false, 2020000), (false, 2040000), (true, 2060000), (false, 2080000), (false, 2100000),
         (true, 2120000)] && t.clock == 2150000) = true := by decide +kernel
/-- P9: SRAW of a shift symbol leaves ALPHA and takes 220 000. -/
theorem test_sraw_shift :
    runsTo (.sraw 0x1B) (poweredOn .letters 1) (fun t => t.alpha == .letters && t.clock == 2220000) = true := by decide +kernel
/-- P5: the keyboard line reads space. -/
theorem test_dsb_space :
    runsTo .dsb { poweredOn .unknown 0 with kbd := [false] } (fun t => t.res == 0x00010000 && t.clock == 2000000) = true := by
  decide +kernel
/-- R145: DSB on an unpowered block warms up first. -/
theorem test_dsb_warmsUp :
    runsTo .dsb { State.reset with kbd := [true] }
      (fun t => t.res == 0 && t.clock == 2000000 && t.powerOnSince == some 0) = true := by decide +kernel
/-- X-09: `e`, echoed. -/
theorem test_rraw_echo :
    runsTo (.rraw true) { State.reset with alpha := .letters, kbd := [true, false, false, false, false] }
      (fun t => t.res == 0x00026501 && (t.trace.drop 2).map (fun e => (e.level, e.time)) ==
        [(false, 10000), (true, 30000), (false, 50000), (false, 70000), (false, 90000), (false, 110000),
         (true, 130000)]) = true := by decide +kernel
/-- X-06: a shift received without echo leaves ALPHA. -/
theorem test_rraw_noecho :
    runsTo (.rraw false) { State.reset with alpha := .letters, kbd := [true, true, false, true, true] }
      (fun t => t.res == 0x0000001B && t.alpha == .letters && t.trace == State.reset.trace) = true := by decide +kernel
/-- W-03. -/
theorem test_spwr_on :
    runsTo (.spwr true) State.reset
      (fun t => t.clock == 2000000 && t.powerOnSince == some 0 && pinLevel 22 t == some true) = true := by decide +kernel
/-- W-10. -/
theorem test_spwr_off :
    runsTo (.spwr false) { State.reset with clock := 65000000 }
      (fun t => t.clock == 66000000 && t.powerOnSince == none) = true := by decide +kernel
/-- W-01. -/
theorem test_gpwr_off : runsTo .gpwr State.reset (fun t => t.res == 0) = true := by decide +kernel
/-- W-04. -/
theorem test_gpwr_on : runsTo .gpwr (poweredOn .unknown 0) (fun t => t.res == 0x00010000) = true := by decide +kernel
/-- W-11: TPWR has no guard. -/
theorem test_tpwr_unpowered :
    runsTo .tpwr { State.reset with clock := 66000000 } (fun t => t.powerOnSince == some 66000000) = true := by decide +kernel
/-- W-07. -/
theorem test_cpwr_below :
    runsTo .cpwr { State.reset with powerOnSince := some 4000000, clock := 63999999 }
      (fun t => t.res == 0 && t.powerOnSince == some 4000000) = true := by decide +kernel
/-- W-08. -/
theorem test_cpwr_at :
    runsTo .cpwr { State.reset with powerOnSince := some 4000000, clock := 64000000 }
      (fun t => t.res == 0x00010000 && t.powerOnSince == none && t.clock == 65000000) = true := by decide +kernel

/-- C-01 to C-04: STATUS after a construction. -/
theorem test_construct_vectors :
    (match step { State.reset with status := 0, port := [.construct referenceCfg .ok] } with
      | .next t => t == State.reset | .fault _ => false | .refused _ => false) = true ∧
    (match step { State.reset with port := [.construct referenceCfg .acquireFails] } with
      | .next t => t.status == 0x02 | .fault _ => false | .refused _ => false) = true ∧
    (match step { State.reset with port := [.construct referenceCfg .mapFails] } with
      | .next t => t.status == 0x04 | .fault _ => false | .refused _ => false) = true ∧
    step { State.reset with port := [.construct { referenceCfg with kbdLine := 17 } .ok] } =
      .refused .rolesNotDistinct := by
  refine ⟨by decide +kernel, by decide +kernel, by decide +kernel, rfl⟩
/-- A word placed for the next step runs. -/
theorem test_withFetchWord :
    step (State.reset.withFetchWord 32 0x10000041) = .next { State.reset with res := 0x00000023 } := rfl
/-- R89: a quoted string is placed with its terminator, and the SSTR names its address. -/
theorem test_assemble :
    assemble referenceCfg 0x100 [.sstr (.quoted [0x41]) (some 0), .sraw (.name .ltrs), .wait 3] =
      [.fillText 0x100 0x41, .fillText 0x101 0x00, .command 0x40000100, .command 0x5000001F, .wait 3] := by decide +kernel

/-- A string that passes 0xFFFF in a TEXT of 2^17 bytes: SSTR reads on where the assembler placed it (log 34). -/
theorem test_assemble_passesTheOperand :
    placeString shippedCode 0xFFFF [0x61] = [.fillText 0xFFFF 0x61, .fillText 0x10000 0x00] ∧
    runsTo (.sstr 0xFFFF 0)
      (withText { poweredOn .letters 0 with platform := { referencePlatform with textAddrBits := 17 } } 0xFFFF [0x61, 0x62])
      (fun t => t.sent == [0x03, 0x19]) = true := by decide +kernel

/-- A TEXT of two letters and no terminator, and a command that waits behind the SSTR. -/
def endless : State :=
  { poweredOn .letters 0 with
    platform := { referencePlatform with textAddrBits := 1 }, text := [(0, 0x61), (1, 0x62)], port := [.command 0x90000000] }

/-- U22: the SSTR wraps, never returns and never faults, and the next command is not taken. -/
theorem test_sstr_hangs :
    runsTo (.sstr 1 0) endless (fun t =>
      t.sending == some ⟨1, 0⟩ && t.sent == [0x19, 0x03] &&
      (match step t with
        | .next u => u.sending == some ⟨1, 0⟩ && u.sent == [0x19, 0x03, 0x19, 0x03] && u.port == endless.port
        | .fault _ => false
        | .refused _ => false)) = true := by decide +kernel

/-! ### The hypotheses of the statements can be met -/

theorem witness_EncodeOfDecode : decode 0x71000000 = .ok (.rraw true) := by decide

theorem witness_StepRunsTheDecodedCommand :
    let s := { State.reset with port := [.command 0x5000001F] }
    s.sending = none ∧ s.port = .command 0x5000001F :: [] ∧ constructed s = true ∧ decode 0x5000001F = .ok (.sraw 0x1F) := by decide

theorem witness_UnspelledWordsAreRefused_unspelled :
    let s := { State.reset with port := [.command 0xC0000000] }
    s.sending = none ∧ s.port = .command 0xC0000000 :: [] ∧ wordSpellsCommand 0xC0000000 = false := by decide
theorem witness_UnspelledWordsAreRefused_notConstructed :
    let s := { State.reset with status := 0x02, port := [.command 0x90000000] }
    s.sending = none ∧ s.port = .command 0x90000000 :: [] ∧ constructed s = false := by decide

/-- The last instant the clock can hold. -/
theorem witness_HostWaitMovesOnlyTheClock :
    let s := { State.reset with clock := 2 ^ 64 - 6, port := [.wait 5] }
    s.sending = none ∧ s.port = .wait 5 :: [] ∧ s.clock + 5 < clockEnd s.platform := by decide

theorem witness_TextReadsBackWhatTheHostWrote :
    let s := { State.reset with text := [(0, 0x41), (0xFFFF, 0x42)], port := [.fillText 0x1FFFF 0x00] }
    s.sending = none ∧ s.port = .fillText 0x1FFFF 0x00 :: [] ∧ Memory.wf (textSize s.platform) s.text = true := by decide

theorem reference_wellConfigured : wellConfigured referencePlatform referenceCfg := by
  refine ⟨?_, ?_, ?_⟩ <;> decide +kernel

theorem witness_ConstructionGivesTheResetValues :
    let s := { State.reset with port := [.construct referenceCfg .ok] }
    s.sending = none ∧ s.port = .construct referenceCfg .ok :: [] ∧ wellConfigured s.platform referenceCfg :=
  ⟨rfl, rfl, reference_wellConfigured⟩

theorem witness_ConstructionFailureIsTaken :
    let s := fun bank => { State.reset with port := [.construct referenceCfg bank, .command 0x90000000] }
    (s .acquireFails).sending = none ∧ (s .mapFails).sending = none ∧
    (s .acquireFails).port = .construct referenceCfg .acquireFails :: [.command 0x90000000] ∧
    (s .mapFails).port = .construct referenceCfg .mapFails :: [.command 0x90000000] ∧
    wellConfigured State.reset.platform referenceCfg ∧ BankAnswer.acquireFails ≠ .ok ∧ BankAnswer.mapFails ≠ .ok :=
  ⟨rfl, rfl, rfl, rfl, reference_wellConfigured, by decide, by decide⟩

theorem witness_RepeatedRolesAreRefused :
    let c := { referenceCfg with pwrLine := 27 }
    let s := { State.reset with port := [.construct c .ok] }
    s.sending = none ∧ s.port = .construct c .ok :: [] ∧ c.rolesDistinct = false := by decide

/-- A role at the first line number the bank lacks; tables that fail R75 on a bank whose last line is a role; tables that
repeat a control code. -/
theorem witness_IllFormedConfigurationsAreRefused :
    let p := { referencePlatform with lineCount := 28 }
    let far := { referenceCfg with auxLine := 28 }
    let noApostrophe := { referenceCfg with code := { shippedCode with tblF := shippedCode.tblF.set 5 0x22 } }
    let repeated := { referenceCfg with code := { shippedCode with symLf := 0x08 } }
    let s := fun c => { State.reset with platform := p, port := [.construct c .ok] }
    (∀ c ∈ [far, noApostrophe, repeated],
      (s c).sending = none ∧ (s c).port = .construct c .ok :: [] ∧ c.rolesDistinct = true) ∧
    (∃ n ∈ [far.wrLine, far.kbdLine, far.pwrLine, far.auxLine], p.lineCount ≤ n.toNat) ∧
    (∀ c ∈ [noApostrophe, repeated], ∀ n ∈ [c.wrLine, c.kbdLine, c.pwrLine, c.auxLine], n.toNat < p.lineCount) ∧
    noApostrophe.code.check = false ∧ ¬ repeated.code.sharedSyms.Nodup := by decide +kernel

/-- A construction that changes the configuration, and a command that runs. -/
theorem witness_OnlyConstructionWritesTheConfiguration :
    (match step { State.reset with port := [.construct { referenceCfg with tSym := 2 } .ok] } with
      | .next t => t.cfg != State.reset.cfg | .fault _ => false | .refused _ => false) = true ∧
    (match step { State.reset with port := [.command 0x90000000] } with
      | .next _ => true | .fault _ => false | .refused _ => false) = true := by decide +kernel

theorem witness_LookupReturnsTheLowestIndex :
    lookup shippedCode .letters 0x71 = some 0x17 ∧ lookup shippedCode .figures 0x71 = none := by decide +kernel

/-- Level 3 against level 4, and the boundary at level 4. -/
theorem witness_FilterLevelsAreGraded :
    (3 : FilterLevel) ≤ 4 ∧ filterHit shippedCode 0x07 3 = true ∧ (4 : FilterLevel) ≤ 15 ∧ (4 : FilterLevel) ≤ 4 := by
  decide +kernel

/-- A filtered character, one of the first page, one of the other page, one of neither. -/
theorem witness_EncReturnsSymbolAndPage :
    filterHit shippedCode (fold shippedCode (lower 0x21)) 4 = true ∧
    tbl shippedCode .letters 0x03 = fold shippedCode (lower 0x41) ∧
    lookup shippedCode .letters (fold shippedCode (lower 0x35)) = none ∧
    tbl shippedCode .figures 0x10 = fold shippedCode (lower 0x35) ∧
    lookup shippedCode .letters 0x24 = none ∧ lookup shippedCode .figures 0x24 = none := by decide +kernel

/-- A character of the page; one of the other page; one that is filtered. -/
theorem witness_EncodeChangesPageOnlyWhenItMust :
    filterHit shippedCode (fold shippedCode (lower 0x41)) 0 = false ∧
    tbl shippedCode .letters 0x03 = fold shippedCode (lower 0x41) ∧
    (encodeChar shippedCode .letters (pageAlpha .letters) 0x35 0).2 ≠ .letters ∧
    (encodeChar shippedCode .letters (pageAlpha .letters) 0x0F 1).2 ≠ .letters := by decide +kernel

theorem witness_ShiftSymbolsDecodeToTheirOwnEntry : State.reset.cfg.code.controlsDistinct = true := by decide

theorem witness_DecodingWithoutShiftsKeepsAlpha :
    ∀ x ∈ [0x14#5, 0x00#5, 0x1E#5], isShift State.reset.cfg.code x = false := by decide

/-- Other tables than the shipped ones that pass the check: another placeholder. -/
def otherTables : CodeTables := { shippedCode with placeholderSym := 0x10 }

/-- One witness for each of the three cases: the returned page, a shared symbol on the other page, a shift symbol. -/
theorem witness_CodecRoundTrip :
    otherTables.check = true ∧
    (tbl otherTables .letters 0x03 = 0x61 ∧ fold otherTables (lower 0x41) = 0x61 ∧
      Alpha.letters = pageAlpha (encodeChar otherTables .letters .figures 0x41 0).2) ∧
    (tbl otherTables .letters 0x04 = 0x20 ∧ fold otherTables (lower 0x20) = 0x20 ∧
      (encodeChar otherTables .letters .letters 0x20 0).1 ∈ otherTables.sharedSyms ∧ Alpha.figures ≠ .unknown) ∧
    (tbl otherTables .letters 0x1B = 0x0E ∧ fold otherTables (lower 0x0E) = 0x0E ∧
      isShift otherTables (encodeChar otherTables .letters .unknown 0x0E 0).1 = true) := by decide +kernel

/-- A printable character at the column that wraps, on tables whose control codes differ. -/
theorem witness_SchrSendsTheSpecifiedSymbols :
    let s := poweredOn .letters 69
    s.cfg.code.controlsDistinct = true ∧
    runsTo (.schr 0x61 0) s (fun t => t.col == 1) = true := by decide +kernel

theorem witness_CarriageReturnIsDropped :
    let s := poweredOn .figures 5
    s.cfg.code = shippedCode ∧ (encodeChar s.cfg.code s.cfg.unknownOrder s.alpha 0x0D 4).1 = s.cfg.code.symCr := by
  decide +kernel

/-- The shipped tables; and other tables, with NUL and LF exchanged, on which LF is at 0x00. -/
theorem witness_LineFeedSendsCrThenLf :
    (poweredOn .figures 5).cfg.code = shippedCode ∧
    (let k := { shippedCode with
        tblL := (shippedCode.tblL.set 0 0x0A).set 2 0x00, tblF := (shippedCode.tblF.set 0 0x0A).set 2 0x00,
        symNull := 0x02, symLf := 0x00 }
     k.wellFormed = true ∧ (encodeChar k .letters .figures 0x0A 4).1 = k.symLf) := by decide +kernel

/-- A send that sends, and one that sends nothing. -/
theorem witness_SchrFrame :
    (∃ t, exec (.schr 0x41 0) State.reset = .next t ∧ t.sent ≠ State.reset.sent) ∧
    (∃ t, exec (.schr 0x0D 0) State.reset = .next t ∧ t.sent = State.reset.sent) := by
  constructor
  · obtain ⟨t, h, ht⟩ := runsTo_spec (i := .schr 0x41 0) (s := State.reset) (p := fun t => t.sent != State.reset.sent)
      (by decide +kernel)
    exact ⟨t, h, by simpa using ht⟩
  · obtain ⟨t, h, ht⟩ := runsTo_spec (i := .schr 0x0D 0) (s := State.reset) (p := fun t => t.sent == State.reset.sent)
      (by decide +kernel)
    exact ⟨t, h, by simpa using ht⟩

theorem witness_SstrIsTheSchrSequence :
    let s := withText State.reset 0xFFFF [0x41]
    textTerminated s.cfg.code s := ⟨0x0000, by decide +kernel⟩

theorem witness_SstrOfTheEmptyStringDoesNothing : 
    let s := withText State.reset 0x10 [0x41]
    textRead s (0x11 : TextAddr).toNat = s.cfg.code.terminator := by decide +kernel

theorem witness_SeventyPrintablesWrapOnce :
    (poweredOn .unknown 0).cfg.code.controlsDistinct = true ∧ (poweredOn .unknown 0).col = 0 ∧ (List.replicate 69 (0x61 : Chr)).length = 69 ∧
    ∀ x ∈ List.replicate 69 (0x61 : Chr) ++ [0x37], ∀ a,
      let r := encodeChar (poweredOn .unknown 0).cfg.code (poweredOn .unknown 0).cfg.unknownOrder a x 0
      printable (poweredOn .unknown 0).cfg.code r.1 r.2 = true := by
  refine ⟨by decide, by decide, by decide, ?_⟩
  intro x hx a
  have : x = 0x61 ∨ x = 0x37 := by
    rcases List.mem_append.mp hx with h | h
    · exact .inl (List.eq_of_mem_replicate h)
    · exact .inr (List.mem_singleton.mp h)
  rcases this with rfl | rfl <;> cases a <;> decide +kernel

theorem witness_AbFromTheUnknownPage :
    let s := withText State.reset 0x100 [0x41, 0x42]
    s.cfg.code = shippedCode ∧ s.alpha = .unknown ∧ s.col = 0 ∧ textRead s (0x100 : TextAddr).toNat = 0x41 ∧
    textRead s ((0x100 : TextAddr).toNat + 1) = 0x42 ∧ textRead s ((0x100 : TextAddr).toNat + 2) = 0x00 := by
  decide +kernel

/-- A decode, a reception with echo and a send that change ALPHA. -/
theorem witness_AlphaChangesOnlyByAShiftSymbol :
    runsTo (.dec 0x1B) State.reset (fun t => t.alpha != State.reset.alpha) = true ∧
    runsTo (.rraw true) { State.reset with kbd := [true, true, false, true, true] }
      (fun t => t.alpha != State.reset.alpha) = true ∧
    runsTo (.schr 0x35 0) State.reset (fun t => t.alpha != State.reset.alpha) = true := by decide +kernel

theorem witness_ColumnReturnsOnlyByACr :
    (poweredOn .letters 7).col ≠ 0 ∧
    runsTo (.schr 0x0A 0) (poweredOn .letters 7) (fun t => t.col == 0) = true := by decide +kernel

theorem witness_UnknownNeverReturns :
    (poweredOn .letters 7).alpha ≠ .unknown ∧
    runsTo (.schr 0x35 0) (poweredOn .letters 7) (fun _ => true) = true := by decide +kernel

/-- ALPHA is LETTERS and the last shift sent was the LETTERS shift; SCHR and SSTR run. -/
theorem witness_FilteredSendsKeepAlphaTrue :
    let s := { withText (poweredOn .letters 1) 0 [0x35] with sent := [0x1B, 0x1F, 0x03] }
    s.cfg.code.wellFormed = true ∧ (1 : FilterLevel) ≤ 1 ∧ AlphaTrueOfSent s.cfg.code s ∧
    runsTo (.schr 0x35 1) s (fun _ => true) = true ∧ runsTo (.sstr 0 1) s (fun _ => true) = true := by
  refine ⟨by decide +kernel, by decide, ?_, by decide +kernel, by decide +kernel⟩
  intro p hp
  cases p
  · rfl
  · cases hp

/-- With Sleeps that are up to 5 units longer. -/
def jittery (s : State) : State := { s with cfg := { referenceCfg with sleepJitter := 5 } }

/-- The page change and the payload of `A` from the unknown page, each ending at the last instant of the clock: powered
(740 000, R221) and unpowered (T_WARMUP + 740 000, R205). -/
theorem witness_SchrTakesTheTimeOfItsFrames :
    ExactTime { poweredOn .unknown 0 with clock := 2 ^ 64 - 1 - 740000 }
      (0 + ([0x00#5, 0x1F#5, 0x1F#5, 0x03#5].map (frameTime shippedCode referenceCfg)).sum) ∧
    ExactTime { State.reset with clock := 2 ^ 64 - 1 - 2740000 }
      (referenceCfg.tWarmup + ([0x00#5, 0x1F#5, 0x1F#5, 0x03#5].map (frameTime shippedCode referenceCfg)).sum) ∧
    FitsClock (jittery { State.reset with clock := 2 ^ 64 - 1 - 2740000 - 5 * 29 })
      (referenceCfg.tWarmup + ([0x00#5, 0x1F#5, 0x1F#5, 0x03#5].map (frameTime shippedCode referenceCfg)).sum) 29 ∧
    runsTo (.schr 0x41 0) State.reset (fun t => t.sent == [0x00, 0x1F, 0x1F, 0x03]) = true ∧
    runsTo (.schr 0x0D 0) State.reset (fun t => t.sent == []) = true := by
  refine ⟨⟨rfl, by decide +kernel⟩, ⟨rfl, by decide +kernel⟩, by unfold FitsClock; decide +kernel, by decide +kernel,
    by decide +kernel⟩

/-- Powered and unpowered, each ending at the last instant of the clock. -/
theorem witness_SrawLineTrace :
    ExactTime { poweredOn .unknown 0 with clock := 2 ^ 64 - 1 - 220000 }
      (0 + frameTime shippedCode referenceCfg 0x1F) ∧
    ExactTime { State.reset with clock := 2 ^ 64 - 1 - 2150000 }
      (referenceCfg.tWarmup + frameTime shippedCode referenceCfg 0x04) ∧
    FitsClock (jittery { State.reset with clock := 2 ^ 64 - 1 - 2150000 - 5 * 8 })
      (referenceCfg.tWarmup + frameTime shippedCode referenceCfg 0x04) 8 := by
  refine ⟨⟨rfl, by decide +kernel⟩, ⟨rfl, by decide +kernel⟩, by unfold FitsClock; decide +kernel⟩

theorem witness_StopIntervalIsLongAfterAShift :
    referenceCfg.stopNumNormal = 3 ∧ referenceCfg.stopDenNormal = 2 ∧ referenceCfg.stopMultShift = 5 := by decide

theorem witness_DsbPeeksWhenPowered : powered { poweredOn .unknown 0 with kbd := [false, true] } = true := by decide

theorem witness_DsbPowersOnWhenUnpowered :
    let s := { State.reset with clock := 2 ^ 64 - 1 - 2000000, kbd := [false, true] }
    powered s = false ∧ s.kbd = false :: [true] ∧ ExactTime s referenceCfg.tWarmup ∧
    FitsClock (jittery { s with clock := s.clock - 5 }) referenceCfg.tWarmup 1 := by
  refine ⟨rfl, rfl, ⟨rfl, by decide +kernel⟩, by unfold FitsClock; decide +kernel⟩

/-- Exactly five answers, and more than five. -/
theorem witness_RrawReceivesFiveSamples :
    ({ State.reset with kbd := [true, false, false, true, true] } : State).kbd = [true, false, false, true, true] ++ [] ∧
    ({ State.reset with kbd := [true, false, false, true, true, false] } : State).kbd =
      [true, false, false, true, true] ++ [false] := by decide

/-- Both framings of the echo, five answers, and the clock's last instants for the times. -/
theorem witness_RrawEchoMirrorsAndDecodes :
    State.reset.cfg.echoFraming = .startAndStop ∧
    ({ State.reset with kbd := [true, false, false, true, true, false] } : State).kbd =
      [true, false, false, true, true] ++ [false] ∧
    ({ State.reset with cfg := { referenceCfg with echoFraming := .dataOnly } } : State).cfg.echoFraming = .dataOnly ∧
    ExactTime { State.reset with clock := 2 ^ 64 - 1 - 150000 } 150000 ∧
    FitsClock (jittery { State.reset with clock := 2 ^ 64 - 1 - 150000 - 5 * 8 }) 150000 8 ∧
    (jittery State.reset).cfg.echoFraming = .startAndStop := by
  refine ⟨rfl, rfl, rfl, ⟨rfl, by decide +kernel⟩, by unfold FitsClock; decide +kernel, rfl⟩

theorem witness_RrawSampleTimes :
    ExactTime { State.reset with clock := 2 ^ 64 - 1 - 150000 }
      (referenceCfg.tSym / 2 + referenceCfg.tSym + 4 * referenceCfg.tSym + referenceCfg.rxTail + referenceCfg.rxMargin) ∧
    FitsClock (jittery { State.reset with clock := 2 ^ 64 - 1 - 150000 - 5 * 8 })
      (referenceCfg.tSym / 2 + referenceCfg.tSym + 4 * referenceCfg.tSym + referenceCfg.rxTail + referenceCfg.rxMargin)
      8 := by
  refine ⟨⟨rfl, by decide +kernel⟩, by unfold FitsClock; decide +kernel⟩

/-- T-05's symbol, 0x15: its frame from reset, received on a line with mark at level 0. -/
theorem witness_LoopBackIsTheIdentity :
    let r := { State.reset with
      cfg := { referenceCfg with kbdMarkLevel := false }, kbd := [false, true, false, true, false, true] }
    r.cfg.rxOrder = .firstToBit0 ∧
    runsTo (.sraw 0x15) State.reset
      (fun t => r.kbd == (lastFrameData t).map (fun mark => mark == r.cfg.kbdMarkLevel) ++ [true]) = true := by
  decide +kernel

theorem witness_SpwrCommandsTheRelay :
    ExactTime { State.reset with clock := 2 ^ 64 - 1 - 2000000 } referenceCfg.tWarmup ∧
    ExactTime { State.reset with clock := 2 ^ 64 - 1 - 1000000 } referenceCfg.tCooldown ∧
    FitsClock (jittery { State.reset with clock := 2 ^ 64 - 1 - 2000005 }) referenceCfg.tWarmup 1 ∧
    FitsClock (jittery { State.reset with clock := 2 ^ 64 - 1 - 1000005 }) referenceCfg.tCooldown 1 := by
  refine ⟨⟨rfl, by decide +kernel⟩, ⟨rfl, by decide +kernel⟩, by unfold FitsClock; decide +kernel,
    by unfold FitsClock; decide +kernel⟩

/-- Unpowered; and one unit below the threshold. -/
theorem witness_CpwrBelowTheThreshold :
    State.reset.powerOnSince = none ∧
    (let s := { State.reset with powerOnSince := some 4000000, clock := 63999999 }
     s.powerOnSince = some 4000000 ∧ (4000000 : Nat) ≤ s.clock ∧
     s.clock - 4000000 < s.cfg.idleThreshold) := by decide

/-- Exactly at the threshold. -/
theorem witness_CpwrAtTheThreshold :
    let s := { State.reset with powerOnSince := some 4000000, clock := 64000000 }
    s.powerOnSince = some 4000000 ∧ (4000000 : Nat) ≤ s.clock ∧
    s.cfg.idleThreshold ≤ s.clock - 4000000 ∧ ExactTime s s.cfg.tCooldown ∧ FitsClock (jittery s) s.cfg.tCooldown 1 := by
  refine ⟨rfl, by decide, by decide, ⟨rfl, by decide⟩, by unfold FitsClock; decide +kernel⟩

/-- Sixty seconds in a clock unit of 1 microsecond: one second short of the threshold, and at it. -/
theorem witness_CpwrReportsAtNSeconds :
    let s := fun now => { State.reset with powerOnSince := some 4000000, clock := now }
    nanoseconds (s 0).platform (s 0).cfg.idleThreshold = 60 * 1000000000 ∧
    nanoseconds (s 0).platform ((s 63000000).clock - 4000000) = (60 - 1) * 1000000000 ∧
    nanoseconds (s 0).platform ((s 64000000).clock - 4000000) = 60 * 1000000000 := by decide

/-- A powered block at column 69 with TEXT and results, whose next event is a command that wraps. -/
def busy : State :=
  { poweredOn .letters 69 with
    text := [(0, 0x41), (0xFFFF, 0x42)], res := 0x00023301, port := [.command 0x30000061] }

theorem witness_StepKeepsInv :
    Inv busy ∧ (match step busy with | .next _ => true | .fault _ => false | .refused _ => false) = true := by
  refine ⟨?_, by decide +kernel⟩
  constructor
  case configured => exact fun _ => reference_wellConfigured
  case sendingEndless => intro p h; cases h
  case stampFits => intro since h; cases h; decide
  all_goals decide +kernel

theorem witness_NoOperationWritesTheHostSide : runsTo (.sstr 0 0) busy (fun t => t.sent != busy.sent) = true := by
  decide +kernel

theorem witness_OnlyWriterAndPowerLinesAreCommanded :
    runsTo (.sraw 0x01) State.reset (fun t => t.trace != State.reset.trace) = true := by decide +kernel

theorem witness_WriterLineRestsAtMark :
    State.reset.cfg.rolesDistinct = true ∧ State.reset.cfg.echoFraming = .startAndStop ∧
    pinLevel State.reset.cfg.wrLine State.reset = some true ∧
    runsTo (.rraw true) { State.reset with kbd := [false, false, false, false, false] } (fun _ => true) = true := by
  decide +kernel

/-- A letter at every address of a list reads back. -/
theorem read_letters : ∀ (l : List Nat) (x : Nat), x ∈ l → Memory.read (l.map fun a => (a, 0x41)) x = 0x41
  | [], _, h => absurd h List.not_mem_nil
  | a :: l, x, h => by
    simp only [List.map_cons, Memory.read]
    split
    · rfl
    · next hne => exact read_letters l x ((List.mem_cons.mp h).resolve_left fun e => hne e.symm)

theorem no_terminator (l : List Nat) (hl : ∀ x < 2 ^ 16, x ∈ l) (x : Nat) :
    textRead { State.reset with text := l.map fun a => (a, 0x41) } x ≠ State.reset.cfg.code.terminator := by
  intro h
  exact absurd ((read_letters l _ (hl _ (Nat.mod_lt x (Nat.two_pow_pos 16)))).symm.trans h) (by decide)

/-- A TEXT with a letter at every address has no terminator; the empty TEXT has one everywhere. -/
theorem witness_OnlyUnterminatedTextHangs :
    ({ State.reset with text := (List.range (2 ^ 16)).map fun a => (a, 0x41) } : State).sending = none ∧
    (∀ x, textRead { State.reset with text := (List.range (2 ^ 16)).map fun a => (a, 0x41) } x ≠
      State.reset.cfg.code.terminator) ∧
    ¬ ∀ x, textRead State.reset x ≠ State.reset.cfg.code.terminator :=
  ⟨rfl, no_terminator _ fun _ h => List.mem_range.mpr h, fun h => h 0 rfl⟩

end Sys2Proof.Tests
end

section
/-! PROOFS. The defaults of R9 in the reset state (spec/00_scope.md). -/

namespace Sys2Proof.Proofs.Scope

open Sys2Proof Sys2Proof.Machine

/-- The reset state is constructed with the reference configuration (R200 step 3). -/
theorem reset_cfg : State.reset.cfg = referenceCfg := rfl

theorem reset_platform : State.reset.platform = referencePlatform := rfl

/-- One count of CLOCK_UNIT lasts the platform's CLOCK_UNIT (R10). -/
theorem nanoseconds_one (p : Platform) : nanoseconds p 1 = p.clockUnit := Nat.one_mul p.clockUnit

/-- Settles O15: the reset configuration and platform are the shipped records, and each field of theirs is R9's default. -/
theorem resetHasTheDefaultParameters : Obligations.ResetHasTheDefaultParameters := by
  simp only [Obligations.ResetHasTheDefaultParameters, reset_cfg, reset_platform, nanoseconds_one]
  have tables : referenceCfg.code = shippedCode := rfl
  rw [tables]
  refine ⟨?tblL, ?tblF, ?constants⟩
  case tblL => rfl
  case tblF => rfl
  case constants => simp [shippedCode, referenceCfg, referencePlatform]

end Sys2Proof.Proofs.Scope
end

section
/-! PROOFS. What one operation can do, said once: `Operates` holds of the eleven operations and composes, and the whole
machine's statements follow from it (spec/10_state.md R21 to R26, R33). -/

namespace Sys2Proof.Proofs.Operations

open Sys2Proof Sys2Proof.Machine

/-! ### RES (R33) -/

/-- RES's zero fields are zero and its PAGE is no page code 3, as `Inv` asks. -/
def LegalRes (r : BitVec 32) : Prop :=
  r.extractLsb' 18 14 = 0#14 ∧ r.getLsbD 7 = false ∧ resPage r ≠ 3#2

theorem resOfSymPage_legal (sym : Sym) (p : Page) : LegalRes (resOfSymPage sym p) := by
  unfold LegalRes
  cases p <;> revert sym <;> decide

theorem resOfFlag_legal (b : Bool) : LegalRes (resOfFlag b) := by
  unfold LegalRes
  cases b <;> decide

theorem resOfSym_fields (sym : Sym) :
    (resOfSym sym).extractLsb' 18 14 = 0#14 ∧ (resOfSym sym).getLsbD 7 = false ∧ resPage (resOfSym sym) = 0#2 ∧
    resSym (resOfSym sym) = sym := by
  revert sym; decide

theorem resOfChar_fields (c : Chr) :
    (resOfChar c).extractLsb' 18 14 = 0#14 ∧ (resOfChar c).getLsbD 7 = false ∧ resPage (resOfChar c) = 0#2 ∧
    resSym (resOfChar c) = 0 := by
  revert c; decide

theorem resOfSymChar_fields (sym : Sym) (c : Chr) :
    (resOfSymChar sym c).extractLsb' 18 14 = 0#14 ∧ (resOfSymChar sym c).getLsbD 7 = false ∧
    resPage (resOfSymChar sym c) = 0#2 ∧ resSym (resOfSymChar sym c) = sym := by
  obtain ⟨hz, hb, hp, hs⟩ := resOfSym_fields sym
  obtain ⟨hz', hb', hp', hs'⟩ := resOfChar_fields c
  simp only [resPage, resSym] at hp hs hp' hs' ⊢
  simp only [resOfSymChar, BitVec.extractLsb'_or, BitVec.getLsbD_or, hz, hb, hp, hs, hz', hb', hp', hs', BitVec.or_self,
    Bool.or_self]
  simp

theorem legalRes_of_fields {r : BitVec 32} {sym : Sym} (h : r.extractLsb' 18 14 = 0#14 ∧ r.getLsbD 7 = false ∧
    resPage r = 0#2 ∧ resSym r = sym) : LegalRes r := by
  obtain ⟨hz, hb, hp, -⟩ := h
  exact ⟨hz, hb, by rw [hp]; decide⟩

/-! ### The relation -/

/-- From `s` to `t` the block decoded the symbols `decoded` and sent the symbols `sent`: what it may have written meanwhile
(R21 to R26), and what it leaves alone (R26, R64, R66). -/
structure Operates (decoded sent : List Sym) (s t : State) : Prop where
  cfg : t.cfg = s.cfg
  platform : t.platform = s.platform
  status : t.status = s.status
  port : t.port = s.port
  text : t.text = s.text
  /-- ALPHA moves only with a shift symbol, and never to UNKNOWN (R21, R25 I-A). -/
  page : t.alpha = s.alpha ∨ (t.alpha ≠ .unknown ∧ ∃ sym ∈ decoded ++ sent, isShift s.cfg.code sym = true)
  /-- COL stays within the line (R22). -/
  colBound : s.cfg.code.controlsDistinct = true → s.col ≤ 69 → t.col ≤ 69
  /-- COL returns to 0 only with a CR (R25 I-B). -/
  colReturn : s.cfg.code.symCr ∉ sent → s.col ≠ 0 → t.col ≠ 0
  res : t.res = s.res ∨ LegalRes t.res
  sends : t.sent = s.sent ++ sent
  lines : ∃ cmds, Commands cmds s t ∧ ∀ e ∈ cmds, e.line = s.cfg.wrLine ∨ e.line = s.cfg.pwrLine
  clock : t.clock = s.clock ∨ t.clock < clockEnd s.platform
  /-- A new timestamp is a reading of the clock: the one now, or one after a Sleep (R23). -/
  stamp : ∀ since, t.powerOnSince = some since →
    s.powerOnSince = some since ∨ since = s.clock ∨ since < clockEnd s.platform
  /-- An operation still runs afterwards only on a TEXT without a terminator (R127, R214). -/
  sending : t.sending = s.sending ∨
    ∃ p, t.sending = some p ∧ p.tp < textSize s.platform ∧ ∀ x, textRead s x ≠ s.cfg.code.terminator

theorem Operates.refl (s : State) : Operates [] [] s s where
  cfg := rfl
  platform := rfl
  status := rfl
  port := rfl
  text := rfl
  page := .inl rfl
  colBound := fun _ h => h
  colReturn := fun _ h => h
  res := .inl rfl
  sends := (List.append_nil _).symm
  lines := ⟨[], Commands.refl rfl rfl, by simp⟩
  clock := .inl rfl
  stamp := fun _ h => .inl h
  sending := .inl rfl

theorem Operates.trans {d e l m : List Sym} {s t u : State} (h : Operates d l s t) (h' : Operates e m t u) :
    Operates (d ++ e) (l ++ m) s u where
  cfg := h'.cfg.trans h.cfg
  platform := h'.platform.trans h.platform
  status := h'.status.trans h.status
  port := h'.port.trans h.port
  text := h'.text.trans h.text
  page := by
    have hpage' := h'.page
    rw [h.cfg] at hpage'
    have hfirst : d ++ l ⊆ d ++ e ++ (l ++ m) := fun x => by
      simp only [List.mem_append]; tauto
    have hsecond : e ++ m ⊆ d ++ e ++ (l ++ m) := fun x => by
      simp only [List.mem_append]; tauto
    rcases hpage' with same | ⟨known, sym, hmem, hshift⟩
    · rw [same]
      exact h.page.imp_right fun ⟨known, sym, hmem, hshift⟩ => ⟨known, sym, hfirst hmem, hshift⟩
    · exact .inr ⟨known, sym, hsecond hmem, hshift⟩
  colBound := fun hd hc => h'.colBound (by rw [h.cfg]; exact hd) (h.colBound hd hc)
  colReturn := by
    intro hcr hc
    obtain ⟨hl, hm⟩ := not_or.mp (mt List.mem_append.mpr hcr)
    exact h'.colReturn (by rw [h.cfg]; exact hm) (h.colReturn hl hc)
  res := by
    rcases h'.res with same | legal
    · rw [same]; exact h.res
    · exact .inr legal
  sends := by rw [h'.sends, h.sends, List.append_assoc]
  lines := by
    obtain ⟨cmds, hc, hl⟩ := h.lines
    obtain ⟨cmds', hc', hl'⟩ := h'.lines
    rw [h.cfg] at hl'
    exact ⟨cmds ++ cmds', hc.trans hc', fun e he => (List.mem_append.mp he).elim (hl e) (hl' e)⟩
  clock := by
    rcases h'.clock with same | fits
    · rw [same]; exact h.clock
    · exact .inr (h.platform ▸ fits)
  stamp := by
    intro since hu
    rcases h'.stamp since hu with old | now | fits
    · exact h.stamp since old
    · exact .inr (h.clock.imp now.trans fun hlt => now ▸ hlt)
    · exact .inr (.inr (h.platform ▸ fits))
  sending := by
    rcases h'.sending with same | ⟨p, hp, htp, hx⟩
    · rw [same]; exact h.sending
    · rw [h.platform] at htp
      simp only [textRead_congr h.text h.platform, h.cfg] at hx
      exact .inr ⟨p, hp, htp, hx⟩

theorem Operates.keepsHostSide {d l : List Sym} {s t : State} (h : Operates d l s t) : KeepsHostSide s t :=
  ⟨h.cfg, h.platform, h.status, h.port, textRead_congr h.text h.platform⟩

/-! ### The parts of an operation -/

/-- What neither moves the tracker nor writes RES, and sends nothing: the power controller's parts (R161, R164). -/
theorem operates_of_quiet {s t : State} (q : Quiet s t) (hsent : t.sent = s.sent)
    (hlines : ∃ cmds, Commands cmds s t ∧ ∀ e ∈ cmds, e.line = s.cfg.wrLine ∨ e.line = s.cfg.pwrLine)
    (hclock : t.clock = s.clock ∨ t.clock < clockEnd s.platform)
    (hstamp : ∀ since, t.powerOnSince = some since → s.powerOnSince = some since ∨ since = s.clock) :
    Operates [] [] s t where
  cfg := q.cfg
  platform := q.platform
  status := q.status
  port := q.port
  text := q.text
  page := .inl q.alpha
  colBound := fun _ hc => q.col ▸ hc
  colReturn := fun _ hc => q.col ▸ hc
  res := .inl q.res
  sends := by rw [hsent, List.append_nil]
  lines := hlines
  clock := hclock
  stamp := fun since h => (hstamp since h).imp_right .inl
  sending := .inl q.sending

theorem setRes_operates {r : BitVec 32} (h : LegalRes r) (s : State) : Operates [] [] s (setRes r s) :=
  { Operates.refl s with res := .inr h }

theorem lineGet_operates (n : LineNo) (s : State) : Operates [] [] s (lineGet n s) :=
  { Operates.refl s with }

theorem powerTouch_operates (s : State) : Operates [] [] s (powerTouch s) :=
  { Operates.refl s with stamp := fun _ h => .inr (.inl (Option.some.inj h).symm) }

theorem lineCommand_operates {n : LineNo} {s : State} (hn : n = s.cfg.wrLine ∨ n = s.cfg.pwrLine) (v : Bool) :
    Operates [] [] s (lineCommand n v s) :=
  { Operates.refl s with
    lines := ⟨_, lineCommand_commands n v s, fun _ he => List.mem_singleton.mp he ▸ hn⟩ }

theorem setSending_operates {tp : Nat} {s : State} (htp : tp < textSize s.platform)
    (hx : ∀ x, textRead s x ≠ s.cfg.code.terminator) (f : FilterLevel) :
    Operates [] [] s (setSending (some ⟨tp, f⟩) s) :=
  { Operates.refl s with sending := .inr ⟨_, rfl, htp, hx⟩ }

/-- Decode moves ALPHA only for a shift symbol (R107, R110). -/
theorem decodeSym_operates (sym : Sym) (s : State) : Operates [sym] [] s (decodeSym s.cfg.code sym s) :=
  { Operates.refl s with
    page := by
      show decodeAlpha s.cfg.code s.alpha sym = s.alpha ∨ (decodeAlpha s.cfg.code s.alpha sym ≠ .unknown ∧ _)
      cases hshift : isShift s.cfg.code sym
      case false => exact .inl (decodeAlpha_of_not_shift hshift)
      case true =>
        refine .inr ⟨?_, sym, by simp, hshift⟩
        unfold decodeAlpha
        simp only [isShift, Bool.or_eq_true, beq_iff_eq] at hshift
        split
        · simp
        · next hltrs => simp [hshift.resolve_left hltrs] }

/-- SetPower (R161). -/
theorem setPower_operates (on : Bool) (s : State) : Operates [] [] s (setPower on s) := by
  obtain ⟨q, hsent, hstamp, hcmds, -⟩ := setPower_spec on s
  refine operates_of_quiet q hsent ⟨_, hcmds, by simp⟩ (.inr ?_) fun since h => .inr ?_
  · cases on <;> exact sleep_clock_lt _ (setPowerOnSince _ (lineCommand _ _ s))
  · rw [hstamp] at h
    cases on with
    | false => cases h
    | true => exact (Option.some.inj h).symm

theorem autoPowerOn_operates (s : State) : Operates [] [] s (autoPowerOn s) := by
  unfold autoPowerOn
  split
  · exact Operates.refl s
  · exact setPower_operates true s

/-- Echo drives the writer line alone (R149). -/
theorem echoFrame_line {c : Cfg} {start stop : Nat} {es : List LineEvent} {e : LineEvent}
    (h : e ∈ echoFrame c start stop es) : e.line = c.wrLine := by
  have hecho : ∀ e ∈ echoCommands c es, e.line = c.wrLine := by simp [echoCommands]
  unfold echoFrame at h
  split at h
  · simp only [List.mem_cons, List.mem_append, List.not_mem_nil, or_false] at h
    rcases h with rfl | hdata | rfl
    · rfl
    · exact hecho e hdata
    · rfl
  · exact hecho e h

/-- ReceiveRaw (R147). -/
theorem receiveFrame_operates (echo : Bool) (s : State) : Operates [] [] s (receiveFrame echo s).2 := by
  obtain ⟨es, start, stop, -, -, -, -, q, -, hcmds, -⟩ := receiveFrame_spec echo s
  refine { Operates.refl s with
    cfg := q.cfg, platform := q.platform, status := q.status, port := q.port, text := q.text
    page := .inl q.alpha, colBound := fun _ hc => q.col ▸ hc, colReturn := fun _ hc => q.col ▸ hc
    res := .inl q.res, sends := by rw [q.sent, List.append_nil]
    lines := ⟨_, hcmds, fun e he => .inl ?_⟩
    clock := .inr ?_
    stamp := fun _ h => .inl (q.powerOnSince ▸ h), sending := .inl q.sending }
  · cases echo with
    | false => simp at he
    | true => exact echoFrame_line he
  · rw [← q.platform]
    exact sleep_clock_lt _ _

/-! ### The line discipline -/

/-- A sending is an operation when the tracker follows it. -/
theorem operates_of_sends {l : List Sym} {s t : State} (h : Sends s.cfg.code l s t)
    (hpage : t.alpha = s.alpha ∨ (t.alpha ≠ .unknown ∧ ∃ sym ∈ l, isShift s.cfg.code sym = true))
    (hbound : s.cfg.code.controlsDistinct = true → s.col ≤ 69 → t.col ≤ 69)
    (hreturn : s.cfg.code.symCr ∉ l → s.col ≠ 0 → t.col ≠ 0) : Operates [] l s t where
  cfg := h.cfg
  platform := h.platform
  status := h.status
  port := h.port
  text := h.text
  page := hpage
  colBound := hbound
  colReturn := hreturn
  res := .inl h.res
  sends := h.sent
  lines := by
    obtain ⟨cmds, hc, hl⟩ := h.lines
    exact ⟨cmds, hc, fun e he => (hl e he).imp_right And.right⟩
  clock := by
    by_cases hl : l = []
    · exact .inl (h.untouched hl).2.1
    · exact .inr (h.clockFits hl)
  stamp := by
    intro since ht
    by_cases hl : l = []
    · exact .inl ((h.untouched hl).1 ▸ ht)
    · have hnow := h.stamped hl
      rw [ht, Option.some.injEq] at hnow
      exact .inr (.inr (hnow ▸ h.clockFits hl))
  sending := .inl h.sending

/-- SendRaw (R141) moves no tracker (R154). -/
theorem sendRaw_operates (sym : Sym) (s : State) : Operates [] [sym] s (sendRaw s.cfg.code sym s) :=
  operates_of_sends (sendRaw_sends _ sym s) (.inl (sendRaw_alpha _ sym s)) (fun _ hc => (sendRaw_col _ sym s) ▸ hc)
    (fun _ hc => (sendRaw_col _ sym s) ▸ hc)

theorem shiftOf_isShift (k : CodeTables) (p : Page) : isShift k (shiftOf k p) = true := by
  cases p <;> simp [isShift, shiftOf]

/-- SCHR moves ALPHA only to the page whose shift symbol it sends (R120, R124). -/
theorem sendEncoded_page (k : CodeTables) (sym : Sym) (p : Page) (s : State) :
    (sendEncoded k sym p s).alpha = s.alpha ∨ ((sendEncoded k sym p s).alpha ≠ .unknown ∧
      ∃ x ∈ schrSyms k sym p s.alpha s.col, isShift k x = true) := by
  rw [sendEncoded_alpha]
  split
  · exact .inl rfl
  · next hctl =>
    obtain ⟨hcr, hlf⟩ := not_or.mp hctl
    by_cases hp : pageAlpha p = s.alpha
    · exact .inl hp
    · refine .inr ⟨by cases p <;> simp [pageAlpha], shiftOf k p, ?_, shiftOf_isShift k p⟩
      simp [schrSyms, hcr, hlf, shiftSyms, hp]

theorem sendEncoded_col_le {k : CodeTables} (h : k.controlsDistinct = true) (sym : Sym) (p : Page) {s : State}
    (hc : s.col ≤ 69) : (sendEncoded k sym p s).col ≤ 69 := by
  rw [sendEncoded_col (distinctControls h), wrapCol]
  split
  · exact hc
  · split
    · decide
    · by_cases hprint : printable k sym p = true
      · simp only [hprint, true_and, if_true]
        split <;> bv_omega
      · simpa [hprint] using hc

/-- A page change that sends no CR keeps COL, whatever the tables (R121, R124). -/
theorem changePageIfDue_col_of_no_cr {k : CodeTables} {p : Page} {s : State} (h : k.symCr ∉ shiftSyms k p s.alpha) :
    (changePageIfDue k p s).col = s.col := by
  unfold changePageIfDue
  unfold shiftSyms at h
  split
  · next hdue =>
    simp only [if_pos hdue, List.mem_cons, List.not_mem_nil, or_false, or_self, not_or] at h
    obtain ⟨hnull, hshift⟩ := h
    simp [changePage, colAfter, Ne.symm hnull, Ne.symm hshift, advances, shiftOf_isShift]
  · rfl

/-- SCHR that sends no CR does not return the cursor, whatever the tables: its payload is sent before column 69 or does not
move the cursor (R121, R123). -/
theorem sendEncoded_col_ne_zero {k : CodeTables} {sym : Sym} {p : Page} {s : State}
    (h : k.symCr ∉ schrSyms k sym p s.alpha s.col) (hc : s.col ≠ 0) : (sendEncoded k sym p s).col ≠ 0 := by
  unfold sendEncoded
  unfold schrSyms at h
  split_ifs at h ⊢ with hcr hlf
  · exact hc
  · simp at h
  · simp only [List.mem_append, not_or] at h
    obtain ⟨⟨hwrap, hshift⟩, -⟩ := h
    have hnot : ¬ (printable k sym p && decide (wrapCol ≤ s.col)) = true := fun hdue => by
      simp [wrapSyms, hdue] at hwrap
    rw [wrapIfDue, if_neg hnot, emit_col, changePageIfDue_alpha, changePageIfDue_col_of_no_cr hshift,
      colAfter_payload hcr]
    by_cases hprint : printable k sym p = true
    · have hbefore : ¬ (69 : Col) ≤ s.col := fun hle => hnot (by rw [hprint]; exact decide_eq_true hle)
      simp only [hprint, if_true]
      bv_omega
    · simpa [hprint] using hc

/-- SCHR (R120). -/
theorem sendChar_operates (c : Chr) (f : FilterLevel) (s : State) :
    ∃ l, Operates [] l s (sendChar s.cfg.code c f s) :=
  ⟨_, operates_of_sends (sendEncoded_sends _ _ _ s) (sendEncoded_page _ _ _ s)
    (fun h => sendEncoded_col_le h _ _) sendEncoded_col_ne_zero⟩

/-- SCHR of one character after the other (R127). -/
theorem sendChars_operates {k : CodeTables} (f : FilterLevel) : ∀ (cs : List Chr) (s : State), s.cfg.code = k →
    ∃ l, Operates [] l s (cs.foldl (fun u c => sendChar k c f u) s)
  | [], s, _ => ⟨[], Operates.refl s⟩
  | c :: cs, s, hk => by
    subst hk
    obtain ⟨l, hl⟩ := sendChar_operates c f s
    obtain ⟨m, hm⟩ := sendChars_operates f cs (sendChar s.cfg.code c f s) (by rw [hl.cfg])
    exact ⟨l ++ m, hl.trans hm⟩

/-- A round of SSTR (R127, R214). -/
theorem sendStringRound_operates (tp : Nat) (f : FilterLevel) (s : State) :
    ∃ l, Operates [] l s (sendStringRound tp f s) := by
  obtain ⟨u, -, hu, -, hround⟩ := sendStringRound_spec tp f s
  obtain ⟨l, hl⟩ := sendChars_operates f (stringAt s.cfg.code s (textSize s.platform) tp) s rfl
  rw [← hu] at hl
  rcases hround with ⟨-, hround⟩ | ⟨hendless, hround⟩
  · exact ⟨l, hround ▸ hl⟩
  · have hrun : Operates [] [] u (setSending (some ⟨textIndex s.platform tp, f⟩) u) :=
      setSending_operates (by rw [hl.platform]; exact textIndex_lt _ _)
        (fun x => by rw [textRead_congr hl.text hl.platform, hl.cfg]; exact hendless x) f
    exact ⟨_, hround ▸ hl.trans hrun⟩

/-! ### The eleven operations -/

/-- The symbols an operation decodes: DEC's operand, and what RRAW with echo leaves in RES (R106, R150). -/
def decodedBy (i : Instr) (t : State) : List Sym :=
  match i with
  | .dec sym => [sym]
  | .rraw true => [resSym t.res]
  | _ => []

theorem mem_decodedBy {i : Instr} {t : State} {sym : Sym} (h : sym ∈ decodedBy i t) :
    i = .dec sym ∨ (i = .rraw true ∧ sym = resSym t.res) := by
  unfold decodedBy at h
  split at h
  · exact .inl (by rw [List.mem_singleton.mp h])
  · exact .inr ⟨rfl, List.mem_singleton.mp h⟩
  · simp at h

/-- Everything an operation can do (R81). -/
theorem exec_operates {i : Instr} {s t : State} (h : exec i s = .next t) : ∃ l, Operates (decodedBy i t) l s t := by
  cases i with
  | enc c f => cases h; exact ⟨_, setRes_operates (resOfSymPage_legal _ _) s⟩
  | dec sym =>
    cases h
    exact ⟨_, (decodeSym_operates sym s).trans (setRes_operates (legalRes_of_fields (resOfChar_fields _)) _)⟩
  | schr c f => cases h; exact sendChar_operates c f s
  | sstr a f => cases h; exact sendStringRound_operates _ f s
  | sraw sym => cases h; exact ⟨_, sendRaw_operates sym s⟩
  | dsb =>
    cases h
    exact ⟨_, ((autoPowerOn_operates s).trans (lineGet_operates _ _)).trans (setRes_operates (resOfFlag_legal _) _)⟩
  | rraw echo =>
    have hframe := receiveFrame_operates echo s
    cases echo with
    | false =>
      cases (execRraw_plain s).symm.trans h
      exact ⟨_, (hframe.trans (powerTouch_operates _)).trans
        (setRes_operates (legalRes_of_fields (resOfSym_fields _)) _)⟩
    | true =>
      cases (execRraw_echo s).symm.trans h
      have hdec := decodeSym_operates (receiveFrame true s).1 (receiveFrame true s).2
      rw [hframe.cfg] at hdec
      simp only [decodedBy, setRes_res, (resOfSymChar_fields _ _).2.2.2]
      exact ⟨_, ((hframe.trans hdec).trans (powerTouch_operates _)).trans
        (setRes_operates (legalRes_of_fields (resOfSymChar_fields _ _)) _)⟩
  | spwr on => cases h; exact ⟨_, setPower_operates on s⟩
  | gpwr => cases h; exact ⟨_, setRes_operates (resOfFlag_legal _) s⟩
  | tpwr => cases h; exact ⟨_, powerTouch_operates s⟩
  | cpwr =>
    simp only [exec, execCpwr] at h
    split at h
    · cases h
      exact ⟨_, (setPower_operates false s).trans (setRes_operates (resOfFlag_legal _) _)⟩
    · cases h
      exact ⟨_, setRes_operates (resOfFlag_legal _) s⟩

end Sys2Proof.Proofs.Operations
end

section
/-! PROOFS. The state of the block (spec/10_state.md): what an operation leaves unchanged, how ALPHA and COL move, who writes
the configuration, the transmitter's two descriptions, and the invariant of the machine. -/

namespace Sys2Proof.Proofs.BlockState

open Sys2Proof Sys2Proof.Machine Sys2Proof.Proofs.Operations

/-! ### The next event of the host (R193) -/

/-- A step of a block that runs no SSTR is its next event (R30, R193). -/
theorem step_event {s : State} {e : HostEvent} {es : List HostEvent} (hs : s.sending = none) (hp : s.port = e :: es) :
    step s = runEvent e (setPort es s) := by
  simp only [step, takeEvent, hs, hp]

/-- Settles O5: the event is the command word, which decodes on a constructed block. -/
theorem stepRunsTheDecodedCommand : Obligations.StepRunsTheDecodedCommand := by
  intro s w es i hs hp hc hd
  have hc' : constructed (setPort es s) = true := hc
  rw [step_event hs hp]
  simp only [runEvent, runCommand, hc', hd, if_true]
  rfl

/-- Settles O7: the sum fits the clock. -/
theorem hostWaitMovesOnlyTheClock : Obligations.HostWaitMovesOnlyTheClock := by
  intro s d es hs hp hfit
  rw [step_event hs hp]
  simp only [runEvent, setPort_platform, setPort_clock, advance_eq hfit]
  rfl

/-- Settles O11: the roles are the first thing a construction checks (R200). -/
theorem repeatedRolesAreRefused : Obligations.RepeatedRolesAreRefused := by
  intro s c bank es hs hp hroles
  rw [step_event hs hp]
  simp only [runEvent, construct, hroles, Bool.not_false, if_true]

/-- The bank has every role line of a configuration (R35). -/
theorem hasLines_iff {p : Platform} {c : Cfg} :
    p.hasLines c = true ↔ ∀ n ∈ [c.wrLine, c.kbdLine, c.pwrLine, c.auxLine], n.toNat < p.lineCount := by
  simp only [Platform.hasLines, List.all_eq_true, decide_eq_true_eq]

/-- Tables that fail R75's check or repeat a shared control code are ill formed (R75, R108). -/
theorem wellFormed_eq_false {k : CodeTables} (h : k.check = false ∨ ¬ k.sharedSyms.Nodup) : k.wellFormed = false := by
  rcases h with h | h
  · simp only [CodeTables.wellFormed, h, Bool.false_and]
  · simp only [CodeTables.wellFormed, CodeTables.controlsDistinct, decide_eq_false h, Bool.and_false]

/-- Settles O12: after the roles come the bank's lines, then the tables. -/
theorem illFormedConfigurationsAreRefused : Obligations.IllFormedConfigurationsAreRefused := by
  intro s c bank es hs hp hroles
  rw [step_event hs hp]
  constructor
  · rintro ⟨n, hmem, hout⟩
    have hlines : s.platform.hasLines c = false :=
      Bool.eq_false_iff.mpr fun h => absurd (hasLines_iff.mp h n hmem) (Nat.not_lt.mpr hout)
    simp [runEvent, construct, hroles, hlines]
  · intro hin hcode
    have hlines : s.platform.hasLines c = true := hasLines_iff.mpr hin
    simp [runEvent, construct, hroles, hlines, wellFormed_eq_false hcode]

/-! ### Frames of the operations -/

/-- Settles O58. -/
theorem noOperationWritesTheHostSide : Obligations.NoOperationWritesTheHostSide := by
  intro i s t h
  obtain ⟨l, hop⟩ := exec_operates h
  exact hop.keepsHostSide

/-- Settles O29: SCHR sends some symbols, and is the identity when there are none. -/
theorem schrFrame : Obligations.SchrFrame := by
  intro s t c f h
  obtain ⟨syms, hs, hnone⟩ := sendChar_sends s.cfg.code c f s
  cases h
  refine ⟨hs.res, hs.hostSide, ⟨hs.kbd, hs.samples⟩, hs.keepsOther, fun hsent => ?_, fun hsent => ?_⟩
  · refine hs.stamped fun hnil => hsent ?_
    rw [hs.sent, hnil, List.append_nil]
  · rw [hs.sent, List.append_right_eq_self] at hsent
    exact hnone hsent

/-! ### The tracker (R21, R22, R25) -/

/-- Settles O35: ALPHA moves only with a shift symbol, decoded or sent. -/
theorem alphaChangesOnlyByAShiftSymbol : Obligations.AlphaChangesOnlyByAShiftSymbol := by
  intro i s t h hmoved
  obtain ⟨l, hop⟩ := exec_operates h
  obtain ⟨-, sym, hmem, hshift⟩ := hop.page.resolve_left hmoved
  rcases List.mem_append.mp hmem with hdec | hsent
  · rcases mem_decodedBy hdec with hi | ⟨hi, hsym⟩
    · exact .inl ⟨sym, hi, hshift⟩
    · exact .inr (.inl ⟨hi, hsym ▸ hshift⟩)
  · exact .inr (.inr ⟨l, sym, hop.sends, hsent, hshift⟩)

/-- Settles O36: an operation that sends no CR keeps COL off 0. -/
theorem columnReturnsOnlyByACr : Obligations.ColumnReturnsOnlyByACr := by
  intro i s t h hs ht
  obtain ⟨l, hop⟩ := exec_operates h
  exact ⟨l, hop.sends, not_not.mp fun hcr => hop.colReturn hcr hs ht⟩

/-- Settles O37. -/
theorem unknownNeverReturns : Obligations.UnknownNeverReturns := by
  intro i s t h hs
  obtain ⟨l, hop⟩ := exec_operates h
  rcases hop.page with same | ⟨known, -⟩
  · exact same ▸ hs
  · exact known

/-! ### The shift-register transmitter (R31) -/

/-- The data slot of the register shifted `n` places drives bit `n` of the symbol. -/
theorem shifted_bit (sym : Sym) (n : Nat) : (sym >>> n).getLsbD 0 = sym.getLsbD n := by
  rw [BitVec.getLsbD_ushiftRight, Nat.add_zero]

@[simp] theorem slot_cfg (v : Bool) (d : Nat) (s : State) : (slot v d s).cfg = s.cfg := rfl

@[simp] theorem sendBits_cfg (sym : Sym) (s : State) : (sendBits sym s).cfg = s.cfg := by
  simp only [sendBits, List.foldl_cons, List.foldl_nil, slot_cfg]

/-- Seven slots of the shift register are the seven slots of the loop: start, the five bits, stop. -/
theorem txSlot_seven (d : Nat) (sym : Sym) (s : State) :
    ((txSlot d)^[7] (⟨sym, .start⟩, s)).2 = slot true d (sendBits sym (slot false s.cfg.tSym s)) := by
  simp only [Function.iterate_succ_apply, Function.iterate_zero, id, txSlot, TxPhase.after, ← BitVec.shiftRight_add,
    shifted_bit, sendBits, List.foldl_cons, List.foldl_nil]

/-- Settles O43: the two differ only in what drives the slots. -/
theorem shiftRegisterSendsTheSameFrame : Obligations.ShiftRegisterSendsTheSameFrame := by
  intro k sym s
  simp only [sendRawShifting, txSlot_seven, sendRaw, slot_cfg, sendBits_cfg]

/-! ### The configuration (R35, R37, R64) -/

/-- A construction keeps the platform, and writes the configuration only when it succeeds (R200). -/
theorem construct_cfg {c : Cfg} {bank : BankAnswer} {s t : State} (h : construct c bank s = .next t) :
    t.platform = s.platform ∧ (t.cfg ≠ s.cfg → bank = .ok ∧ t.cfg = c ∧ wellConfigured s.platform c) := by
  obtain ⟨hw, ⟨hb, rfl⟩ | ⟨-, rfl⟩ | ⟨-, rfl⟩⟩ := construct_next h
  · exact ⟨rfl, fun _ => ⟨hb, rfl, hw⟩⟩
  · exact ⟨rfl, fun hne => absurd rfl hne⟩
  · exact ⟨rfl, fun hne => absurd rfl hne⟩

/-- Settles O13: of the events a step can take only a construction writes the configuration. -/
theorem onlyConstructionWritesTheConfiguration : Obligations.OnlyConstructionWritesTheConfiguration := by
  intro s t h
  rcases step_cases h with ⟨p, -, rfl⟩ | ⟨-, ⟨-, rfl⟩ | ⟨c, bank, es, hp, hc⟩ | ⟨w, es, i, -, -, -, he⟩ |
    ⟨d, es, -, rfl⟩ | ⟨a, b, es, -, rfl⟩⟩
  · -- another round of an SSTR that hangs
    obtain ⟨l, hop⟩ := sendStringRound_operates p.tp p.filter (setSending none s)
    exact ⟨hop.platform, fun hne => absurd hop.cfg hne⟩
  · -- no event
    exact ⟨rfl, fun hne => absurd rfl hne⟩
  · -- a construction
    obtain ⟨hplat, hcfg⟩ := construct_cfg hc
    refine ⟨hplat, fun hne => ?_⟩
    obtain ⟨rfl, heq, hw⟩ := hcfg hne
    exact ⟨c, es, hp, heq, hw⟩
  · -- a command
    obtain ⟨l, hop⟩ := exec_operates he
    exact ⟨hop.platform, fun hne => absurd hop.cfg hne⟩
  · -- a wait
    exact ⟨rfl, fun hne => absurd rfl hne⟩
  · -- a byte of TEXT
    exact ⟨rfl, fun hne => absurd rfl hne⟩

/-! ### The invariant of the machine -/

/-- An operation of a constructed block keeps the invariant. -/
theorem inv_of_operates {d l : List Sym} {s t : State} (h : Inv s) (hc : constructed s = true)
    (hop : Operates d l s t) : Inv t := by
  obtain ⟨-, hbank, hcode⟩ := h.configured hc
  have hdistinct : s.cfg.code.controlsDistinct = true := (Bool.and_eq_true_iff.mp hcode).2
  have hc' : constructed t = true := by rw [constructed, hop.status]; exact hc
  obtain ⟨cmds, hcmds, hroles⟩ := hop.lines
  constructor
  case colAtMost69 => exact hop.colBound hdistinct h.colAtMost69
  case textCanonical => rw [hop.platform, hop.text]; exact h.textCanonical
  case clockFits =>
    rw [hop.platform]
    rcases hop.clock with same | fits
    · exact same ▸ h.clockFits
    · exact fits
  case stampFits =>
    intro since ht
    rw [hop.platform]
    rcases hop.stamp since ht with old | now | fits
    · exact h.stampFits since old
    · exact now ▸ h.clockFits
    · exact fits
  case shadowMirrors => exact fun n => hcmds.mirrors n (h.shadowMirrors n)
  case shadowInBank =>
    intro n hn
    rw [hop.platform] at hn
    have hout : ∀ m ∈ [s.cfg.wrLine, s.cfg.kbdLine, s.cfg.pwrLine, s.cfg.auxLine], m ≠ n := by
      rintro m hm rfl
      exact Nat.not_lt.mpr hn (hasLines_iff.mp hbank m hm)
    have hother : ∀ e ∈ cmds, e.line ≠ n := by
      intro e he
      rcases hroles e he with hwr | hpwr
      · exact hwr ▸ hout _ (by simp)
      · exact hpwr ▸ hout _ (by simp)
    rw [(hcmds.keepsOther n hother).1]
    exact h.shadowInBank n hn
  case statusLegal => rw [hop.status]; exact h.statusLegal
  case resZeroFields =>
    rcases hop.res with same | legal
    · rw [same]; exact h.resZeroFields
    · exact legal
  case configured => intro _; rw [hop.platform, hop.cfg]; exact h.configured hc
  case sendingEndless =>
    intro p ht
    simp only [hop.platform, hop.cfg, textRead_congr hop.text hop.platform]
    rcases hop.sending with same | ⟨q, hq, htp, hx⟩
    · obtain ⟨htp, -, hx⟩ := h.sendingEndless p (same ▸ ht)
      exact ⟨htp, hc', hx⟩
    · cases hq.symm.trans ht
      exact ⟨htp, hc', hx⟩

/-- The host's events are no part of the invariant (R193). -/
theorem inv_setPort {s : State} (h : Inv s) (es : List HostEvent) : Inv (setPort es s) :=
  ⟨h.colAtMost69, h.textCanonical, h.clockFits, h.stampFits, h.shadowMirrors, h.shadowInBank, h.statusLegal,
   h.resZeroFields, h.configured, h.sendingEndless⟩

theorem inv_setSending_none {s : State} (h : Inv s) : Inv (setSending none s) :=
  { h with sendingEndless := fun _ hp => by cases hp }

/-- A reading of the clock is TS_BITS wide (R190). -/
theorem inv_setClock {s : State} (h : Inv s) {now : Nat} (hn : now < clockEnd s.platform) : Inv (setClock now s) :=
  { h with clockFits := hn }

/-- The host may write any byte of TEXT while no SSTR runs (R57). -/
theorem inv_textWrite {s : State} (h : Inv s) (hs : s.sending = none) (a : Nat) (b : Chr) : Inv (textWrite a b s) :=
  { h with
    textCanonical := (textWrite_spec a b s h.textCanonical).2.1
    sendingEndless := fun _ hp => by cases hs.symm.trans hp }

@[simp] theorem constructed_setStatus (b : BitVec 8) (s : State) : constructed (setStatus b s) = b.getLsbD 0 := rfl

/-- A legal STATUS may be written while no SSTR runs, CONSTRUCTED only on a good configuration (R34). -/
theorem inv_setStatus {s : State} (h : Inv s) (hs : s.sending = none) {b : BitVec 8}
    (hb : b ∈ [0x00#8, 0x01#8, 0x02#8, 0x04#8]) (hw : b.getLsbD 0 = true → wellConfigured s.platform s.cfg) :
    Inv (setStatus b s) :=
  { h with
    statusLegal := hb
    configured := hw
    sendingEndless := fun _ hp => by cases hs.symm.trans hp }

/-- Any configuration may be written before the block is constructed (R200 step 3). -/
theorem inv_setCfg {s : State} (h : Inv s) (hs : s.sending = none) (hc : constructed s = false) (c : Cfg) :
    Inv (setCfg c s) :=
  { h with
    configured := fun hc' => by cases hc.symm.trans hc'
    sendingEndless := fun _ hp => by cases hs.symm.trans hp }

theorem constructed_blankDevice (s : State) : constructed (blankDevice s) = false := by
  simp [constructed]

/-- The device that a construction starts from (R40, R184). -/
theorem inv_blankDevice {s : State} (h : Inv s) : Inv (blankDevice s) where
  colAtMost69 := by simp
  textCanonical := h.textCanonical
  clockFits := h.clockFits
  stampFits := fun _ hp => by cases hp
  shadowMirrors := fun n => by simp [pinLevel, lastLevel]
  shadowInBank := fun n _ => by simp
  statusLegal := by simp
  resZeroFields := by simp [resPage]
  configured := fun hc => by cases (constructed_blankDevice s).symm.trans hc
  sendingEndless := fun _ hp => by cases hp

/-- A construction failure leaves the blank device with its code in STATUS (R181, R182). -/
theorem inv_raiseConstructError {s : State} (h : Inv s) (e : ConstructError) :
    Inv (raiseConstructError e (blankDevice s)) := by
  have hcode : statusOf (errCode e) false ∈ [0x00#8, 0x01#8, 0x02#8, 0x04#8] ∧
      (statusOf (errCode e) false).getLsbD 0 = false := by
    cases e <;> decide
  exact inv_setStatus (inv_blankDevice h) rfl hcode.1 fun hc => by cases hcode.2.symm.trans hc

/-- The bring-up configures the blank device and commands two of its lines (R200 steps 3 to 6). -/
theorem inv_bringUp {s : State} (h : Inv s) {c : Cfg} (hw : wellConfigured s.platform c) :
    Inv (bringUp c (blankDevice s)) := by
  have hcfg : Inv (setCfg c (blankDevice s)) := inv_setCfg (inv_blankDevice h) rfl (constructed_blankDevice s) c
  have hdone : Inv (setStatus (statusOf 0 true) (setCfg c (blankDevice s))) :=
    inv_setStatus hcfg rfl (by decide) fun _ => hw
  exact inv_of_operates hdone (by simp [statusOf])
    ((lineCommand_operates (.inl rfl) true).trans (lineCommand_operates (.inr rfl) (!c.powerOnLevel)))

theorem construct_keeps_inv {c : Cfg} {bank : BankAnswer} {s t : State} (h : Inv s)
    (hstep : construct c bank s = .next t) : Inv t := by
  obtain ⟨hw, ⟨-, rfl⟩ | ⟨-, rfl⟩ | ⟨-, rfl⟩⟩ := construct_next hstep
  · exact inv_bringUp h hw
  · exact inv_raiseConstructError h .acquire
  · exact inv_raiseConstructError h .map

/-- Settles O56: one case per event of the host, and the next round of an SSTR that hangs. -/
theorem stepKeepsInv : Obligations.StepKeepsInv := by
  intro s t h hstep
  rcases step_cases hstep with ⟨p, hs, rfl⟩ | ⟨hs, ⟨-, rfl⟩ | ⟨c, bank, es, -, hc⟩ | ⟨w, es, i, -, hc, -, he⟩ |
    ⟨d, es, -, rfl⟩ | ⟨a, b, es, -, rfl⟩⟩
  · -- another round of an SSTR that hangs
    obtain ⟨-, hc, -⟩ := h.sendingEndless p hs
    obtain ⟨l, hop⟩ := sendStringRound_operates p.tp p.filter (setSending none s)
    exact inv_of_operates (inv_setSending_none h) hc hop
  · -- no event
    exact h
  · -- a construction
    exact construct_keeps_inv (inv_setPort h es) hc
  · -- a command
    obtain ⟨l, hop⟩ := exec_operates he
    exact inv_of_operates (inv_setPort h es) hc hop
  · -- a wait
    exact inv_setClock (inv_setPort h es) (advance_lt _ _ _)
  · -- a byte of TEXT
    exact inv_textWrite (inv_setPort h es) hs a b

end Sys2Proof.Proofs.BlockState
end

section
/-! PROOFS. The memories (spec/20_memory.md): the host's byte of TEXT, and the search of the code tables. -/

namespace Sys2Proof.Proofs.TextAndTables

open Sys2Proof Sys2Proof.Machine Sys2Proof.Proofs.BlockState

/-! ### TEXT (R57, R59) -/

/-- Settles O8: the step is the host's write, which leaves the platform and so the size of TEXT. -/
theorem textReadsBackWhatTheHostWrote : Obligations.TextReadsBackWhatTheHostWrote := by
  intro s a b es hs hp hwf
  obtain ⟨hread, hcanonical, hframe⟩ := textWrite_spec a b (setPort es s) hwf
  have hstep : step s = .next (textWrite a b (setPort es s)) := by
    rw [step_event hs hp, runEvent]
  exact ⟨_, hstep, hread, hcanonical, hframe⟩

/-! ### The search of the code tables (R52) -/

/-- The search goes through the symbols in rising order. -/
theorem allSyms_rising : allSyms.Pairwise (· < ·) :=
  List.pairwise_map.mpr (List.pairwise_lt_finRange 32)

/-- No symbol below the one the search finds has the entry. -/
theorem tbl_ne_of_lt_lookup {k : CodeTables} {p : Page} {c : Chr} {i j : Sym} (h : lookup k p c = some i) (hj : j < i) :
    tbl k p j ≠ c := by
  obtain ⟨-, before, after, hsplit, hbefore⟩ := List.find?_eq_some_iff_append.mp h
  have hafter : ∀ m ∈ after, i < m := by
    obtain ⟨-, hrising, -⟩ := List.pairwise_append.mp (hsplit ▸ allSyms_rising)
    exact (List.pairwise_cons.mp hrising).1
  have hmem : j ∈ before ++ i :: after := hsplit ▸ mem_allSyms j
  rcases List.mem_append.mp hmem with hin | hin
  · simpa using hbefore j hin
  · rcases List.mem_cons.mp hin with rfl | hin
    · exact absurd hj (BitVec.lt_irrefl j)
    · exact absurd hj (BitVec.lt_asymm (hafter j hin))

/-- The lowest symbol with the entry is the one the search finds: it finds some symbol, and neither is below the other. -/
theorem lookup_of_lowest {k : CodeTables} {p : Page} {c : Chr} {i : Sym} (hi : tbl k p i = c)
    (hlowest : ∀ j, j < i → tbl k p j ≠ c) : lookup k p c = some i := by
  cases hfound : lookup k p c with
  | none => exact absurd hi (lookup_none.mp hfound i)
  | some m =>
    have hge : ¬ m < i := fun hlt => hlowest m hlt (lookup_some hfound)
    have hle : ¬ i < m := fun hlt => tbl_ne_of_lt_lookup hfound hlt hi
    rw [BitVec.le_antisymm (BitVec.not_lt.mp hle) (BitVec.not_lt.mp hge)]

/-- Settles O17: the search is sound and lowest, and complete; its failure is `lookup_none`. -/
theorem lookupReturnsTheLowestIndex : Obligations.LookupReturnsTheLowestIndex := by
  intro k p c
  refine ⟨fun i => ⟨fun hfound => ?_, fun ⟨hi, hlowest⟩ => ?_⟩, lookup_none⟩
  · exact ⟨lookup_some hfound, fun _ => tbl_ne_of_lt_lookup hfound⟩
  · exact lookup_of_lowest hi hlowest

end Sys2Proof.Proofs.TextAndTables
end

section
/-! PROOFS. The command words (spec/30_encoding.md): the round trip of encode and decode, the opcode map, the refused words,
and the check of the shipped tables. -/

namespace Sys2Proof.Proofs.Encoding

open Sys2Proof Sys2Proof.Machine Sys2Proof.Proofs.BlockState

/-! ### Fields whose upper bits are 0 (R82 to R84) -/

/-- A field whose bits from `k` on are 0 is its low `k` bits. -/
theorem setWidth_low_of_high_zero {w k n : Nat} {x : BitVec w} (hw : w = k + n) (h : x.extractLsb' k n = 0) :
    (x.extractLsb' 0 k).setWidth w = x := by
  apply BitVec.eq_of_getLsbD_eq
  intro i hi
  rw [BitVec.getLsbD_setWidth, BitVec.getLsbD_extractLsb', Nat.zero_add]
  by_cases hlow : i < k
  · simp [hi, hlow]
  · have hbit : (x.extractLsb' k n).getLsbD (i - k) = false := by rw [h]; exact BitVec.getLsbD_zero
    rw [BitVec.getLsbD_extractLsb', Nat.add_sub_cancel' (Nat.not_lt.mp hlow)] at hbit
    have hin : i - k < n := by omega
    simp_all

/-- Bits that a mask selects in full are 0 when the masked field is. -/
theorem extractLsb'_eq_zero_of_and {w k n : Nat} {x m : BitVec w} (hm : m.extractLsb' k n = BitVec.allOnes n)
    (h : x &&& m = 0) : x.extractLsb' k n = 0 :=
  calc x.extractLsb' k n
    _ = x.extractLsb' k n &&& m.extractLsb' k n := by rw [hm, BitVec.and_allOnes]
    _ = (x &&& m).extractLsb' k n := BitVec.extractLsb'_and.symm
    _ = 0 := by rw [h]; exact BitVec.extractLsb'_zero

/-- An ARG whose upper three bits are 0 is a boolean (R84). -/
theorem argOfBool_of_high_zero {arg : BitVec 4} (h : arg.extractLsb' 1 3 = 0) : argOfBool (arg.getLsbD 0) = arg := by
  revert arg; decide

/-! ### The formats: when a decoder reads a word, and what it reads from its own words -/

theorem decodeC_ok_iff {mk : Chr → FilterLevel → Instr} {w : CmdWord} {i : Instr} :
    decodeC mk w = .ok i ↔
      (cmdOperand w).extractLsb' 8 8 = 0 ∧ mk ((cmdOperand w).extractLsb' 0 8) (cmdArg w) = i := by
  unfold decodeC
  split <;> simp_all

theorem decodeS_ok_iff {mk : Sym → Instr} {w : CmdWord} {i : Instr} :
    decodeS mk w = .ok i ↔
      cmdArg w = 0 ∧ (cmdOperand w).extractLsb' 5 11 = 0 ∧ mk ((cmdOperand w).extractLsb' 0 5) = i := by
  unfold decodeS
  split <;> [skip; split] <;> simp_all

theorem decodeT_ok_iff {mk : TextAddr → FilterLevel → Instr} {w : CmdWord} {i : Instr} :
    decodeT mk w = .ok i ↔ mk (cmdOperand w) (cmdArg w) = i := by
  simp only [decodeT, Except.ok.injEq]

theorem decodeB_ok_iff {mk : Bool → Instr} {w : CmdWord} {i : Instr} :
    decodeB mk w = .ok i ↔ (cmdArg w).extractLsb' 1 3 = 0 ∧ cmdOperand w = 0 ∧ mk ((cmdArg w).getLsbD 0) = i := by
  unfold decodeB
  split <;> [skip; split] <;> simp_all

theorem decodeN_ok_iff {i j : Instr} {w : CmdWord} :
    decodeN j w = .ok i ↔ cmdArg w = 0 ∧ cmdOperand w = 0 ∧ j = i := by
  unfold decodeN
  split <;> [skip; split] <;> simp_all

theorem decodeC_cmdWord (mk : Chr → FilterLevel → Instr) (op : BitVec 4) (c : Chr) (f : FilterLevel) :
    decodeC mk (cmdWord op f (c.setWidth 16)) = .ok (mk c f) := by
  obtain ⟨hhigh, hlow⟩ := setWidth16_char c
  rw [decodeC_ok_iff, cmdOperand_cmdWord, cmdArg_cmdWord, hlow]
  exact ⟨hhigh, rfl⟩

theorem decodeS_cmdWord (mk : Sym → Instr) (op : BitVec 4) (sym : Sym) :
    decodeS mk (cmdWord op 0#4 (sym.setWidth 16)) = .ok (mk sym) := by
  obtain ⟨hhigh, hlow⟩ := setWidth16_sym sym
  rw [decodeS_ok_iff, cmdOperand_cmdWord, cmdArg_cmdWord, hlow]
  exact ⟨rfl, hhigh, rfl⟩

theorem decodeT_cmdWord (mk : TextAddr → FilterLevel → Instr) (op : BitVec 4) (a : TextAddr) (f : FilterLevel) :
    decodeT mk (cmdWord op f a) = .ok (mk a f) := by
  rw [decodeT_ok_iff, cmdOperand_cmdWord, cmdArg_cmdWord]

theorem decodeB_cmdWord (mk : Bool → Instr) (op : BitVec 4) (b : Bool) :
    decodeB mk (cmdWord op (argOfBool b) 0#16) = .ok (mk b) := by
  obtain ⟨hhigh, hlow⟩ := argOfBool_fields b
  rw [decodeB_ok_iff, cmdOperand_cmdWord, cmdArg_cmdWord, hlow]
  exact ⟨hhigh, rfl, rfl⟩

theorem decodeN_cmdWord (i : Instr) (op : BitVec 4) : decodeN i (cmdWord op 0#4 0#16) = .ok i := by
  rw [decodeN_ok_iff, cmdOperand_cmdWord, cmdArg_cmdWord]
  exact ⟨rfl, rfl, rfl⟩

/-! ### A word that meets its format is an encoding -/

section Words

variable {op : BitVec 4} {w : CmdWord}

theorem cmdWord_formatC (hw : cmdWord op (cmdArg w) (cmdOperand w) = w) (hhigh : (cmdOperand w).extractLsb' 8 8 = 0) :
    cmdWord op (cmdArg w) (((cmdOperand w).extractLsb' 0 8).setWidth 16) = w := by
  rw [setWidth_low_of_high_zero rfl hhigh, hw]

theorem cmdWord_formatS (hw : cmdWord op (cmdArg w) (cmdOperand w) = w) (harg : cmdArg w = 0)
    (hhigh : (cmdOperand w).extractLsb' 5 11 = 0) :
    cmdWord op 0 (((cmdOperand w).extractLsb' 0 5).setWidth 16) = w := by
  rw [setWidth_low_of_high_zero rfl hhigh, ← harg, hw]

theorem cmdWord_formatB (hw : cmdWord op (cmdArg w) (cmdOperand w) = w) (hhigh : (cmdArg w).extractLsb' 1 3 = 0)
    (hoperand : cmdOperand w = 0) : cmdWord op (argOfBool ((cmdArg w).getLsbD 0)) 0 = w := by
  rw [argOfBool_of_high_zero hhigh, ← hoperand, hw]

theorem cmdWord_formatN (hw : cmdWord op (cmdArg w) (cmdOperand w) = w) (harg : cmdArg w = 0)
    (hoperand : cmdOperand w = 0) : cmdWord op 0 0 = w := by
  rw [← hw, harg, hoperand]

end Words

/-! ### Decode and encode -/

/-- The decoder takes a word with ZERO = 0 by its OP nibble (R80, R81). -/
theorem decode_encode (i : Instr) : decode (encode i) = .ok i := by
  cases i with
  | enc c f => simp [decode, encode, decodeC_cmdWord]
  | dec sym => simp [decode, encode, decodeS_cmdWord]
  | schr c f => simp [decode, encode, decodeC_cmdWord]
  | sstr a f => simp [decode, encode, decodeT_cmdWord]
  | sraw sym => simp [decode, encode, decodeS_cmdWord]
  | dsb => simp [decode, encode, decodeN_cmdWord]
  | rraw e => simp [decode, encode, decodeB_cmdWord]
  | spwr o => simp [decode, encode, decodeB_cmdWord]
  | gpwr => simp [decode, encode, decodeN_cmdWord]
  | tpwr => simp [decode, encode, decodeN_cmdWord]
  | cpwr => simp [decode, encode, decodeN_cmdWord]

/-- Settles O1. -/
theorem decodeOfEncode : Obligations.DecodeOfEncode := decode_encode

/-- Every branch of the decoder that answers an operation has checked each bit its format holds at 0. -/
theorem encode_of_decode {w : CmdWord} {i : Instr} (h : decode w = .ok i) : encode i = w := by
  unfold decode at h
  obtain ⟨-, h⟩ | ⟨hzero, h⟩ := ite_eq_iff.mp h
  · cases h
  have hw {op} (hop : cmdOp w = op) : cmdWord op (cmdArg w) (cmdOperand w) = w :=
    hop ▸ cmdWord_fields w (not_not.mp hzero)
  obtain ⟨hop, h⟩ | ⟨-, h⟩ := ite_eq_iff.mp h
  · obtain ⟨hhigh, rfl⟩ := decodeC_ok_iff.mp h
    exact cmdWord_formatC (hw hop) hhigh
  obtain ⟨hop, h⟩ | ⟨-, h⟩ := ite_eq_iff.mp h
  · obtain ⟨harg, hhigh, rfl⟩ := decodeS_ok_iff.mp h
    exact cmdWord_formatS (hw hop) harg hhigh
  obtain ⟨hop, h⟩ | ⟨-, h⟩ := ite_eq_iff.mp h
  · obtain ⟨hhigh, rfl⟩ := decodeC_ok_iff.mp h
    exact cmdWord_formatC (hw hop) hhigh
  obtain ⟨hop, h⟩ | ⟨-, h⟩ := ite_eq_iff.mp h
  · cases decodeT_ok_iff.mp h
    exact hw hop
  obtain ⟨hop, h⟩ | ⟨-, h⟩ := ite_eq_iff.mp h
  · obtain ⟨harg, hhigh, rfl⟩ := decodeS_ok_iff.mp h
    exact cmdWord_formatS (hw hop) harg hhigh
  obtain ⟨hop, h⟩ | ⟨-, h⟩ := ite_eq_iff.mp h
  · obtain ⟨harg, hoperand, rfl⟩ := decodeN_ok_iff.mp h
    exact cmdWord_formatN (hw hop) harg hoperand
  obtain ⟨hop, h⟩ | ⟨-, h⟩ := ite_eq_iff.mp h
  · obtain ⟨hhigh, hoperand, rfl⟩ := decodeB_ok_iff.mp h
    exact cmdWord_formatB (hw hop) hhigh hoperand
  obtain ⟨hop, h⟩ | ⟨-, h⟩ := ite_eq_iff.mp h
  · obtain ⟨hhigh, hoperand, rfl⟩ := decodeB_ok_iff.mp h
    exact cmdWord_formatB (hw hop) hhigh hoperand
  obtain ⟨hop, h⟩ | ⟨-, h⟩ := ite_eq_iff.mp h
  · obtain ⟨harg, hoperand, rfl⟩ := decodeN_ok_iff.mp h
    exact cmdWord_formatN (hw hop) harg hoperand
  obtain ⟨hop, h⟩ | ⟨-, h⟩ := ite_eq_iff.mp h
  · obtain ⟨harg, hoperand, rfl⟩ := decodeN_ok_iff.mp h
    exact cmdWord_formatN (hw hop) harg hoperand
  obtain ⟨hop, h⟩ | ⟨-, h⟩ := ite_eq_iff.mp h
  · obtain ⟨harg, hoperand, rfl⟩ := decodeN_ok_iff.mp h
    exact cmdWord_formatN (hw hop) harg hoperand
  cases h

/-- Settles O2. -/
theorem encodeOfDecode : Obligations.EncodeOfDecode := fun _ _ => encode_of_decode

/-- Settles O4. -/
theorem specExampleWordsDecode : Obligations.SpecExampleWordsDecode :=
  ⟨decode_encode (.enc 0x41 0), decode_encode (.dec 0x1B), decode_encode (.schr 0x37 1), decode_encode (.sstr 0x0100 0),
    decode_encode (.sraw 0x1F), decode_encode .dsb, decode_encode (.rraw true), decode_encode (.spwr true),
    decode_encode .gpwr, decode_encode .tpwr, decode_encode .cpwr⟩

/-! ### The opcode map (R81, R86) -/

/-- Every row compares OP and ZERO in full, and fixes the other fields at 0. -/
theorem opcodeRows_fields : ∀ r ∈ opcodeRows,
    cmdOp r.mask = BitVec.allOnes 4 ∧ cmdZero r.mask = BitVec.allOnes 8 ∧
    cmdArg r.fixed = 0 ∧ cmdZero r.fixed = 0 ∧ cmdOperand r.fixed = 0 := by decide

/-- A mnemonic names one row. -/
theorem opcodeRows_mnemonic_inj : ∀ r ∈ opcodeRows, ∀ r' ∈ opcodeRows, r.mnemonic = r'.mnemonic → r = r' := by decide

/-- A word that selects a row has the row's OP and ZERO = 0, and what the row masks of ARG and OPERAND is 0. -/
theorem fields_of_selectedBy {r : OpcodeRow} {w : CmdWord} (hr : r ∈ opcodeRows) (h : r.selectedBy w = true) :
    cmdWord (cmdOp r.fixed) (cmdArg w) (cmdOperand w) = w ∧
    cmdArg w &&& cmdArg r.mask = 0 ∧ cmdOperand w &&& cmdOperand r.mask = 0 := by
  obtain ⟨hop, harg, hzero, hoperand⟩ := (selectedBy_iff r w).mp h
  obtain ⟨hmop, hmzero, hfarg, hfzero, hfoperand⟩ := opcodeRows_fields r hr
  rw [hmop, BitVec.and_allOnes] at hop
  rw [hmzero, BitVec.and_allOnes, hfzero] at hzero
  exact ⟨hop ▸ cmdWord_fields w hzero, harg.trans hfarg, hoperand.trans hfoperand⟩

/-- A word that selects a row is the encoding of an operation of the row: the row's mask covers what the format holds at 0. -/
theorem encoding_of_selectedBy {r : OpcodeRow} {w : CmdWord} (hr : r ∈ opcodeRows) (h : r.selectedBy w = true) :
    ∃ i, encode i = w ∧ i.mnemonic = r.mnemonic := by
  obtain ⟨hw, harg, hoperand⟩ := fields_of_selectedBy hr h
  have arg_zero (hm : cmdArg r.mask = BitVec.allOnes 4) : cmdArg w = 0 := by rwa [hm, BitVec.and_allOnes] at harg
  have operand_zero (hm : cmdOperand r.mask = BitVec.allOnes 16) : cmdOperand w = 0 := by
    rwa [hm, BitVec.and_allOnes] at hoperand
  simp only [opcodeRows, List.mem_cons, List.not_mem_nil, or_false] at hr
  rcases hr with rfl | rfl | rfl | rfl | rfl | rfl | rfl | rfl | rfl | rfl | rfl
  · exact ⟨.enc _ _, cmdWord_formatC hw (extractLsb'_eq_zero_of_and (by decide) hoperand), rfl⟩
  · exact ⟨.dec _, cmdWord_formatS hw (arg_zero (by decide)) (extractLsb'_eq_zero_of_and (by decide) hoperand), rfl⟩
  · exact ⟨.schr _ _, cmdWord_formatC hw (extractLsb'_eq_zero_of_and (by decide) hoperand), rfl⟩
  · exact ⟨.sstr _ _, hw, rfl⟩
  · exact ⟨.sraw _, cmdWord_formatS hw (arg_zero (by decide)) (extractLsb'_eq_zero_of_and (by decide) hoperand), rfl⟩
  · exact ⟨.dsb, cmdWord_formatN hw (arg_zero (by decide)) (operand_zero (by decide)), rfl⟩
  · exact ⟨.rraw _, cmdWord_formatB hw (extractLsb'_eq_zero_of_and (by decide) harg) (operand_zero (by decide)), rfl⟩
  · exact ⟨.spwr _, cmdWord_formatB hw (extractLsb'_eq_zero_of_and (by decide) harg) (operand_zero (by decide)), rfl⟩
  · exact ⟨.gpwr, cmdWord_formatN hw (arg_zero (by decide)) (operand_zero (by decide)), rfl⟩
  · exact ⟨.tpwr, cmdWord_formatN hw (arg_zero (by decide)) (operand_zero (by decide)), rfl⟩
  · exact ⟨.cpwr, cmdWord_formatN hw (arg_zero (by decide)) (operand_zero (by decide)), rfl⟩

/-- The word of an operation selects a row with its mnemonic. -/
theorem encode_selects_its_row (i : Instr) : Laws.EncodesToItsRow.Statement i := by
  cases i with
  | enc c f => exact Laws.EncodesToItsRow.enc c f
  | dec sym => exact Laws.EncodesToItsRow.dec sym
  | schr c f => exact Laws.EncodesToItsRow.schr c f
  | sstr a f => exact Laws.EncodesToItsRow.sstr a f
  | sraw sym => exact Laws.EncodesToItsRow.sraw sym
  | dsb => exact Laws.EncodesToItsRow.dsb
  | rraw e => exact Laws.EncodesToItsRow.rraw e
  | spwr o => exact Laws.EncodesToItsRow.spwr o
  | gpwr => exact Laws.EncodesToItsRow.gpwr
  | tpwr => exact Laws.EncodesToItsRow.tpwr
  | cpwr => exact Laws.EncodesToItsRow.cpwr

/-- A word selects a row exactly when it decodes to an operation of the row. -/
theorem selectedBy_iff_decode {r : OpcodeRow} (hr : r ∈ opcodeRows) (w : CmdWord) :
    r.selectedBy w = true ↔ ∃ i, decode w = .ok i ∧ i.mnemonic = r.mnemonic := by
  constructor
  · intro h
    obtain ⟨i, rfl, hname⟩ := encoding_of_selectedBy hr h
    exact ⟨i, decode_encode i, hname⟩
  · rintro ⟨i, hi, hname⟩
    obtain ⟨r', hr', hname', hsel⟩ := encode_selects_its_row i
    rw [encode_of_decode hi] at hsel
    rwa [opcodeRows_mnemonic_inj r hr r' hr' (hname'.trans hname).symm]

/-- A word spells a command exactly when it decodes (R86). -/
theorem wordSpellsCommand_iff_decode (w : CmdWord) : wordSpellsCommand w = true ↔ ∃ i, decode w = .ok i := by
  rw [wordSpellsCommand, List.any_eq_true]
  constructor
  · rintro ⟨r, hr, hsel⟩
    obtain ⟨i, hi, -⟩ := (selectedBy_iff_decode hr w).mp hsel
    exact ⟨i, hi⟩
  · rintro ⟨i, hi⟩
    obtain ⟨r, hr, -, hsel⟩ := encode_selects_its_row i
    exact ⟨r, hr, encode_of_decode hi ▸ hsel⟩

theorem wordSpellsCommand_eq_false_iff (w : CmdWord) : wordSpellsCommand w = false ↔ ∃ e, decode w = .error e := by
  rw [← Bool.not_eq_true, wordSpellsCommand_iff_decode]
  cases decode w <;> simp

/-- Settles O3. -/
theorem decodeFollowsTheOpcodeMap : Obligations.DecodeFollowsTheOpcodeMap := fun w =>
  ⟨fun _ hr => selectedBy_iff_decode hr w, wordSpellsCommand_eq_false_iff w⟩

/-! ### Refused words (R34, R86) -/

theorem runCommand_notConstructed {s : State} (h : constructed s = false) (w : CmdWord) :
    runCommand w s = .refused .notConstructed := by
  rw [runCommand, h, if_neg Bool.false_ne_true]

theorem runCommand_illFormed {s : State} {w : CmdWord} {e : DecodeError} (hc : constructed s = true)
    (hw : decode w = .error e) : runCommand w s = .refused (.illFormedWord e) := by
  rw [runCommand, if_pos hc, hw]

/-- Settles O6: a block that is not constructed refuses every word, and a constructed one a word that decodes to nothing. -/
theorem unspelledWordsAreRefused : Obligations.UnspelledWordsAreRefused := by
  intro s w es hs hp h
  rw [step_event hs hp, runEvent]
  cases hc : constructed s with
  | false => exact .inr (runCommand_notConstructed (s := setPort es s) hc w)
  | true =>
    rw [hc] at h
    obtain ⟨e, he⟩ := (wordSpellsCommand_eq_false_iff w).mp (h.resolve_right Bool.true_eq_false.mp)
    exact .inl ⟨e, runCommand_illFormed (s := setPort es s) hc he⟩

/-! ### The shipped tables (R75, R108) -/

/-- Settles O25: the clauses (b) to (g) of R75 in their order, and the six positions. -/
theorem shippedTablesPassTheCheck : Obligations.ShippedTablesPassTheCheck := by
  have hinjective : shippedCode.injective = true := by decide
  have hshared : shippedCode.sharedExactly = true := by decide
  have hother : shippedCode.noOtherShared = true := by decide
  have hletters : shippedCode.lettersOnly = true := by decide
  have hapostrophe : shippedCode.hasApostrophe = true := by decide
  have hplaceholder : shippedCode.placeholderUnfiltered = true := by decide
  have hcontrols : shippedCode.controlsDistinct = true := by decide
  refine ⟨?_, hcontrols⟩
  simp only [CodeTables.check, hinjective, hshared, hother, hletters, hapostrophe, hplaceholder, Bool.and_self]

end Sys2Proof.Proofs.Encoding
end

section
/-! PROOFS. The codec (spec/40_codec.md): the graded filter, what ENC finds, what DEC returns, and the laws between them. -/

namespace Sys2Proof.Proofs.Codec

open Sys2Proof Sys2Proof.Machine Sys2Proof.Proofs.Operations

/-! ### Lower (R101) -/

theorem isCapital_iff (c : Chr) : (0x41 ≤ c ∧ c ≤ 0x5A) ↔ (0x41 ≤ c.toNat ∧ c.toNat ≤ 0x5A) := by
  simp [BitVec.le_def]

/-- Settles O16: no capital carries out of its byte when it gains 0x20. -/
theorem lowerMovesExactlyTheCapitals : Obligations.LowerMovesExactlyTheCapitals := by
  intro c
  unfold lower
  split
  · next hcapital =>
    rw [if_pos ((isCapital_iff c).mp hcapital)]
    bv_omega
  · next hother => rw [if_neg (mt (isCapital_iff c).mpr hother)]

/-! ### The filter and the folding (R102, R103) -/

/-- The characters of filter class 1 (R76): both shifts' and who-are-you's. -/
def shiftAndWruChars (k : CodeTables) : List Chr :=
  [tbl k .letters k.symLtrs, tbl k .figures k.symLtrs, tbl k .letters k.symFigs, tbl k .figures k.symFigs,
   tbl k .figures k.symWru]

/-- The characters of filter class 2 (R76). -/
def nullChars (k : CodeTables) : List Chr := [tbl k .letters k.symNull, tbl k .figures k.symNull]

/-- The characters of filter class 4 (R76). -/
def nationalChars (k : CodeTables) : List Chr := k.national.map (tbl k .figures)

/-- A filter level hits the classes up to its own (R103). -/
theorem filterHit_iff (k : CodeTables) (c : Chr) (f : FilterLevel) :
    filterHit k c f = true ↔
      (1 ≤ f ∧ c ∈ shiftAndWruChars k) ∨ (2 ≤ f ∧ c ∈ nullChars k) ∨ (3 ≤ f ∧ c = tbl k .figures k.symBell) ∨
      (4 ≤ f ∧ c ∈ nationalChars k) := by
  simp only [filterHit, Bool.or_eq_true, Bool.and_eq_true, decide_eq_true_eq, List.contains_iff_mem, beq_iff_eq, or_assoc,
    shiftAndWruChars, nullChars, nationalChars]

theorem filterHit_mono {k : CodeTables} {c : Chr} {f g : FilterLevel} (hfg : f ≤ g) (h : filterHit k c f = true) :
    filterHit k c g = true := by
  have above {n : FilterLevel} (hn : n ≤ f) : n ≤ g := BitVec.le_trans hn hfg
  rw [filterHit_iff] at h ⊢
  exact h.imp (.imp_left above) (.imp (.imp_left above) (.imp (.imp_left above) (.imp_left above)))

/-- Four is the highest class. -/
theorem filterHit_four_of_filterHit {k : CodeTables} {c : Chr} {f : FilterLevel} (h : filterHit k c f = true) :
    filterHit k c 4 = true := by
  rw [filterHit_iff] at h ⊢
  rcases h with ⟨-, hc⟩ | ⟨-, hc⟩ | ⟨-, hc⟩ | ⟨-, hc⟩
  · exact .inl ⟨by decide, hc⟩
  · exact .inr (.inl ⟨by decide, hc⟩)
  · exact .inr (.inr (.inl ⟨by decide, hc⟩))
  · exact .inr (.inr (.inr ⟨by decide, hc⟩))

theorem filterHit_of_four_le {k : CodeTables} {c : Chr} {f : FilterLevel} (hf : 4 ≤ f) :
    filterHit k c f = filterHit k c 4 :=
  Bool.eq_iff_iff.mpr ⟨filterHit_four_of_filterHit, filterHit_mono hf⟩

theorem mem_shiftAndWruChars_shipped (c : Chr) : c ∈ shiftAndWruChars shippedCode ↔ c ∈ [0x0F#8, 0x0E#8, 0x05#8] := by
  have hchars : shiftAndWruChars shippedCode = [0x0F#8, 0x0F#8, 0x0E#8, 0x0E#8, 0x05#8] := by decide
  simp [hchars]

/-- The filter on the shipped tables: each class by its characters (R76). -/
theorem filterHit_shipped_iff (c : Chr) (f : FilterLevel) :
    filterHit shippedCode c f = true ↔
      (1 ≤ f ∧ c ∈ [0x0F#8, 0x0E#8, 0x05#8]) ∨ (2 ≤ f ∧ c = 0x00) ∨ (3 ≤ f ∧ c = 0x07) ∨
      (4 ≤ f ∧ c ∈ [0x21#8, 0x23#8, 0x26#8]) := by
  have hnull : nullChars shippedCode = [0x00, 0x00] := by decide
  have hbell : tbl shippedCode .figures shippedCode.symBell = 0x07 := by decide
  have hnational : nationalChars shippedCode = [0x21#8, 0x23#8, 0x26#8] := by decide
  rw [filterHit_iff, mem_shiftAndWruChars_shipped, hnull, hbell, hnational]
  simp only [List.mem_cons, List.not_mem_nil, or_false, or_self]

theorem fold_shipped (c : Chr) : fold shippedCode c = if c = 0x22 ∨ c = 0x60 then 0x27 else c := by
  have hquotes : c ∈ shippedCode.quoteFold ↔ c = 0x22 ∨ c = 0x60 := by simp [shippedCode]
  simp only [fold, hquotes]

/-- Settles O18. -/
theorem filterLevelsAreGraded : Obligations.FilterLevelsAreGraded :=
  ⟨fun k c _ _ => ⟨filterHit_mono, filterHit_zero k c, filterHit_of_four_le⟩, filterHit_shipped_iff, fold_shipped⟩

/-! ### The search of ENC (R100, R104, R105) -/

section Search

variable {k : CodeTables} {p : Page} {c : Chr}

theorem searchPages_of_first (h : ∃ i, tbl k p i = c) : ∃ i, tbl k p i = c ∧ searchPages k p c = (i, p) := by
  obtain ⟨i, hi⟩ := h
  rcases searchPages_spec k p c with ⟨hentry, hpage⟩ | ⟨hnot, -⟩ | ⟨hnot, -⟩
  · exact ⟨_, hentry, Prod.ext rfl hpage⟩
  · exact absurd hi (hnot i)
  · exact absurd hi (hnot i)

theorem searchPages_of_other (hfirst : ¬ ∃ i, tbl k p i = c) (h : ∃ i, tbl k (otherPage p) i = c) :
    ∃ i, tbl k (otherPage p) i = c ∧ searchPages k p c = (i, otherPage p) := by
  obtain ⟨i, hi⟩ := h
  rcases searchPages_spec k p c with ⟨hentry, -⟩ | ⟨-, hentry, hpage⟩ | ⟨-, hnot, -⟩
  · exact absurd ⟨_, hentry⟩ hfirst
  · exact ⟨_, hentry, Prod.ext rfl hpage⟩
  · exact absurd hi (hnot i)

theorem searchPages_of_neither (hfirst : ¬ ∃ i, tbl k p i = c) (hother : ¬ ∃ i, tbl k (otherPage p) i = c) :
    searchPages k p c = (k.placeholderSym, .figures) := by
  rcases searchPages_spec k p c with ⟨hentry, -⟩ | ⟨-, hentry, -⟩ | ⟨-, -, h⟩
  · exact absurd ⟨_, hentry⟩ hfirst
  · exact absurd ⟨_, hentry⟩ hother
  · exact h

theorem eq_or_eq_otherPage (p q : Page) : q = p ∨ q = otherPage p := by
  cases p <;> cases q <;> decide

/-- A character of either page is found, whichever page is searched first. -/
theorem tbl_searchPages (h : ∃ q i, tbl k q i = c) : tbl k (searchPages k p c).2 (searchPages k p c).1 = c := by
  obtain ⟨q, i, hi⟩ := h
  by_cases hfirst : ∃ j, tbl k p j = c
  · obtain ⟨j, hj, hfound⟩ := searchPages_of_first hfirst
    rwa [hfound]
  · rcases eq_or_eq_otherPage p q with rfl | rfl
    · exact absurd ⟨i, hi⟩ hfirst
    · obtain ⟨j, hj, hfound⟩ := searchPages_of_other hfirst ⟨i, hi⟩
      rwa [hfound]

end Search

@[simp] theorem alphaPage_pageAlpha (d p : Page) : alphaPage d (pageAlpha p) = p := by
  cases p <;> rfl

section Encode

variable {k : CodeTables} {c : Chr} {f : FilterLevel} (unk : Page) (a : Alpha)

theorem encodeChar_of_hit (h : filterHit k (fold k (lower c)) f = true) :
    encodeChar k unk a c f = (k.placeholderSym, .figures) := if_pos h

theorem encodeChar_of_no_hit (h : filterHit k (fold k (lower c)) f = false) :
    encodeChar k unk a c f = searchPages k (alphaPage unk a) (fold k (lower c)) :=
  if_neg (Bool.eq_false_iff.mp h)

end Encode

/-- Settles O20: an unfiltered character leaves the current page only when the search does. -/
theorem encodeChangesPageOnlyWhenItMust : Obligations.EncodeChangesPageOnlyWhenItMust := by
  intro k unk p c f c2 r
  cases hhit : filterHit k c2 f with
  | true => exact ⟨nofun, fun _ => .inr ⟨encodeChar_of_hit _ _ hhit, rfl⟩⟩
  | false =>
    have hr : r = searchPages k p c2 := by
      simpa only [alphaPage_pageAlpha] using encodeChar_of_no_hit unk (pageAlpha p) hhit
    have stays (h : ∃ i, tbl k p i = c2) : r.2 = p ∧ tbl k p r.1 = c2 := by
      obtain ⟨i, hi, hfound⟩ := searchPages_of_first h
      rw [hr, hfound]
      exact ⟨rfl, hi⟩
    exact ⟨fun _ => stays, fun hleft => .inl fun i hi => hleft (stays ⟨i, hi⟩).1⟩

/-! ### ENC (R100, R33, R85) -/

theorem exec_enc (c : Chr) (f : FilterLevel) (s : State) :
    exec (.enc c f) s = .next (setRes (resOfSymPage (encodeChar s.cfg.code s.cfg.unknownOrder s.alpha c f).1
      (encodeChar s.cfg.code s.cfg.unknownOrder s.alpha c f).2) s) := rfl

theorem resOfSymPage_reads (sym : Sym) (p : Page) :
    resSym (resOfSymPage sym p) = sym ∧ resPage (resOfSymPage sym p) = alphaCode (pageAlpha p) ∧
    resChar (resOfSymPage sym p) = 0 ∧ resFlag (resOfSymPage sym p) = false ∧
    resCharValid (resOfSymPage sym p) = false := by
  cases p <;> revert sym <;> decide

/-- Settles O19: the result is the filter's, or else one of the search's three. -/
theorem encReturnsSymbolAndPage : Obligations.EncReturnsSymbolAndPage := by
  intro s c f
  have hexec := exec_enc c f s
  generalize hr : encodeChar s.cfg.code s.cfg.unknownOrder s.alpha c f = r at hexec
  obtain ⟨sym, p⟩ := r
  obtain ⟨hsym, hpage, hchar, hflag, hvalid⟩ := resOfSymPage_reads sym p
  obtain ⟨hhigh, hbit7, -⟩ := resOfSymPage_legal sym p
  refine ⟨sym, p, hexec, hsym, hpage, hchar, hflag, hvalid, hbit7, hhigh, ?_⟩
  intro k c2 first inPage
  split
  · next hhit => exact Prod.ext_iff.mp (hr.symm.trans (encodeChar_of_hit _ _ hhit))
  · next hhit =>
    rw [encodeChar_of_no_hit _ _ (Bool.eq_false_iff.mpr hhit)] at hr
    refine ⟨fun hfirst => ?_, fun hfirst hother => ?_, fun hfirst hother => ?_⟩
    · obtain ⟨i, hi, hfound⟩ := searchPages_of_first hfirst
      obtain ⟨rfl, hp⟩ := Prod.mk.inj (hr.symm.trans hfound)
      exact ⟨hp, hp ▸ hi⟩
    · obtain ⟨i, hi, hfound⟩ := searchPages_of_other hfirst hother
      obtain ⟨rfl, hp⟩ := Prod.mk.inj (hr.symm.trans hfound)
      exact ⟨hp, hp ▸ hi⟩
    · exact Prod.ext_iff.mp (hr.symm.trans (searchPages_of_neither hfirst hother))

/-! ### DEC (R106, R107, R110) -/

theorem exec_dec (sym : Sym) (s : State) :
    exec (.dec sym) s = .next (setRes (resOfChar (decodeChar s.cfg.code s.cfg.decodeUnknownPage s.alpha sym))
      (decodeSym s.cfg.code sym s)) := rfl

@[simp] theorem decodeSym_alpha (k : CodeTables) (sym : Sym) (s : State) :
    (decodeSym k sym s).alpha = decodeAlpha k s.alpha sym := rfl

@[simp] theorem decodeSym_cfg (k : CodeTables) (sym : Sym) (s : State) : (decodeSym k sym s).cfg = s.cfg := rfl

theorem resOfChar_reads (c : Chr) :
    resChar (resOfChar c) = c ∧ resCharValid (resOfChar c) = true ∧ resFlag (resOfChar c) = false := by
  revert c; decide

/-- Settles O21. -/
theorem decReturnsTheTableEntry : Obligations.DecReturnsTheTableEntry := by
  refine fun s sym => ⟨decodeAlpha s.cfg.code s.alpha sym, rfl, exec_dec sym s, fun ch => ?_⟩
  obtain ⟨hchar, hvalid, hflag⟩ := resOfChar_reads ch
  obtain ⟨hhigh, hbit7, hpage, hsym⟩ := resOfChar_fields ch
  exact ⟨hchar, hvalid, hsym, hpage, hflag, hbit7, hhigh⟩

theorem decodeAlpha_symLtrs (k : CodeTables) (a : Alpha) : decodeAlpha k a k.symLtrs = .letters := if_pos rfl

theorem decodeAlpha_symFigs {k : CodeTables} (h : DistinctControls k) (a : Alpha) :
    decodeAlpha k a k.symFigs = .figures := by
  rw [decodeAlpha, if_neg h.figsLtrs, if_pos rfl]

/-- A symbol after which ALPHA is a page decodes to that page's entry: the lookup comes after the update (R107). -/
theorem dec_of_decodeAlpha {s : State} {sym : Sym} {p : Page} (h : decodeAlpha s.cfg.code s.alpha sym = pageAlpha p) :
    ∃ t, exec (.dec sym) s = .next t ∧ t.alpha = pageAlpha p ∧ resChar t.res = tbl s.cfg.code p sym := by
  refine ⟨_, exec_dec sym s, h, ?_⟩
  rw [setRes_res, (resOfChar_reads _).1, decodeChar, h, alphaPage_pageAlpha]

/-- Settles O22. -/
theorem shiftSymbolsDecodeToTheirOwnEntry : Obligations.ShiftSymbolsDecodeToTheirOwnEntry := fun _ h =>
  ⟨dec_of_decodeAlpha (p := .letters) (decodeAlpha_symLtrs _ _),
    dec_of_decodeAlpha (p := .figures) (decodeAlpha_symFigs (distinctControls h) _)⟩

/-- Settles O23, by induction on the sequence: DEC of a symbol that is no shift leaves ALPHA and the tables. -/
theorem decodingWithoutShiftsKeepsAlpha : Obligations.DecodingWithoutShiftsKeepsAlpha := by
  intro syms
  induction syms with
  | nil => exact fun s _ => ⟨s, rfl, rfl⟩
  | cons sym syms ih =>
    intro s h
    obtain ⟨hsym, hsyms⟩ := List.forall_mem_cons.mp h
    obtain ⟨t, hrun, halpha⟩ := ih (setRes _ (decodeSym s.cfg.code sym s)) hsyms
    refine ⟨t, ?_, ?_⟩
    · rw [List.map_cons, execAll, exec_dec]
      exact hrun
    · rw [halpha, setRes_alpha, decodeSym_alpha, decodeAlpha_of_not_shift hsym]

/-! ### The round trip (R109) -/

/-- A shared control code has one entry in both pages (R75 (c)). -/
theorem tbl_eq_of_shared {k : CodeTables} (hk : k.check = true) {sym : Sym} (hsym : sym ∈ k.sharedSyms) (p q : Page) :
    tbl k p sym = tbl k q sym := by
  simp only [CodeTables.check, Bool.and_eq_true] at hk
  obtain ⟨⟨⟨⟨⟨-, hshared⟩, -⟩, -⟩, -⟩, -⟩ := hk
  have hcontains : k.sharedSyms.contains (BitVec.ofFin sym.toFin) = true := List.contains_iff_mem.mpr hsym
  have hentry := List.all_eq_true.mp hshared sym.toFin (List.mem_finRange _)
  simp only [hcontains, beq_true, beq_iff_eq] at hentry
  have hsame : tbl k .letters sym = tbl k .figures sym := hentry
  cases p <;> cases q <;> simp only [hsame]

theorem mem_sharedSyms_of_isShift {k : CodeTables} {sym : Sym} (h : isShift k sym = true) : sym ∈ k.sharedSyms := by
  simp only [isShift, Bool.or_eq_true, beq_iff_eq] at h
  rcases h with rfl | rfl <;> simp [CodeTables.sharedSyms]

theorem decodeChar_of_shared {k : CodeTables} (hk : k.check = true) {sym : Sym} (hsym : sym ∈ k.sharedSyms)
    (unk : Page) (a : Alpha) (p : Page) : decodeChar k unk a sym = tbl k p sym :=
  tbl_eq_of_shared hk hsym _ p

theorem decodeChar_of_not_shift {k : CodeTables} {sym : Sym} (h : isShift k sym = false) (unk p : Page) :
    decodeChar k unk (pageAlpha p) sym = tbl k p sym := by
  rw [decodeChar, decodeAlpha_of_not_shift h, alphaPage_pageAlpha]

/-- Settles O24: a shared symbol, a shift among them, decodes alike on both pages; any other one is decoded on the page
that ENC returned. -/
theorem codecRoundTrip : Obligations.CodecRoundTrip := by
  intro k unk dunk a b c c' hk hin hc r
  have hr : r = searchPages k (alphaPage unk a) c' := hc ▸ encodeChar_of_no_hit unk a (filterHit_zero k _)
  have hentry : tbl k r.2 r.1 = c' := hr ▸ tbl_searchPages hin
  refine ⟨hentry, fun hb => ?_⟩
  by_cases hshared : r.1 ∈ k.sharedSyms
  · exact (decodeChar_of_shared hk hshared dunk b r.2).trans hentry
  · have hshift : ¬ isShift k r.1 = true := mt mem_sharedSyms_of_isShift hshared
    rcases hb with rfl | ⟨h, -⟩ | h
    · exact (decodeChar_of_not_shift (Bool.eq_false_iff.mpr hshift) dunk r.2).trans hentry
    · exact absurd h hshared
    · exact absurd h hshift

end Sys2Proof.Proofs.Codec
end

section
/-! PROOFS. The line discipline (spec/41_line_discipline.md): what SCHR sends for each kind of character, SSTR as the SCHR of
its characters, and the wrap of a long line. -/

namespace Sys2Proof.Proofs.LineDiscipline

open Sys2Proof Sys2Proof.Machine Sys2Proof.Proofs.Encoding Sys2Proof.Proofs.Codec

/-! ### The characters of a control code (R100, R108) -/

/-- A character that no filter class holds is searched at every level (R103). -/
theorem encodeChar_of_unfiltered {k : CodeTables} {c : Chr} (h : filterHit k (fold k (lower c)) 4 = false) (unk : Page)
    (a : Alpha) (f : FilterLevel) :
    encodeChar k unk a c f = searchPages k (alphaPage unk a) (fold k (lower c)) := by
  refine encodeChar_of_no_hit unk a (Bool.eq_false_iff.mpr fun hit => ?_)
  exact Bool.eq_false_iff.mp h (filterHit_four_of_filterHit hit)

/-- A symbol that alone holds an unfiltered character, on both pages, is what exactly that character encodes to. -/
theorem encodeChar_eq_iff {k : CodeTables} {sym : Sym} {ch : Chr} (hentry : ∀ p i, tbl k p i = ch ↔ i = sym)
    (hfilter : filterHit k ch 4 = false) (hplaceholder : k.placeholderSym ≠ sym) (unk : Page) (a : Alpha) (c : Chr)
    (f : FilterLevel) : (encodeChar k unk a c f).1 = sym ↔ fold k (lower c) = ch := by
  constructor
  · intro hsym
    cases hhit : filterHit k (fold k (lower c)) f with
    | true =>
      rw [encodeChar_of_hit unk a hhit] at hsym
      exact absurd hsym hplaceholder
    | false =>
      rw [encodeChar_of_no_hit unk a hhit] at hsym
      rcases searchPages_spec k (alphaPage unk a) (fold k (lower c)) with ⟨hfound, -⟩ | ⟨-, hfound, -⟩ | ⟨-, -, hnone⟩
      · exact hfound.symm.trans ((hentry _ _).mpr hsym)
      · exact hfound.symm.trans ((hentry _ _).mpr hsym)
      · rw [hnone] at hsym
        exact absurd hsym hplaceholder
  · rintro rfl
    rw [encodeChar_of_unfiltered hfilter]
    exact (hentry _ _).mp (tbl_searchPages ⟨.letters, sym, (hentry _ _).mpr rfl⟩)

/-- Lower and the shipped folding reach no character below 0x20 from another one (R101, R102). -/
theorem fold_lower_shipped_eq_iff {c ch : Chr} (h : ch < 0x20) : fold shippedCode (lower c) = ch ↔ c = ch := by
  rw [fold_shipped, lower]
  split_ifs <;> bv_omega

theorem shipped_cr_iff (unk : Page) (a : Alpha) (c : Chr) (f : FilterLevel) :
    (encodeChar shippedCode unk a c f).1 = shippedCode.symCr ↔ c = 0x0D := by
  have hentry (p : Page) : ∀ i, tbl shippedCode p i = 0x0D ↔ i = shippedCode.symCr := by cases p <;> decide
  rw [encodeChar_eq_iff hentry (by decide) (by decide), fold_lower_shipped_eq_iff (by decide)]

theorem shipped_lf_iff (unk : Page) (a : Alpha) (c : Chr) (f : FilterLevel) :
    (encodeChar shippedCode unk a c f).1 = shippedCode.symLf ↔ c = 0x0A := by
  have hentry (p : Page) : ∀ i, tbl shippedCode p i = 0x0A ↔ i = shippedCode.symLf := by cases p <;> decide
  rw [encodeChar_eq_iff hentry (by decide) (by decide), fold_lower_shipped_eq_iff (by decide)]

/-! ### What SCHR does, by the kind of the symbol (R120) -/

theorem exec_schr (c : Chr) (f : FilterLevel) (s : State) :
    exec (.schr c f) s = .next (sendChar s.cfg.code c f s) := rfl

theorem sendChar_eq (k : CodeTables) (c : Chr) (f : FilterLevel) (s : State) :
    sendChar k c f s = sendEncoded k (encodeChar k s.cfg.unknownOrder s.alpha c f).1
      (encodeChar k s.cfg.unknownOrder s.alpha c f).2 s := rfl

/-- LF moves no cursor, and where its code is CR's it returns it: after CR LF the cursor is at 0 on any tables. -/
theorem emitCrLf_col_zero (k : CodeTables) (s : State) : (emitCrLf k s).col = 0 := by
  simp [emitCrLf, colAfter, advances]

/-- SCHR of a line feed (R125). -/
theorem sendEncoded_lf {k : CodeTables} {sym : Sym} (hcr : sym ≠ k.symCr) (hlf : sym = k.symLf) (p : Page) (s : State) :
    (sendEncoded k sym p s).sent = s.sent ++ [k.symCr, k.symLf] ∧ (sendEncoded k sym p s).alpha = s.alpha ∧
    (sendEncoded k sym p s).col = 0 := by
  refine ⟨?_, ?_, ?_⟩
  · rw [(sendEncoded_sends k sym p s).sent, schrSyms, if_neg hcr, if_pos hlf]
  · rw [sendEncoded_alpha, if_pos (.inr hlf)]
  · rw [sendEncoded, if_neg hcr, if_pos hlf, emitCrLf_col_zero]

theorem wrapCol_le_iff (col : Col) : wrapCol ≤ col ↔ 69 ≤ col.toNat := Iff.rfl

theorem wrapSyms_eq (k : CodeTables) (sym : Sym) (p : Page) (col : Col) :
    wrapSyms k sym p col = if printable k sym p = true ∧ 69 ≤ col.toNat then [k.symCr, k.symLf] else [] := by
  simp only [wrapSyms, Bool.and_eq_true, decide_eq_true_eq, wrapCol_le_iff]

theorem shiftSyms_eq (k : CodeTables) (p : Page) (a : Alpha) :
    shiftSyms k p a = if pageAlpha p = a then [] else [k.symNull, shiftOf k p, shiftOf k p] := by
  rw [shiftSyms, ite_not]

/-- SCHR of a character that is neither CR nor LF (R123, R124, R126). -/
theorem sendEncoded_payload {k : CodeTables} {sym : Sym} (hcr : sym ≠ k.symCr) (hlf : sym ≠ k.symLf) (p : Page)
    (s : State) :
    (sendEncoded k sym p s).sent = s.sent ++ wrapSyms k sym p s.col ++ shiftSyms k p s.alpha ++ [sym] ∧
    (sendEncoded k sym p s).alpha = pageAlpha p ∧
    (k.controlsDistinct = true → (sendEncoded k sym p s).col =
      (if printable k sym p = true ∧ 69 ≤ s.col.toNat then 0 else s.col) + if printable k sym p = true then 1 else 0) := by
  refine ⟨?_, ?_, fun h => ?_⟩
  · simp only [(sendEncoded_sends k sym p s).sent, schrSyms, if_neg hcr, if_neg hlf, List.append_assoc]
  · rw [sendEncoded_alpha, if_neg (not_or.mpr ⟨hcr, hlf⟩)]
  · simp only [sendEncoded_col (distinctControls h), if_neg hcr, if_neg hlf, wrapCol_le_iff]

/-- Settles O26, by the three kinds of symbols: CR, LF, payload. -/
theorem schrSendsTheSpecifiedSymbols : Obligations.SchrSendsTheSpecifiedSymbols := by
  intro s c f
  refine ⟨_, exec_schr c f s, ?_⟩
  intro k r wraps
  rw [sendChar_eq]
  by_cases hcr : r.1 = k.symCr
  · rw [if_pos hcr]
    show sendEncoded k r.1 r.2 s = s
    rw [hcr, sendEncoded_cr]
  rw [if_neg hcr]
  by_cases hlf : r.1 = k.symLf
  · rw [if_pos hlf]
    exact sendEncoded_lf hcr hlf r.2 s
  · rw [if_neg hlf]
    have hpayload := sendEncoded_payload hcr hlf r.2 s
    rwa [wrapSyms_eq, shiftSyms_eq] at hpayload

/-- Settles O27: on the shipped tables CR's code alone holds 0x0D, and SCHR of CR is the identity. -/
theorem carriageReturnIsDropped : Obligations.CarriageReturnIsDropped := by
  refine fun s c f => ⟨fun hk => by rw [hk]; exact shipped_cr_iff _ _ c f, fun hcr => ?_⟩
  rw [exec_schr, sendChar_eq, hcr, sendEncoded_cr]

/-- Settles O28: on the shipped tables LF's code alone holds 0x0A. -/
theorem lineFeedSendsCrThenLf : Obligations.LineFeedSendsCrThenLf := by
  intro s c f
  have hshipped (hk : s.cfg.code = shippedCode) :
      (encodeChar s.cfg.code s.cfg.unknownOrder s.alpha c f).1 = s.cfg.code.symLf ↔ c = 0x0A := by
    rw [hk]; exact shipped_lf_iff _ _ c f
  refine ⟨hshipped, fun h => ⟨_, exec_schr c f s, ?_⟩⟩
  obtain ⟨hdistinct, hlf⟩ : s.cfg.code.controlsDistinct = true ∧
      (encodeChar s.cfg.code s.cfg.unknownOrder s.alpha c f).1 = s.cfg.code.symLf :=
    h.elim id fun ⟨hk, hc⟩ => ⟨hk ▸ shippedTablesPassTheCheck.2, (hshipped hk).mpr hc⟩
  rw [sendChar_eq]
  exact sendEncoded_lf (hlf ▸ (distinctControls hdistinct).lfCr) hlf _ s

/-! ### SSTR (R127) -/

theorem keepsLinesBut_mono {ls ms : List LineNo} {s t : State} (h : KeepsLinesBut ls s t) (hsub : ls ⊆ ms) :
    KeepsLinesBut ms s t := fun n hn => h n fun hmem => hn (hsub hmem)

/-- A sending commands the writer and the power line at most (R26). -/
theorem keepsLinesBut_roles_of_sends {k : CodeTables} {l : List Sym} {s t : State} (h : Sends k l s t) :
    KeepsLinesBut [s.cfg.wrLine, s.cfg.pwrLine] s t :=
  keepsLinesBut_mono h.keepsOther (by split <;> simp)

/-- SSTR on a TEXT that holds a terminator (R127). -/
theorem exec_sstr_terminated {s : State} (h : textTerminated s.cfg.code s) (a : TextAddr) (f : FilterLevel) :
    exec (.sstr a f) s = .next ((sstrString s a).foldl (fun u c => sendChar s.cfg.code c f u) s) := by
  obtain ⟨t, u, -, hexec, rfl, -, ⟨-, rfl⟩ | ⟨hendless, -⟩⟩ := execSstr_spec a f s
  · exact hexec
  · obtain ⟨x, hx⟩ := h
    exact absurd hx (hendless x)

/-- Settles O30. -/
theorem sstrIsTheSchrSequence : Obligations.SstrIsTheSchrSequence := by
  intro s a f h
  obtain ⟨l, hs⟩ := sendChars_sends s.cfg.code f (sstrString s a) s
  exact ⟨_, exec_sstr_terminated h a f, execAll_schr f _ s, hs.res, hs.hostSide, ⟨hs.kbd, hs.samples⟩,
    keepsLinesBut_roles_of_sends hs⟩

theorem stringAt_of_terminator {k : CodeTables} {s : State} {a : Nat} (h : textRead s a = k.terminator) :
    ∀ n, stringAt k s n a = []
  | 0 => rfl
  | _ + 1 => if_pos h

/-- Settles O31: the string has no character. -/
theorem sstrOfTheEmptyStringDoesNothing : Obligations.SstrOfTheEmptyStringDoesNothing := by
  intro s a f h
  have hempty : sstrString s a = [] := stringAt_of_terminator (by rwa [textRead_textIndex]) _
  rw [exec_sstr_terminated ⟨_, h⟩, hempty, List.foldl_nil]

/-! ### Printable characters (R123, R131) -/

/-- No CR and no LF is in a list of symbols. -/
def NoCrLf (k : CodeTables) (l : List Sym) : Prop := k.symCr ∉ l ∧ k.symLf ∉ l

theorem noCrLf_nil (k : CodeTables) : NoCrLf k [] := ⟨List.not_mem_nil, List.not_mem_nil⟩

theorem NoCrLf.append {k : CodeTables} {l m : List Sym} (hl : NoCrLf k l) (hm : NoCrLf k m) : NoCrLf k (l ++ m) := by
  obtain ⟨hcr, hlf⟩ := hl
  obtain ⟨hcr', hlf'⟩ := hm
  simp [NoCrLf, *]

theorem noCrLf_shiftSyms {k : CodeTables} (h : DistinctControls k) (p : Page) (a : Alpha) :
    NoCrLf k (shiftSyms k p a) := by
  have hshift : shiftOf k p ≠ k.symCr ∧ shiftOf k p ≠ k.symLf := by
    cases p
    · exact ⟨h.ltrsCr, h.ltrsLf⟩
    · exact ⟨h.figsCr, h.figsLf⟩
  obtain ⟨hcr, hlf⟩ := hshift
  rw [shiftSyms_eq]
  split
  · exact noCrLf_nil k
  · simp [NoCrLf, h.nullCr.symm, h.nullLf.symm, hcr.symm, hlf.symm]

theorem ne_cr_lf_of_printable {k : CodeTables} {sym : Sym} {p : Page} (h : printable k sym p = true) :
    sym ≠ k.symCr ∧ sym ≠ k.symLf := by
  constructor <;> rintro rfl <;> simp [printable] at h

/-- A character prints whatever ALPHA is. -/
def AlwaysPrintable (k : CodeTables) (unk : Page) (f : FilterLevel) (c : Chr) : Prop :=
  ∀ a, printable k (encodeChar k unk a c f).1 (encodeChar k unk a c f).2 = true

/-- A printable character sends no CR and no LF but those of a due wrap, which come first (R123). -/
theorem sendEncoded_printable {k : CodeTables} {sym : Sym} {p : Page} (h : k.controlsDistinct = true)
    (hprint : printable k sym p = true) (s : State) :
    ∃ m, NoCrLf k m ∧
      (sendEncoded k sym p s).sent = s.sent ++ (if 69 ≤ s.col.toNat then [k.symCr, k.symLf] else []) ++ m ∧
      (sendEncoded k sym p s).col = (if 69 ≤ s.col.toNat then 0 else s.col) + 1 := by
  obtain ⟨hcr, hlf⟩ := ne_cr_lf_of_printable hprint
  obtain ⟨hsent, -, hcol⟩ := sendEncoded_payload hcr hlf p s
  have hpayload : NoCrLf k [sym] := ⟨by simpa using hcr.symm, by simpa using hlf.symm⟩
  refine ⟨_, (noCrLf_shiftSyms (distinctControls h) p s.alpha).append hpayload, ?_, ?_⟩
  · rw [hsent, wrapSyms_eq]
    simp only [hprint, true_and, List.append_assoc]
  · simpa only [hprint, true_and, if_true] using hcol h

/-- Printable characters that fit the line move the cursor on, one column each, and send no CR and no LF. -/
theorem sendChars_printable {k : CodeTables} {unk : Page} {f : FilterLevel} (h : k.controlsDistinct = true) :
    ∀ (cs : List Chr) (s : State), s.cfg.unknownOrder = unk → (∀ x ∈ cs, AlwaysPrintable k unk f x) →
      s.col.toNat + cs.length ≤ 69 →
      ∃ l, NoCrLf k l ∧ (cs.foldl (fun u c => sendChar k c f u) s).sent = s.sent ++ l ∧
        (cs.foldl (fun u c => sendChar k c f u) s).col.toNat = s.col.toNat + cs.length
  | [], s, _, _, _ => ⟨[], noCrLf_nil k, by simp⟩
  | c :: cs, s, hunk, hall, hfit => by
    subst hunk
    obtain ⟨hc, hcs⟩ := List.forall_mem_cons.mp hall
    rw [List.length_cons] at hfit
    have hroom : ¬ 69 ≤ s.col.toNat := by omega
    obtain ⟨syms, hs, -⟩ := sendChar_sends k c f s
    obtain ⟨m, hm, hsent, hcol⟩ := sendEncoded_printable h (hc s.alpha) s
    rw [← sendChar_eq] at hsent hcol
    rw [if_neg hroom] at hsent hcol
    rw [List.append_nil] at hsent
    have hnext : (sendChar k c f s).col.toNat = s.col.toNat + 1 := by rw [hcol]; bv_omega
    obtain ⟨l, hl, hsent', hcol'⟩ := sendChars_printable h cs (sendChar k c f s) (by rw [hs.cfg]) hcs (by omega)
    refine ⟨m ++ l, hm.append hl, ?_, ?_⟩
    · rw [List.foldl_cons, hsent', hsent, List.append_assoc]
    · rw [List.foldl_cons, hcol', hnext, List.length_cons]
      omega

/-- Settles O33: 69 characters fit the line, and the next one is due to wrap. -/
theorem seventyPrintablesWrapOnce : Obligations.SeventyPrintablesWrapOnce := by
  intro s f cs c k hk hcol hlen hall
  have hprint : ∀ x ∈ cs ++ [c], AlwaysPrintable k s.cfg.unknownOrder f x := hall
  obtain ⟨hcs, hc⟩ := List.forall_mem_append.mp hprint
  obtain ⟨l, ⟨hcr, hlf⟩, hsent, hlast⟩ := sendChars_printable hk cs s rfl hcs (by simp [hcol, hlen])
  obtain ⟨syms, hs⟩ := sendChars_sends k f cs s
  have hrun : execAll (cs.map fun x => .schr x f) s = .next (cs.foldl (fun u x => sendChar k x f u) s) :=
    execAll_schr f cs s
  generalize cs.foldl (fun u x => sendChar k x f u) s = u at hsent hlast hs hrun
  rw [hcol, hlen] at hlast
  have hlast' : u.col = 69 := BitVec.eq_of_toNat_eq hlast
  have hexec : exec (.schr c f) u = .next (sendChar k c f u) := by rw [exec_schr, hs.cfg]
  have hseventieth := List.forall_mem_singleton.mp hc u.alpha
  rw [← hs.cfg] at hseventieth
  obtain ⟨m, ⟨hcr', hlf'⟩, hsent', hcol'⟩ := sendEncoded_printable hk hseventieth u
  rw [← sendChar_eq, hlast'] at hsent' hcol'
  exact ⟨u, l, _, m, hrun, hsent, hcr, hlf, hlast', hexec, hsent', hcr', hlf', hcol'⟩

/-! ### "AB" with the shipped tables (R131) -/

theorem encodeChar_shipped_A (unk : Page) (a : Alpha) (f : FilterLevel) :
    encodeChar shippedCode unk a 0x41 f = (0x03, .letters) := by
  rw [encodeChar_of_unfiltered (by decide)]
  cases alphaPage unk a <;> decide

theorem encodeChar_shipped_B (unk : Page) (a : Alpha) (f : FilterLevel) :
    encodeChar shippedCode unk a 0x42 f = (0x19, .letters) := by
  rw [encodeChar_of_unfiltered (by decide)]
  cases alphaPage unk a <;> decide

/-- TEXT wraps (R59). -/
theorem textRead_add_textSize (s : State) (x : Nat) : textRead s (x + textSize s.platform) = textRead s x := by
  rw [textRead, textIndex, Nat.add_mod_right]
  rfl

/-- A string of two characters: in a TEXT of one or two bytes its three bytes could not differ. -/
theorem sstrString_pair {s : State} {a : TextAddr} {c d : Chr} (hc : textRead s a.toNat = c)
    (hd : textRead s (a.toNat + 1) = d) (hend : textRead s (a.toNat + 2) = s.cfg.code.terminator)
    (hcend : c ≠ s.cfg.code.terminator) (hdend : d ≠ s.cfg.code.terminator) (hcd : c ≠ d) : sstrString s a = [c, d] := by
  have hwrap := textRead_add_textSize s a.toNat
  have hone : textSize s.platform ≠ 1 := fun h => hcd (by rw [← hc, ← hd, ← hwrap, h])
  have htwo : textSize s.platform ≠ 2 := fun h => hcend (by rw [← hc, ← hend, ← hwrap, h])
  obtain ⟨n, hn⟩ : ∃ n, textSize s.platform = n + 2 + 1 :=
    ⟨textSize s.platform - 3, by have := textSize_pos s.platform; omega⟩
  have hfirst : textRead s (textIndex s.platform a.toNat) = c := by rw [textRead_textIndex, hc]
  have hsecond : textRead s (nextText s.platform (textIndex s.platform a.toNat)) = d := by
    rw [nextText, textIndex_add, textRead_textIndex, hd]
  have hthird : textRead s (nextText s.platform (nextText s.platform (textIndex s.platform a.toNat))) =
      s.cfg.code.terminator := by
    rw [nextText, nextText, textIndex_add, Nat.add_assoc, textIndex_add, textRead_textIndex, hend]
  rw [sstrString, hn, stringAt, hfirst, if_neg hcend, stringAt, hsecond, if_neg hdend, stringAt_of_terminator hthird]

/-- Settles O34: A changes the page, B does not. -/
theorem abFromTheUnknownPage : Obligations.AbFromTheUnknownPage := by
  intro s a f hk halpha hcol hA hB hend
  have hterm : s.cfg.code.terminator = 0x00 := by rw [hk]; rfl
  have hstring : sstrString s a = [0x41, 0x42] :=
    sstrString_pair hA hB (hend.trans hterm.symm) (by rw [hterm]; decide) (by rw [hterm]; decide) (by decide)
  have hdistinct := shippedTablesPassTheCheck.2
  have hexec := exec_sstr_terminated ⟨_, hend.trans hterm.symm⟩ a f
  rw [hstring, hk] at hexec
  refine ⟨_, hexec, ?_⟩
  simp only [List.foldl_cons, List.foldl_nil, sendChar_eq shippedCode 0x41, sendChar_eq shippedCode 0x42,
    encodeChar_shipped_A, encodeChar_shipped_B]
  obtain ⟨hsent, hpage, hcol'⟩ :=
    sendEncoded_payload (k := shippedCode) (sym := 0x03) (by decide) (by decide) .letters s
  generalize sendEncoded shippedCode 0x03 .letters s = u at hsent hpage hcol'
  obtain ⟨hsent', hpage', hcol''⟩ :=
    sendEncoded_payload (k := shippedCode) (sym := 0x19) (by decide) (by decide) .letters u
  have hone : u.col = 1 := by rw [hcol' hdistinct, hcol]; decide
  rw [halpha, hcol] at hsent
  rw [hsent, hpage, hone] at hsent'
  refine ⟨?_, hpage', ?_⟩
  · simp only [hsent', List.append_assoc]
    rfl
  · rw [hcol'' hdistinct, hone]
    decide

end Sys2Proof.Proofs.LineDiscipline
end

section
/-! PROOFS. The transport (spec/42_transport.md): what SRAW leaves on the lines, DSB as a peek at the keyboard line, RRAW as
one reception, and the loop-back of the two. -/

namespace Sys2Proof.Proofs.Transport

open Sys2Proof Sys2Proof.Machine Sys2Proof.Proofs.Operations Sys2Proof.Proofs.Codec

/-! ### SRAW (R141 to R144, R154, R155) -/

theorem exec_sraw (sym : Sym) (s : State) : exec (.sraw sym) s = .next (sendRaw s.cfg.code sym s) := rfl

/-- Settles O40: SRAW sends its one symbol, and SendRaw knows no tracker. -/
theorem srawSendsOneSymbolAndTracksNothing : Obligations.SrawSendsOneSymbolAndTracksNothing := by
  intro s sym
  have h := sendRaw_sends s.cfg.code sym s
  obtain ⟨hpin, hshadow⟩ := h.mark (by simp)
  exact ⟨_, exec_sraw sym s, h.sent, h.stamped (by simp), hpin, hshadow, ⟨sendRaw_alpha _ sym s, sendRaw_col _ sym s⟩,
    h.res, h.hostSide, ⟨h.kbd, h.samples⟩, h.keepsOther⟩

/-- The commands of one frame with exact Sleeps: slot `n` begins `n` T_SYM after the start bit (R77, R155). -/
theorem framesCommands_singleton (k : CodeTables) (c : Cfg) (sym : Sym) (t : Nat) :
    framesCommands k c [sym] t =
      [⟨c.wrLine, false, t + 0 * c.tSym⟩, ⟨c.wrLine, sym.getLsbD 0, t + 1 * c.tSym⟩,
        ⟨c.wrLine, sym.getLsbD 1, t + 2 * c.tSym⟩, ⟨c.wrLine, sym.getLsbD 2, t + 3 * c.tSym⟩,
        ⟨c.wrLine, sym.getLsbD 3, t + 4 * c.tSym⟩, ⟨c.wrLine, sym.getLsbD 4, t + 5 * c.tSym⟩,
        ⟨c.wrLine, true, t + 6 * c.tSym⟩] := rfl

/-- SendRaw in the time of its frame, after the warm-up where one is due (R142, R155). -/
theorem sendRaw_clock_exact {k : CodeTables} {sym : Sym} {s : State}
    (hx : ExactTime s (powerOnDelay s + frameTime k s.cfg sym)) :
    (sendRaw k sym s).clock = timeAfter s (powerOnDelay s + frameTime k s.cfg sym) := by
  have h := (sendRaw_sends k sym s).time
  rw [sendingTime_singleton] at h
  exact h hx

/-- Settles O41: the commands are SendRaw's, and exact Sleeps fix their times. -/
theorem srawLineTrace : Obligations.SrawLineTrace := by
  intro s sym up sleeps on at_ stop total
  obtain ⟨-, -, hstamp, es, ⟨htrace, -⟩, hlevels, htimes⟩ := sendRaw_spec s.cfg.code sym s
  have htrace' : (sendRaw s.cfg.code sym s).trace = s.trace ++ powerOnCommands s ++ es := by
    rw [htrace, List.append_assoc]
  refine ⟨_, es, exec_sraw sym s, htrace', hstamp, hlevels, htimes, fun hx => ?_⟩
  have hclock := sendRaw_clock_exact hx
  have hexact := (sendRaw_sends s.cfg.code sym s).trace_exact (by simp) hx
  rw [htrace', List.append_cancel_left_eq, framesCommands_singleton] at hexact
  simp only [Nat.add_assoc] at hexact
  exact ⟨hexact, hclock, hclock ▸ hstamp⟩

/-- Settles O42: the shipped divisor is 2, so that the quotient of R37 is defined. -/
theorem stopIntervalIsLongAfterAShift : Obligations.StopIntervalIsLongAfterAShift := by
  intro c sym hnum hden hmult
  simp only [stopInterval, isShift, Bool.or_eq_true, beq_iff_eq, hnum, hden, hmult]
  rfl

/-! ### DSB (R145, R146) -/

/-- DSB once the block is powered: one sample of the keyboard line, and FLAG. -/
def peek (s : State) : State :=
  setRes (resOfFlag (lineActive s.cfg (lineLevel s.cfg.kbdLine s))) (lineGet s.cfg.kbdLine s)

theorem exec_dsb (s : State) : exec .dsb s = .next (peek (autoPowerOn s)) := rfl

theorem peek_samples (s : State) :
    (peek s).samples = s.samples ++ [⟨s.cfg.kbdLine, lineLevel s.cfg.kbdLine s, (peek s).clock⟩] := rfl

/-- The sample is the environment's next answer (R55). -/
theorem peek_answer {s : State} {b : Bool} {bs : List Bool} (h : s.kbd = b :: bs) :
    lineLevel s.cfg.kbdLine s = b ∧ (peek s).kbd = bs := by
  simp [lineLevel, peek, lineGet, h]

theorem peek_res (s : State) : (peek s).res = resOfFlag (lineLevel s.cfg.kbdLine s != s.cfg.kbdMarkLevel) := rfl

theorem resFlag_resOfFlag (b : Bool) : resFlag (resOfFlag b) = b := by cases b <;> decide

theorem peek_flag (s : State) : resFlag (peek s).res = (lineLevel s.cfg.kbdLine s != s.cfg.kbdMarkLevel) := by
  rw [peek_res, resFlag_resOfFlag]

theorem peek_keepsHostSide (s : State) : KeepsHostSide s (peek s) := ⟨rfl, rfl, rfl, rfl, fun _ => rfl⟩

/-- Settles O44: no power-on is due. -/
theorem dsbPeeksWhenPowered : Obligations.DsbPeeksWhenPowered := by
  intro s hp
  have hexec := exec_dsb s
  rw [autoPowerOn, if_pos hp] at hexec
  exact ⟨peek s, lineLevel s.cfg.kbdLine s, hexec, peek_samples s, fun _ _ => peek_answer, peek_res s, peek_flag s, rfl, rfl,
    ⟨rfl, rfl⟩, peek_keepsHostSide s, rfl, rfl, rfl⟩

/-- Settles O45: the power-on neither samples nor answers, so that the peek after it is one of the entry's keyboard line. -/
theorem dsbPowersOnWhenUnpowered : Obligations.DsbPowersOnWhenUnpowered := by
  intro s hp
  have hexec := exec_dsb s
  have hup : autoPowerOn s = setPower true s := if_neg (by simp [hp])
  obtain ⟨q, hsent, hstamp, hcmds, htime⟩ := setPower_spec true s
  rw [hup] at hexec
  rw [Bool.true_beq] at hcmds
  generalize setPower true s = u at *
  have hlines : Commands [⟨s.cfg.pwrLine, s.cfg.powerOnLevel, s.clock⟩] s (peek u) := hcmds.congr rfl rfl
  have hhost : KeepsHostSide s u := ⟨q.cfg, q.platform, q.status, q.port, textRead_congr q.text q.platform⟩
  refine ⟨peek u, lineLevel u.cfg.kbdLine u, hexec, hstamp, hlines.1, ?samples, ?answer, ?res, ?flag, ?exact, htime,
    ⟨q.alpha, q.col⟩, hhost, hsent, ?lines⟩
  case samples => rw [peek_samples, q.samples, q.cfg]
  case answer => exact fun b bs hk => peek_answer (q.kbd.trans hk)
  case res => rw [peek_res, q.cfg]
  case flag => rw [peek_flag, q.cfg]
  case exact =>
    intro hx
    have hslept := htime (hx.fits 1)
    rw [hx.1] at hslept
    exact hslept.exact
  case lines => exact fun n hn => hlines.keepsOther n (by simpa [eq_comm] using hn)

/-! ### RRAW: one reception (R147 to R151) -/

/-- ALPHA after RRAW: echo decodes the symbol (R150). -/
def rrawAlpha (echo : Bool) (s : State) (sym : Sym) : Alpha :=
  if echo then decodeAlpha s.cfg.code s.alpha sym else s.alpha

/-- RES of RRAW (R33, R150). -/
def rrawRes (echo : Bool) (s : State) (sym : Sym) : BitVec 32 :=
  if echo then resOfSymChar sym (decodeChar s.cfg.code s.cfg.decodeUnknownPage s.alpha sym) else resOfSym sym

theorem resSym_rrawRes (echo : Bool) (s : State) (sym : Sym) : resSym (rrawRes echo s sym) = sym := by
  cases echo with
  | false => exact (resOfSym_fields sym).2.2.2
  | true => exact (resOfSymChar_fields sym _).2.2.2

/-- RRAW with and without echo, over one reception. -/
theorem exec_rraw (echo : Bool) (s : State) :
    exec (.rraw echo) s = .next (setRes (rrawRes echo s (receiveFrame echo s).1)
      (powerTouch (setAlpha (rrawAlpha echo s (receiveFrame echo s).1) (receiveFrame echo s).2))) := by
  obtain ⟨-, -, -, -, -, -, -, hlistens, -⟩ := receiveFrame_spec echo s
  have halpha := hlistens.alpha
  cases echo with
  | false => rw [exec, execRraw_plain, rrawAlpha, if_neg Bool.false_ne_true, ← halpha]; rfl
  | true => rw [exec, execRraw_echo, halpha, decodeSym, halpha]; rfl

/-- The instants of a reception that begins at `entry` (R147, R151): the start of the echo's frame, the samples, the end of
the last sample's wait, the return. -/
def Scheduled (c : Cfg) (entry start : Nat) (ts : List Nat) (stop done : Nat) : Prop :=
  Slept c.sleepJitter 1 (c.tSym / 2) entry start ∧
    ∃ a, Slept c.sleepJitter 1 c.tSym start a ∧ Paced c.sleepJitter a (rxWaits c) ts stop ∧
      Slept c.sleepJitter 1 c.rxMargin stop done

/-- The length of a reception (R151). -/
def receptionTime (c : Cfg) : Nat := c.tSym / 2 + c.tSym + 4 * c.tSym + c.rxTail + c.rxMargin

/-- What RRAW does from `s` to `t`, with the samples it takes and the instants at which its echo starts and stops. -/
structure Receives (echo : Bool) (es : List LineEvent) (start stop : Nat) (s t : State) : Prop where
  count : es.length = 5
  line : ∀ e ∈ es, e.line = s.cfg.kbdLine
  answers : ∀ bs rest, s.kbd = bs ++ rest → bs.length = 5 → es.map (·.level) = bs ∧ t.kbd = rest
  samples : t.samples = s.samples ++ es
  alpha : t.alpha = rrawAlpha echo s (assembled s.cfg 0 es)
  col : t.col = s.col
  res : t.res = rrawRes echo s (assembled s.cfg 0 es)
  stamped : t.powerOnSince = some t.clock
  sent : t.sent = s.sent
  host : KeepsHostSide s t
  commands : Commands (if echo then echoFrame s.cfg start stop es else []) s t
  times : FitsClock s (receptionTime s.cfg) 8 → Scheduled s.cfg s.clock start (es.map (·.time)) stop t.clock

theorem exec_rraw_receives (echo : Bool) (s : State) :
    ∃ t es start stop, exec (.rraw echo) s = .next t ∧ Receives echo es start stop s t := by
  obtain ⟨es, start, stop, hcount, hline, hanswers, hsym, q, hsamples, hcmds, htimes⟩ := receiveFrame_spec echo s
  refine ⟨_, es, start, stop, exec_rraw echo s, ?_⟩
  rw [hsym]
  exact {
    count := hcount, line := hline, answers := hanswers, samples := hsamples, alpha := rfl, col := q.col, res := rfl
    stamped := rfl, sent := q.sent
    host := ⟨q.cfg, q.platform, q.status, q.port, textRead_congr q.text q.platform⟩
    commands := hcmds.congr rfl rfl, times := htimes }

section Reception

variable {echo : Bool} {es : List LineEvent} {start stop : Nat} {s t : State}

/-- RES.SYM is the symbol the samples make (R148). -/
theorem Receives.resSym_eq (h : Receives echo es start stop s t) : resSym t.res = assembled s.cfg 0 es := by
  rw [h.res, resSym_rrawRes]

/-- With exact Sleeps every instant of the reception is fixed (R151). -/
theorem Receives.exact (h : Receives echo es start stop s t) (hx : ExactTime s (receptionTime s.cfg)) :
    start = timeAfter s (s.cfg.tSym / 2) ∧
    stop = timeAfter s (s.cfg.tSym / 2 + s.cfg.tSym + 4 * s.cfg.tSym + s.cfg.rxTail) ∧
    es.map (·.time) = [0, 1, 2, 3, 4].map (fun n => timeAfter s (s.cfg.tSym / 2 + s.cfg.tSym + n * s.cfg.tSym)) ∧
    t.clock = timeAfter s (receptionTime s.cfg) := by
  obtain ⟨hstart, a, hfirst, hpaced, hmargin⟩ := h.times (hx.fits 8)
  rw [hx.1] at hstart hfirst hpaced hmargin
  exact reception_exact hstart hfirst hpaced hmargin

/-- Without echo no line is commanded (R150). -/
theorem Receives.keepsLines (h : Receives false es start stop s t) : KeepsLines s t := by
  obtain ⟨htrace, hshadow⟩ := h.commands
  exact ⟨hshadow, by simpa using htrace, h.sent⟩

/-- Echo commands the writer line alone (R149). -/
theorem Receives.keepsLinesBut (h : Receives true es start stop s t) : KeepsLinesBut [s.cfg.wrLine] s t := by
  refine fun n hn => h.commands.keepsOther n fun e he heq => hn ?_
  rw [← heq, echoFrame_line he]
  exact List.mem_singleton_self _

/-- Echo of the data bits with a start and a stop (R149). -/
theorem Receives.trace_startAndStop (h : Receives true es start stop s t) (hf : s.cfg.echoFraming = .startAndStop) :
    t.trace = s.trace ++ [⟨s.cfg.wrLine, false, start⟩] ++ echoCommands s.cfg es ++ [⟨s.cfg.wrLine, true, stop⟩] := by
  rw [h.commands.1, if_pos rfl, echoFrame, if_pos hf]
  simp

/-- Echo of the data bits alone (R149, log 7). -/
theorem Receives.trace_dataOnly (h : Receives true es start stop s t) (hf : s.cfg.echoFraming = .dataOnly) :
    t.trace = s.trace ++ echoCommands s.cfg es := by
  rw [h.commands.1, if_pos rfl, echoFrame, if_neg (by simp [hf])]

end Reception

/-- Settles O46: the samples are the bits of the symbol that RES holds (R148). -/
theorem rrawReceivesFiveSamples : Obligations.RrawReceivesFiveSamples := by
  intro s
  obtain ⟨t, es, start, stop, hexec, h⟩ := exec_rraw_receives false s
  have hsym := h.resSym_eq
  refine ⟨t, es, hexec, h.samples, h.count, h.line, h.answers, fun i hi => ?_, ?_, h.stamped, ⟨h.alpha, h.col⟩, h.host,
    h.keepsLines⟩
  · rw [hsym]
    exact assembled_bits s.cfg es h.count i hi
  · rw [hsym]
    exact h.res

/-- CHAR, CHARV and FLAG are 0 in RES of a symbol alone (R33). -/
theorem resOfSym_reads (sym : Sym) :
    resChar (resOfSym sym) = 0 ∧ resCharValid (resOfSym sym) = false ∧ resFlag (resOfSym sym) = false := by
  revert sym; decide

/-- RES of RRAW with echo reads as RES of the character in the fields that the symbol does not write (R33, R85). -/
theorem resOfSymChar_reads (sym : Sym) (c : Chr) :
    resChar (resOfSymChar sym c) = c ∧ resCharValid (resOfSymChar sym c) = true ∧
    resFlag (resOfSymChar sym c) = false := by
  obtain ⟨hc, hv, hf⟩ := resOfSym_reads sym
  obtain ⟨hc', hv', hf'⟩ := resOfChar_reads c
  simp only [resChar, resCharValid, resFlag] at hc hv hf hc' hv' hf' ⊢
  simp only [resOfSymChar, BitVec.extractLsb'_or, BitVec.getLsbD_or, hc, hv, hf, hc', hv', hf', Bool.or_self,
    Bool.false_or]
  simp

/-- Settles O47: the character is looked up on the page that the decoded symbol leaves in ALPHA. -/
theorem rrawEchoMirrorsAndDecodes : Obligations.RrawEchoMirrorsAndDecodes := by
  intro s first total
  obtain ⟨t, es, start, stop, hexec, h⟩ := exec_rraw_receives true s
  have hres : t.res = resOfSymChar (assembled s.cfg 0 es)
      (tbl s.cfg.code (alphaPage s.cfg.decodeUnknownPage t.alpha) (assembled s.cfg 0 es)) := by
    rw [h.alpha]; exact h.res
  obtain ⟨hhigh, hbit7, hpage, -⟩ := hres ▸ resOfSymChar_fields (assembled s.cfg 0 es) _
  obtain ⟨hchar, hvalid, hflag⟩ := hres ▸ resOfSymChar_reads (assembled s.cfg 0 es) _
  refine ⟨t, es, assembled s.cfg 0 es, hexec, h.samples, h.count, h.line, h.answers, assembled_bits s.cfg es h.count,
    h.alpha, h.resSym_eq, hvalid, hchar, hpage, hflag, hbit7, hhigh, h.stamped, h.col, h.sent, h.host, h.keepsLinesBut,
    fun hf => ?framed, h.trace_dataOnly⟩
  case framed =>
    refine ⟨start, stop, h.trace_startAndStop hf, h.times, fun hx => ?_⟩
    obtain ⟨hstart, hstop, htimes, hclock⟩ := h.exact hx
    exact ⟨hstart, htimes, hstop, hclock⟩

/-- Settles O48: the first two waits are one of two Sleeps. -/
theorem rrawSampleTimes : Obligations.RrawSampleTimes := by
  intro s echo first total
  obtain ⟨t, es, start, stop, hexec, h⟩ := exec_rraw_receives echo s
  refine ⟨t, es, hexec, h.samples, fun hf => ?_, fun hx => ?_⟩
  · obtain ⟨hstart, a, hfirst, hpaced, hmargin⟩ := h.times hf
    exact ⟨a, stop, hstart.trans hfirst, hpaced, hmargin⟩
  · obtain ⟨-, -, htimes, hclock⟩ := h.exact hx
    exact ⟨htimes, hclock⟩

/-! ### Loop-back (R148) -/

/-- Samples at the levels of a symbol's bits, as the keyboard's polarity has them, make the symbol (R146, R148). -/
theorem assembled_of_levels {c : Cfg} {es : List LineEvent} {sym : Sym} (ho : c.rxOrder = .firstToBit0)
    (hl : es.map (·.level) = ([0, 1, 2, 3, 4].map sym.getLsbD).map (fun mark => mark == c.kbdMarkLevel)) :
    assembled c 0 es = sym := by
  have hcount : es.length = 5 := by simpa using congrArg List.length hl
  have hbits : es.map (fun e => e.level == c.kbdMarkLevel) = [0, 1, 2, 3, 4].map sym.getLsbD := by
    have hpolarity (b : Bool) : ((b == c.kbdMarkLevel) == c.kbdMarkLevel) = b := by
      cases b <;> cases c.kbdMarkLevel <;> rfl
    have h := congrArg (List.map (· == c.kbdMarkLevel)) hl
    simpa only [List.map_map, Function.comp_def, hpolarity] using h
  refine BitVec.eq_of_getLsbD_eq fun i hi => ?_
  rw [assembled_bits c es hcount i hi, hbits, ho]
  interval_cases i <;> rfl

/-- Settles O49: the answers are the levels of the frame that SRAW left. -/
theorem loopBackIsTheIdentity : Obligations.LoopBackIsTheIdentity := by
  intro s sym
  have hdata := sendRaw_lastFrameData s.cfg.code sym s
  refine ⟨_, exec_sraw sym s, hdata, fun r echo rest ho hk => ?_⟩
  rw [hdata] at hk
  obtain ⟨u, es, start, stop, hexec, h⟩ := exec_rraw_receives echo r
  obtain ⟨hlevels, hrest⟩ := h.answers _ rest hk rfl
  exact ⟨u, hexec, by rw [h.resSym_eq, assembled_of_levels ho hlevels], hrest⟩

end Sys2Proof.Proofs.Transport
end

section
/-! PROOFS. The power controller (spec/43_power.md): SPWR and the relay, GPWR and TPWR on the timestamp, CPWR on both sides of
the idle threshold; and the lines that the operations command. -/

namespace Sys2Proof.Proofs.Power

open Sys2Proof Sys2Proof.Machine Sys2Proof.Proofs.Operations Sys2Proof.Proofs.Transport

/-! ### The timestamp: GPWR and TPWR (R163, R164) -/

theorem exec_gpwr (s : State) : exec .gpwr s = .next (setRes (resOfFlag (powered s)) s) := rfl

theorem exec_tpwr (s : State) : exec .tpwr s = .next (powerTouch s) := rfl

theorem powered_iff (s : State) : powered s = true ↔ ∃ since, s.powerOnSince = some since := by
  rw [powered_eq, Option.isSome_iff_exists]

/-- RES when FLAG is its only field (R33). -/
theorem resOfFlag_word (b : Bool) : resOfFlag b = if b then 0x00010000 else 0 := by
  cases b <;> rfl

/-- Settles O51. -/
theorem gpwrReportsTheTimestamp : Obligations.GpwrReportsTheTimestamp := by
  intro s
  refine ⟨resOfFlag (powered s), exec_gpwr s, ?_, ?_⟩ <;> rw [resFlag_resOfFlag]
  · exact powered_iff s
  · exact resOfFlag_word (powered s)

/-- Settles O52: TPWR has no guard. -/
theorem tpwrStampsNow : Obligations.TpwrStampsNow := exec_tpwr

/-! ### SetPower: the relay (R161, R162) -/

theorem exec_spwr (on : Bool) (s : State) : exec (.spwr on) s = .next (setPower on s) := rfl

/-- The delay after a relay command is exact when Sleeps are (R62). -/
theorem setPower_clock_exact {on : Bool} {s : State}
    (hx : ExactTime s (if on then s.cfg.tWarmup else s.cfg.tCooldown)) :
    (setPower on s).clock = timeAfter s (if on then s.cfg.tWarmup else s.cfg.tCooldown) := by
  obtain ⟨-, -, -, -, htime⟩ := setPower_spec on s
  have hslept := htime (hx.fits 1)
  rw [hx.1] at hslept
  exact hslept.exact

theorem setPower_keepsHostSide (on : Bool) (s : State) : KeepsHostSide s (setPower on s) :=
  (setPower_operates on s).keepsHostSide

/-- SetPower commands the power line alone (R161). -/
theorem setPower_keepsOtherLines (on : Bool) (s : State) : KeepsLinesBut [s.cfg.pwrLine] s (setPower on s) := by
  obtain ⟨-, -, -, hcmds, -⟩ := setPower_spec on s
  exact fun n hn => hcmds.keepsOther n (by simpa [eq_comm] using hn)

/-- SHADOW shows the relay's new level (R24). -/
theorem setPower_shadow_pwrLine (on : Bool) (s : State) :
    (setPower on s).shadow.getLsbD s.cfg.pwrLine.toNat = (on == s.cfg.powerOnLevel) := by
  obtain ⟨-, -, -, ⟨-, hshadow⟩, -⟩ := setPower_spec on s
  rw [hshadow, applyCommands, List.foldl_cons, List.foldl_nil, shadowPut_getLsbD, if_pos rfl]

/-- Settles O50: SPWR is SetPower, whatever the state. -/
theorem spwrCommandsTheRelay : Obligations.SpwrCommandsTheRelay := by
  intro s on
  obtain ⟨q, hsent, hstamp, ⟨htrace, -⟩, htime⟩ := setPower_spec on s
  exact ⟨_, exec_spwr on s, htrace, setPower_shadow_pwrLine on s, hstamp, setPower_clock_exact, htime, ⟨q.alpha, q.col⟩,
    q.res, hsent, setPower_keepsHostSide on s, ⟨q.kbd, q.samples⟩, setPower_keepsOtherLines on s⟩

/-! ### CPWR on both sides of the threshold (R165 to R167) -/

theorem exec_cpwr_due {s : State} (h : timeoutDue s = true) :
    exec .cpwr s = .next (setRes (resOfFlag true) (setPower false s)) := if_pos h

theorem exec_cpwr_not_due {s : State} (h : timeoutDue s = false) : exec .cpwr s = .next (setRes (resOfFlag false) s) :=
  if_neg (by simp [h])

/-- An unpowered block has no timeout (R165). -/
theorem timeoutDue_unpowered {s : State} (h : s.powerOnSince = none) : timeoutDue s = false := by
  simp [timeoutDue, h]

/-- Powered, the elapsed time decides (R165, R166). -/
theorem timeoutDue_powered {s : State} {since : Nat} (h : s.powerOnSince = some since) (hle : since ≤ s.clock) :
    timeoutDue s = decide (s.cfg.idleThreshold ≤ s.clock - since) := by
  simp [timeoutDue, h, elapsed, hle]

/-- Below the threshold the timeout is not due (R167). -/
theorem timeoutDue_below {s : State} {since : Nat} (h : s.powerOnSince = some since) (hle : since ≤ s.clock)
    (hbelow : s.clock - since < s.cfg.idleThreshold) : timeoutDue s = false :=
  (timeoutDue_powered h hle).trans (decide_eq_false (Nat.not_le.mpr hbelow))

/-- From the threshold on the timeout is due (R167). -/
theorem timeoutDue_reached {s : State} {since : Nat} (h : s.powerOnSince = some since) (hle : since ≤ s.clock)
    (hreached : s.cfg.idleThreshold ≤ s.clock - since) : timeoutDue s = true :=
  (timeoutDue_powered h hle).trans (decide_eq_true hreached)

/-- Settles O53. -/
theorem cpwrBelowTheThreshold : Obligations.CpwrBelowTheThreshold := by
  rintro s (hoff | ⟨since, hon, hle, hbelow⟩)
  · exact exec_cpwr_not_due (timeoutDue_unpowered hoff)
  · exact exec_cpwr_not_due (timeoutDue_below hon hle hbelow)

/-- Settles O54: the timeout is SetPower(off), then FLAG. -/
theorem cpwrAtTheThreshold : Obligations.CpwrAtTheThreshold := by
  intro s since hon hle hreached
  obtain ⟨q, hsent, hstamp, ⟨htrace, -⟩, htime⟩ := setPower_spec false s
  rw [Bool.false_beq] at htrace
  exact ⟨_, exec_cpwr_due (timeoutDue_reached hon hle hreached), resOfFlag_word true, hstamp, htrace,
    setPower_clock_exact (on := false), htime, ⟨q.alpha, q.col⟩, hsent, setPower_keepsHostSide false s, ⟨q.kbd, q.samples⟩,
    setPower_keepsOtherLines false s⟩

/-! ### The threshold in real time (R166, R167) -/

theorem clockUnit_pos {p : Platform} {d : Nat} (h : 0 < nanoseconds p d) : 0 < p.clockUnit :=
  Nat.pos_of_lt_mul_left h

/-- Counts of a CLOCK_UNIT that is not 0 compare as their real times do. -/
theorem nanoseconds_le_iff {p : Platform} (hp : 0 < p.clockUnit) {a b : Nat} :
    nanoseconds p a ≤ nanoseconds p b ↔ a ≤ b :=
  Nat.mul_le_mul_right_iff hp

/-- Settles O55: a threshold of at least one second has a CLOCK_UNIT that is not 0, so that real times decide on which side
of the threshold the count is. -/
theorem cpwrReportsAtNSeconds : Obligations.CpwrReportsAtNSeconds := by
  intro s since seconds hpos hidle hon hle
  have hunit : 0 < s.platform.clockUnit := clockUnit_pos (d := s.cfg.idleThreshold) (by omega)
  refine ⟨fun hbefore => ?_, fun hat => ?_⟩
  · have hbelow : s.clock - since < s.cfg.idleThreshold := by
      rw [← Nat.not_le, ← nanoseconds_le_iff hunit]
      omega
    exact ⟨_, exec_cpwr_not_due (timeoutDue_below hon hle hbelow), resFlag_resOfFlag false, hon⟩
  · have hreached : s.cfg.idleThreshold ≤ s.clock - since := by
      rw [← nanoseconds_le_iff hunit, hidle, hat]
    exact ⟨_, exec_cpwr_due (timeoutDue_reached hon hle hreached), resFlag_resOfFlag true, rfl⟩

/-! ### The lines an operation commands (R169, R192) -/

/-- Settles O59: a line that no command names keeps its pin and its SHADOW bit. -/
theorem onlyWriterAndPowerLinesAreCommanded : Obligations.OnlyWriterAndPowerLinesAreCommanded := by
  intro i s t h
  obtain ⟨l, hop⟩ := exec_operates h
  obtain ⟨cmds, hcmds, hlines⟩ := hop.lines
  refine ⟨fun n hn => hcmds.keepsOther n fun e he heq => hn ?_, cmds, hcmds.1, hlines⟩
  simpa [heq] using hlines e he

end Sys2Proof.Proofs.Power
end

section
/-! PROOFS. Exceptions (spec/60_exceptions.md): a construction failure is taken and refuses the commands after it; no
operation fails, and only an SSTR without a terminator hangs; every operation leaves the writer line at mark. -/

namespace Sys2Proof.Proofs.Exceptions

open Sys2Proof Sys2Proof.Machine Sys2Proof.Proofs.BlockState Sys2Proof.Proofs.LineDiscipline Sys2Proof.Proofs.Transport
  Sys2Proof.Proofs.Power

/-! ### Construction failures (R181, R182) -/

/-- STATUS of a failure reads as its code and CONSTRUCTED = 0 (R34, R181). -/
theorem statusOf_errCode (e : ConstructError) :
    (statusOf (errCode e) false).extractLsb' 1 2 = errCode e ∧ (statusOf (errCode e) false).getLsbD 0 = false := by
  cases e <;> decide

theorem statusErr_raiseConstructError (e : ConstructError) (s : State) :
    statusErr (raiseConstructError e s) = errCode e := (statusOf_errCode e).1

theorem constructed_raiseConstructError (e : ConstructError) (s : State) :
    constructed (raiseConstructError e s) = false := (statusOf_errCode e).2

/-- A construction whose bank fails is taken, with the error of the step that failed (R182, R200). -/
theorem construct_bank_fails {c : Cfg} {bank : BankAnswer} {s : State} (h : wellConfigured s.platform c)
    (hbank : bank ≠ .ok) : ∃ e, errCode e = (if bank = .acquireFails then 1 else 2) ∧
      construct c bank s = .next (raiseConstructError e (blankDevice s)) := by
  rw [construct_wellConfigured h]
  cases bank with
  | ok => exact absurd rfl hbank
  | acquireFails => exact ⟨.acquire, rfl, rfl⟩
  | mapFails => exact ⟨.map, rfl, rfl⟩

/-- Every command word is refused before construction (R86). -/
theorem step_command_unconstructed {s : State} {w : CmdWord} {es : List HostEvent} (hs : s.sending = none)
    (hp : s.port = .command w :: es) (hc : constructed s = false) : step s = .refused .notConstructed := by
  have hc' : constructed (setPort es s) = false := hc
  rw [step_event hs hp, runEvent, runCommand, hc', if_neg Bool.false_ne_true]

/-- Settles O10: the failure leaves the blank device with its code in STATUS. -/
theorem constructionFailureIsTaken : Obligations.ConstructionFailureIsTaken := by
  intro s c bank es hs hp hw hbank
  obtain ⟨e, hcode, hfail⟩ := construct_bank_fails (s := setPort es s) hw hbank
  have hc := constructed_raiseConstructError e (blankDevice (setPort es s))
  refine ⟨_, (step_event hs hp).trans hfail, ?_, hc, rfl, rfl, rfl, fun w es' hes => ?_⟩
  · rw [statusErr_raiseConstructError, hcode]
  · exact step_command_unconstructed rfl hes hc

/-! ### Every operation has a next state (R180, R185) -/

/-- The auto power-on lets no SSTR begin or end. -/
theorem autoPowerOn_sending (s : State) : (autoPowerOn s).sending = s.sending := (autoPowerOn_spec s).1.sending

theorem setPower_sending (on : Bool) (s : State) : (setPower on s).sending = s.sending := (setPower_spec on s).1.sending

theorem receiveFrame_sending (echo : Bool) (s : State) : (receiveFrame echo s).2.sending = s.sending := by
  obtain ⟨-, -, -, -, -, -, -, hlistens, -⟩ := receiveFrame_spec echo s
  exact hlistens.sending

/-- CPWR switches the power off when the timeout is due, and sets FLAG (R165). -/
theorem exec_cpwr (s : State) :
    exec .cpwr s = .next (setRes (resOfFlag (timeoutDue s)) (if timeoutDue s then setPower false s else s)) := by
  cases h : timeoutDue s with
  | false => exact exec_cpwr_not_due h
  | true => exact exec_cpwr_due h

/-- SSTR of a string with a terminator returns (R127, R214). -/
theorem exec_sstr_returns {s : State} (h : textTerminated s.cfg.code s) (a : TextAddr) (f : FilterLevel) :
    ∃ t, exec (.sstr a f) s = .next t ∧ t.sending = s.sending := by
  obtain ⟨l, hs⟩ := sendChars_sends s.cfg.code f (sstrString s a) s
  exact ⟨_, exec_sstr_terminated h a f, hs.sending⟩

/-- Every operation has a next state (R180). -/
theorem exec_next (i : Instr) (s : State) : ∃ t, exec i s = .next t := by
  cases i with
  | rraw echo => exact ⟨_, exec_rraw echo s⟩
  | cpwr => exact ⟨_, exec_cpwr s⟩
  | enc | dec | schr | sstr | sraw | dsb | spwr | gpwr | tpwr => exact ⟨_, rfl⟩

/-- Every operation but SSTR has returned in its next state. -/
theorem exec_returns {i : Instr} {s t : State} (hi : ∀ a f, i ≠ .sstr a f) (h : exec i s = .next t) :
    t.sending = s.sending := by
  cases i with
  | sstr a f => exact absurd rfl (hi a f)
  | schr c f =>
    obtain ⟨l, hs, -⟩ := sendChar_sends s.cfg.code c f s
    cases h; exact hs.sending
  | sraw sym => cases h; exact (sendRaw_sends s.cfg.code sym s).sending
  | dsb => cases h; exact autoPowerOn_sending s
  | rraw echo => cases (exec_rraw echo s).symm.trans h; exact receiveFrame_sending echo s
  | spwr on => cases h; exact setPower_sending on s
  | cpwr =>
    cases (exec_cpwr s).symm.trans h
    rw [setRes_sending]
    split
    · exact setPower_sending false s
    · rfl
  | enc | dec | gpwr | tpwr => cases h; rfl

/-! ### SSTR without a terminator (R127, R185, R214) -/

/-- The bytes of TEXT from an address on, with the wrap of R59. -/
theorem textRead_textIndex_add (s : State) (a j : Nat) :
    textRead s (textIndex s.platform a + j) = textRead s (a + j) := by
  rw [textRead, textIndex_add, ← textRead]

/-- Without a terminator the string of an SSTR is all of TEXT, once round from the operand's address. -/
theorem sstrString_unterminated {s : State} (h : ∀ x, textRead s x ≠ s.cfg.code.terminator) (a : TextAddr) :
    (sstrString s a).length = textSize s.platform ∧
    ∀ j, j < textSize s.platform → (sstrString s a)[j]? = some (textRead s (a.toNat + j)) := by
  obtain ⟨hlen, hbytes⟩ := stringAt_unterminated h (textSize s.platform) (textIndex s.platform a.toNat)
  exact ⟨hlen, fun j hj => (hbytes j hj).trans (congrArg some (textRead_textIndex_add s a.toNat j))⟩

/-- A round of SSTR without a terminator sends all of TEXT and is still running at the TP it began with (R127). -/
theorem sendStringRound_unterminated {s : State} (h : ∀ x, textRead s x ≠ s.cfg.code.terminator) (tp : Nat)
    (f : FilterLevel) : sendStringRound tp f s = setSending (some ⟨textIndex s.platform tp, f⟩)
      ((stringAt s.cfg.code s (textSize s.platform) tp).foldl (fun u c => sendChar s.cfg.code c f u) s) := by
  obtain ⟨u, -, rfl, -, ⟨⟨x, hx⟩, -⟩ | ⟨-, hround⟩⟩ := sendStringRound_spec tp f s
  · exact absurd hx (h x)
  · exact hround

/-- The state after SCHR of the string `cs`, `n` times over. -/
def sendRounds (f : FilterLevel) (cs : List Chr) (n : Nat) (s : State) : State :=
  (List.replicate n cs).flatten.foldl (fun u c => sendChar s.cfg.code c f u) s

theorem execAll_rounds (f : FilterLevel) (cs : List Chr) (n : Nat) (s : State) :
    execAll ((List.replicate n cs).flatten.map fun c => .schr c f) s = .next (sendRounds f cs n s) :=
  execAll_schr f _ s

theorem sendRounds_sends (f : FilterLevel) (cs : List Chr) (n : Nat) (s : State) :
    ∃ syms, Sends s.cfg.code syms s (sendRounds f cs n s) :=
  sendChars_sends s.cfg.code f _ s

theorem sendRounds_succ (f : FilterLevel) (cs : List Chr) (n : Nat) (s : State) :
    sendRounds f cs (n + 1) s = cs.foldl (fun u c => sendChar s.cfg.code c f u) (sendRounds f cs n s) := by
  simp only [sendRounds, List.replicate_succ', List.flatten_append, List.flatten_singleton, List.foldl_append]

/-- The state of an SSTR without a terminator after `n` rounds: it runs on at the operand's address (log 14). -/
def hanging (a : TextAddr) (f : FilterLevel) (n : Nat) (s : State) : State :=
  setSending (some ⟨textIndex s.platform a.toNat, f⟩) (sendRounds f (sstrString s a) n s)

/-- One more round of TEXT, from the state that the rounds before have left. -/
theorem sendStringRound_rounds {s : State} (h : ∀ x, textRead s x ≠ s.cfg.code.terminator) (a : TextAddr)
    (f : FilterLevel) (n : Nat) :
    sendStringRound (textIndex s.platform a.toNat) f (sendRounds f (sstrString s a) n s) = hanging a f (n + 1) s := by
  obtain ⟨l, hs⟩ := sendRounds_sends f (sstrString s a) n s
  rw [hanging, sendRounds_succ]
  generalize sendRounds f (sstrString s a) n s = u at hs ⊢
  have hendless : ∀ x, textRead u x ≠ u.cfg.code.terminator := fun x => by
    rw [textRead_congr hs.text hs.platform, hs.cfg]; exact h x
  rw [sendStringRound_unterminated hendless, stringAt_congr hs.text hs.platform, hs.cfg, hs.platform, textIndex_idem]
  rfl

/-- SSTR without a terminator: the first round. -/
theorem exec_sstr_unterminated {s : State} (h : ∀ x, textRead s x ≠ s.cfg.code.terminator) (a : TextAddr)
    (f : FilterLevel) : exec (.sstr a f) s = .next (hanging a f 1 s) :=
  congrArg Host.Outcome.next (sendStringRound_rounds h a f 0)

theorem setSending_same {s : State} {p q : Option StringSend} (h : s.sending = p) :
    setSending p (setSending q s) = s := by
  subst h; rfl

/-- A step of the hang is the next round, whatever the host's events are (R187, R214). -/
theorem step_hanging {s : State} (hidle : s.sending = none) (h : ∀ x, textRead s x ≠ s.cfg.code.terminator)
    (a : TextAddr) (f : FilterLevel) (n : Nat) : step (hanging a f n s) = .next (hanging a f (n + 1) s) := by
  obtain ⟨l, hs⟩ := sendRounds_sends f (sstrString s a) n s
  rw [← sendStringRound_rounds h, step, hanging, setSending_sending]
  simp only [resumeSstr, setSending_same (hs.sending.trans hidle)]

theorem runSteps_hanging {s : State} (hidle : s.sending = none) (h : ∀ x, textRead s x ≠ s.cfg.code.terminator)
    (a : TextAddr) (f : FilterLevel) (n : Nat) :
    runSteps n (hanging a f 1 s) = .next (hanging a f (n + 1) s) := by
  induction n with
  | zero => rfl
  | succ n ih => rw [runSteps_succ' n _ _ ih, step_hanging hidle h]

/-- Settles O32: the operations other than SSTR return one by one, SSTR by its string, and a hang by induction on its
rounds. -/
theorem onlyUnterminatedTextHangs : Obligations.OnlyUnterminatedTextHangs := by
  refine ⟨fun i s => ?returns, fun s a f hidle hendless => ?hangs⟩
  case returns =>
    by_cases hi : ∃ a f, i = .sstr a f
    · obtain ⟨a, f, rfl⟩ := hi
      by_cases hendless : ∀ x, textRead s x ≠ s.cfg.code.terminator
      · exact ⟨_, exec_sstr_unterminated hendless a f, fun hnot => absurd ⟨⟨a, f, rfl⟩, hendless⟩ hnot⟩
      · obtain ⟨t, hexec, hsending⟩ := exec_sstr_returns (by simpa [textTerminated] using hendless) a f
        exact ⟨t, hexec, fun _ => hsending⟩
    · obtain ⟨t, hexec⟩ := exec_next i s
      exact ⟨t, hexec, fun _ => exec_returns (fun a f heq => hi ⟨a, f, heq⟩) hexec⟩
  case hangs =>
    obtain ⟨hlen, hbytes⟩ := sstrString_unterminated hendless a
    refine ⟨hlen, hbytes, _, exec_sstr_unterminated hendless a f, fun n => ?_⟩
    obtain ⟨l, hs⟩ := sendRounds_sends f (sstrString s a) (n + 1) s
    exact ⟨_, execAll_rounds f _ (n + 1) s, hs.port, runSteps_hanging hidle hendless a f n⟩

/-! ### The writer line rests at mark (R197) -/

/-- A writer line that was at mark in `s` is at mark in `t`. -/
def KeepsMark (s t : State) : Prop := pinLevel s.cfg.wrLine s = some true → pinLevel s.cfg.wrLine t = some true

theorem keepsMark_of_trace {s t : State} (h : t.trace = s.trace) : KeepsMark s t := fun hmark => by
  rwa [pinLevel, h]

/-- Every frame ends at mark (R77, R141). -/
theorem keepsMark_of_sends {k : CodeTables} {l : List Sym} {s t : State} (h : Sends k l s t) : KeepsMark s t := by
  by_cases hl : l = []
  · obtain ⟨-, -, htrace, -⟩ := h.untouched hl
    exact keepsMark_of_trace htrace
  · obtain ⟨hpin, -⟩ := h.mark hl
    exact fun _ => hpin

/-- The power line is not the writer line (R35). -/
theorem keepsMark_of_power {s t : State} (hroles : s.cfg.rolesDistinct = true) (h : KeepsLinesBut [s.cfg.pwrLine] s t) :
    KeepsMark s t := by
  have hne : s.cfg.wrLine ≠ s.cfg.pwrLine := by
    simp only [Cfg.rolesDistinct, Bool.and_eq_true, bne_iff_ne] at hroles
    tauto
  exact fun hmark => (h _ (by simpa using hne)).2.trans hmark

theorem autoPowerOn_keepsOtherLines (s : State) : KeepsLinesBut [s.cfg.pwrLine] s (autoPowerOn s) := by
  unfold autoPowerOn
  split
  · exact fun _ _ => ⟨rfl, rfl⟩
  · exact setPower_keepsOtherLines true s

/-- A reception commands nothing, or its echo ends with a stop condition (R149). -/
theorem keepsMark_of_receives {echo : Bool} {es : List LineEvent} {start stop : Nat} {s t : State}
    (h : Receives echo es start stop s t) (hf : s.cfg.echoFraming = .startAndStop) : KeepsMark s t := by
  cases echo with
  | false =>
    obtain ⟨-, htrace, -⟩ := h.keepsLines
    exact keepsMark_of_trace htrace
  | true =>
    intro _
    rw [pinLevel, h.trace_startAndStop hf, lastLevel_append, if_pos rfl]

/-- Settles O60, by what the operation commands: nothing, frames, the power line, an echo. -/
theorem writerLineRestsAtMark : Obligations.WriterLineRestsAtMark := by
  intro i s t hroles hf hmark h
  refine (?_ : KeepsMark s t) hmark
  cases i with
  | enc | dec | gpwr | tpwr => cases h; exact keepsMark_of_trace rfl
  | schr c f =>
    obtain ⟨l, hs, -⟩ := sendChar_sends s.cfg.code c f s
    cases h; exact keepsMark_of_sends hs
  | sstr a f =>
    obtain ⟨_, u, l, hexec, -, hs, hround⟩ := execSstr_spec a f s
    cases hexec.symm.trans h
    have hu : KeepsMark s u := keepsMark_of_sends hs
    rcases hround with ⟨-, rfl⟩ | ⟨-, rfl⟩
    · exact hu
    · exact hu
  | sraw sym => cases h; exact keepsMark_of_sends (sendRaw_sends s.cfg.code sym s)
  | dsb => cases h; exact keepsMark_of_power hroles (autoPowerOn_keepsOtherLines s)
  | rraw echo =>
    obtain ⟨u, es, start, stop, hexec, hr⟩ := exec_rraw_receives echo s
    cases hexec.symm.trans h
    exact keepsMark_of_receives hr hf
  | spwr on => cases h; exact keepsMark_of_power hroles (setPower_keepsOtherLines on s)
  | cpwr =>
    cases (exec_cpwr s).symm.trans h
    cases timeoutDue s with
    | false => exact keepsMark_of_trace rfl
    | true => exact keepsMark_of_power hroles (setPower_keepsOtherLines false s)

end Sys2Proof.Proofs.Exceptions
end

section
/-! PROOFS. Reset and hazards (spec/70_reset_and_hazards.md): what a construction leaves, the reset state and its place in the
invariant, the time that SCHR takes, and ALPHA as the tracker of the shifts sent. -/

namespace Sys2Proof.Proofs.ResetAndHazards

open Sys2Proof Sys2Proof.Machine Sys2Proof.Proofs.BlockState Sys2Proof.Proofs.Encoding Sys2Proof.Proofs.Codec
  Sys2Proof.Proofs.LineDiscipline Sys2Proof.Proofs.Transport

/-! ### The last shift symbol of a sequence (R212) -/

section LastShift

variable {k : CodeTables}

/-- Later symbols decide first. -/
theorem lastShiftPage_append (l m : List Sym) :
    lastShiftPage k (l ++ m) = (lastShiftPage k m).or (lastShiftPage k l) := by
  rw [lastShiftPage, List.reverse_append, List.find?_append, Option.map_or]
  rfl

theorem lastShiftPage_of_no_shift {l : List Sym} (h : ∀ x ∈ l, isShift k x = false) : lastShiftPage k l = none := by
  have hnone : l.reverse.find? (isShift k) = none := by simpa using h
  rw [lastShiftPage, hnone, Option.map_none]

/-- The page change of R124 ends with its page's shift symbol. -/
theorem lastShiftPage_pageChange (h : DistinctControls k) (p : Page) :
    lastShiftPage k [k.symNull, shiftOf k p, shiftOf k p] = some p := by
  cases p with
  | letters => simp [lastShiftPage, shiftOf, isShift]
  | figures => simp [lastShiftPage, shiftOf, isShift, h.figsLtrs]

theorem crLf_no_shift (h : DistinctControls k) : ∀ x ∈ [k.symCr, k.symLf], isShift k x = false := by
  simp [isShift, h.ltrsCr.symm, h.figsCr.symm, h.ltrsLf.symm, h.figsLf.symm]

theorem wrapSyms_no_shift (h : DistinctControls k) (sym : Sym) (p : Page) (col : Col) :
    ∀ x ∈ wrapSyms k sym p col, isShift k x = false := by
  rw [wrapSyms_eq]
  split
  · exact crLf_no_shift h
  · simp

end LastShift

/-! ### A filtered character never encodes to a shift symbol (R103, R105) -/

/-- Both pages' entries of the shift symbols are in filter class 1 (R76). -/
theorem tbl_shift_mem_class (k : CodeTables) {sym : Sym} (h : isShift k sym = true) (p : Page) :
    tbl k p sym ∈ shiftAndWruChars k := by
  simp only [isShift, Bool.or_eq_true, beq_iff_eq] at h
  rcases h with rfl | rfl <;> cases p <;> simp [shiftAndWruChars]

/-- The placeholder is no shift symbol: its character is in no filter class (R75 (g)). -/
theorem placeholder_not_shift {k : CodeTables} (hk : k.check = true) : isShift k k.placeholderSym = false := by
  simp only [CodeTables.check, Bool.and_eq_true] at hk
  obtain ⟨-, hplaceholder⟩ := hk
  simp only [CodeTables.placeholderUnfiltered, CodeTables.classChars, Bool.not_eq_true', List.contains_eq_mem,
    decide_eq_false_iff_not, List.mem_append, List.mem_cons, not_or] at hplaceholder
  obtain ⟨⟨-, hltrs, -, hfigs, -⟩, -⟩ := hplaceholder
  have hne : k.placeholderSym ≠ k.symLtrs ∧ k.placeholderSym ≠ k.symFigs :=
    ⟨fun h => hltrs (congrArg (tbl k .figures) h), fun h => hfigs (congrArg (tbl k .figures) h)⟩
  simp [isShift, hne]

/-- From level 1 on a character with a shift symbol's entry is substituted, so that the search finds no shift symbol. -/
theorem encodeChar_not_shift {k : CodeTables} (hk : k.check = true) {f : FilterLevel} (hf : 1 ≤ f) (unk : Page) (a : Alpha)
    (c : Chr) : isShift k (encodeChar k unk a c f).1 = false := by
  cases hhit : filterHit k (fold k (lower c)) f with
  | true =>
    rw [encodeChar_of_hit unk a hhit]
    exact placeholder_not_shift hk
  | false =>
    rw [encodeChar_of_no_hit unk a hhit]
    have unfiltered {p : Page} {sym : Sym} (hentry : tbl k p sym = fold k (lower c)) : isShift k sym = false := by
      refine Bool.eq_false_iff.mpr fun hshift => Bool.eq_false_iff.mp hhit ((filterHit_iff k _ f).mpr (.inl ⟨hf, ?_⟩))
      exact hentry ▸ tbl_shift_mem_class k hshift p
    rcases searchPages_spec k (alphaPage unk a) (fold k (lower c)) with ⟨hentry, -⟩ | ⟨-, hentry, -⟩ | ⟨-, -, hnone⟩
    · exact unfiltered hentry
    · exact unfiltered hentry
    · rw [hnone]
      exact placeholder_not_shift hk

/-! ### ALPHA stays true of the symbols sent (R212) -/

theorem pageAlpha_inj {p q : Page} (h : pageAlpha p = pageAlpha q) : p = q := by
  simpa using congrArg (alphaPage .letters) h

/-- Symbols that are no shift may follow while ALPHA stays. -/
theorem alphaTrueOfSent_of_no_shift {k : CodeTables} {s t : State} {l : List Sym} (h : AlphaTrueOfSent k s)
    (halpha : t.alpha = s.alpha) (hsent : t.sent = s.sent ++ l) (hl : ∀ x ∈ l, isShift k x = false) :
    AlphaTrueOfSent k t := by
  intro p hp
  rw [hsent, lastShiftPage_append, lastShiftPage_of_no_shift hl, Option.none_or]
  exact h p (halpha ▸ hp)

/-- SCHR after encoding: a payload that is no shift follows the page change that ALPHA follows too (R120, R124). -/
theorem sendEncoded_alphaTrueOfSent {k : CodeTables} (hk : DistinctControls k) {sym : Sym} (hsym : isShift k sym = false)
    (p : Page) {s : State} (h : AlphaTrueOfSent k s) : AlphaTrueOfSent k (sendEncoded k sym p s) := by
  by_cases hcr : sym = k.symCr
  · rwa [hcr, sendEncoded_cr]
  by_cases hlf : sym = k.symLf
  · obtain ⟨hsent, halpha, -⟩ := sendEncoded_lf hcr hlf p s
    exact alphaTrueOfSent_of_no_shift h halpha hsent (crLf_no_shift hk)
  obtain ⟨hsent, halpha, -⟩ := sendEncoded_payload hcr hlf p s
  have hwrap := wrapSyms_no_shift hk sym p s.col
  have hpayload : ∀ x ∈ [sym], isShift k x = false := by simpa using hsym
  rw [shiftSyms_eq] at hsent
  by_cases hp : pageAlpha p = s.alpha
  · rw [if_pos hp, List.append_nil, List.append_assoc] at hsent
    exact alphaTrueOfSent_of_no_shift h (halpha.trans hp) hsent (List.forall_mem_append.mpr ⟨hwrap, hpayload⟩)
  · rw [if_neg hp] at hsent
    intro q hq
    cases pageAlpha_inj (halpha.symm.trans hq)
    rw [hsent, lastShiftPage_append, lastShiftPage_of_no_shift hpayload, Option.none_or, lastShiftPage_append,
      lastShiftPage_pageChange hk, Option.some_or]

theorem sendChar_alphaTrueOfSent {k : CodeTables} (hk : k.wellFormed = true) {f : FilterLevel} (hf : 1 ≤ f) (c : Chr)
    {s : State} (h : AlphaTrueOfSent k s) : AlphaTrueOfSent k (sendChar k c f s) := by
  obtain ⟨hcheck, hdistinct⟩ := Bool.and_eq_true_iff.mp hk
  rw [sendChar_eq]
  exact sendEncoded_alphaTrueOfSent (distinctControls hdistinct) (encodeChar_not_shift hcheck hf _ _ c) _ h

theorem sendChars_alphaTrueOfSent {k : CodeTables} (hk : k.wellFormed = true) {f : FilterLevel} (hf : 1 ≤ f)
    (cs : List Chr) {s : State} (h : AlphaTrueOfSent k s) :
    AlphaTrueOfSent k (cs.foldl (fun u c => sendChar k c f u) s) := by
  induction cs generalizing s with
  | nil => exact h
  | cons c cs ih => exact ih (sendChar_alphaTrueOfSent hk hf c h)

/-- Settles O38: SCHR sends one filtered character, SSTR one after the other, and a hang is no sending. -/
theorem filteredSendsKeepAlphaTrue : Obligations.FilteredSendsKeepAlphaTrue := by
  rintro i s t f hk hf (⟨c, rfl⟩ | ⟨a, rfl⟩) h hexec
  · cases (exec_schr c f s).symm.trans hexec
    exact sendChar_alphaTrueOfSent hk hf c h
  · obtain ⟨_, u, -, hround, hu, -, hend⟩ := execSstr_spec a f s
    cases hround.symm.trans hexec
    have htrue : AlphaTrueOfSent s.cfg.code u := hu ▸ sendChars_alphaTrueOfSent hk hf (sstrString s a) h
    rcases hend with ⟨-, rfl⟩ | ⟨-, rfl⟩
    · exact htrue
    · exact htrue

/-! ### Construction (R200, R201) -/

/-- The bring-up commands the writer line and then the power line (R200 step 5). -/
theorem bringUp_commands (c : Cfg) (s : State) :
    Commands [⟨c.wrLine, true, s.clock⟩, ⟨c.pwrLine, !c.powerOnLevel, s.clock⟩] s (bringUp c s) :=
  ((lineCommand_commands c.wrLine true (setCfg c s)).trans
    (lineCommand_commands c.pwrLine (!c.powerOnLevel) _)).congr rfl rfl

theorem wrLine_ne_pwrLine {c : Cfg} (h : c.rolesDistinct = true) : c.wrLine ≠ c.pwrLine := by
  simp only [Cfg.rolesDistinct, Bool.and_eq_true, bne_iff_ne] at h
  tauto

/-- SHADOW after the bring-up of a blank device: the two lines' levels, and 0 elsewhere (R24, R201). -/
theorem bringUp_shadow {c : Cfg} (h : c.rolesDistinct = true) (s : State) (n : LineNo) :
    (bringUp c (blankDevice s)).shadow.getLsbD n.toNat =
      if n = c.wrLine then true else if n = c.pwrLine then !c.powerOnLevel else false := by
  obtain ⟨-, hshadow⟩ := bringUp_commands c (blankDevice s)
  have hblank : (blankDevice s).shadow.getLsbD n.toNat = false := BitVec.getLsbD_zero
  simp only [hshadow, applyCommands, List.foldl_cons, List.foldl_nil, shadowPut_getLsbD, hblank]
  by_cases hwr : n = c.wrLine
  · rw [if_pos hwr, if_pos hwr, if_neg (hwr ▸ wrLine_ne_pwrLine h)]
  · rw [if_neg hwr, if_neg hwr]

/-- Settles O9: the step is the bring-up of the blank device. -/
theorem constructionGivesTheResetValues : Obligations.ConstructionGivesTheResetValues := by
  intro s c es hs hp hw
  have hstep : step s = .next (bringUp c (blankDevice (setPort es s))) :=
    (step_event hs hp).trans (construct_wellConfigured (s := setPort es s) hw .ok)
  obtain ⟨hroles, -⟩ := hw
  obtain ⟨htrace, -⟩ := bringUp_commands c (blankDevice (setPort es s))
  exact ⟨_, hstep, rfl, rfl, rfl, rfl, rfl, rfl, bringUp_shadow hroles _, htrace, rfl, rfl, rfl, rfl, rfl, rfl, rfl, rfl⟩

/-! ### What SCHR puts on the lines (R205, R220, R221) -/

/-- A sending that is not empty begins with the power-on where one is due (R142, R205). -/
theorem sendingTime_eq {l : List Sym} (hl : l ≠ []) (k : CodeTables) (s : State) :
    sendingTime k s l = powerOnDelay s + (l.map (frameTime k s.cfg)).sum := by
  simp only [sendingTime, powerOnDelay, hl, or_false]

/-- Settles O39: SCHR is a sending of its symbols, whose commands and times `Sends` fixes. -/
theorem schrTakesTheTimeOfItsFrames : Obligations.SchrTakesTheTimeOfItsFrames := by
  intro s c f
  obtain ⟨l, hs, hnone⟩ := sendChar_sends s.cfg.code c f s
  by_cases hl : l = []
  · -- a CR: nothing is sent and nothing changes
    have hsame := hnone hl
    subst hl
    exact ⟨s, [], [], by rw [exec_schr, hsame], by simp, by simp, fun _ => rfl,
      fun _ => ⟨by simp [timeAfter], fun h => absurd rfl h⟩, fun h => absurd rfl h⟩
  · obtain ⟨es, htrace, hlevels, htimes⟩ := hs.frames hl
    rw [← sendingTime_eq hl] at htimes
    refine ⟨_, l, powerOnCommands s ++ es, exec_schr c f s, hs.sent, by rw [htrace, List.append_assoc], fun h => absurd h hl,
      fun hx => ⟨hs.time hx, fun _ => ?_⟩, fun _ => ⟨es, rfl, hlevels, htimes⟩⟩
    have hexact := hs.trace_exact hl (sendingTime_eq hl s.cfg.code s ▸ hx)
    rwa [htrace, List.append_assoc, List.append_assoc, List.append_cancel_left_eq] at hexact

/-! ### The reset state (R201, R203) -/

/-- The reset state is the bring-up of the reference configuration on a blank device (R200). -/
theorem reset_eq_bringUp : State.reset = bringUp referenceCfg (blankDevice State.reset) := rfl

/-- The stop interval of the reset state: 5 T_SYM after the two shift symbols, 1.5 T_SYM after the others (R143). -/
theorem reset_stopInterval (sym : Sym) :
    stopInterval State.reset.cfg.code State.reset.cfg sym = if sym = 0x1F ∨ sym = 0x1B then 100000 else 30000 :=
  stopIntervalIsLongAfterAShift referenceCfg sym rfl rfl rfl

/-- Settles O14. -/
theorem resetHasTheSpecifiedValues : Obligations.ResetHasTheSpecifiedValues := by
  have hroles : State.reset.cfg.rolesDistinct = true := by decide
  have htiming : shippedTiming State.reset.platform State.reset.cfg := by
    refine ⟨rfl, fun sym => ?_⟩
    have hshift : isShift State.reset.cfg.code sym = true ↔ sym = 0x1F ∨ sym = 0x1B := by
      rw [isShift, Bool.or_eq_true, beq_iff_eq, beq_iff_eq]; rfl
    simp only [reset_stopInterval, hshift]
    split <;> rfl
  exact ⟨rfl, rfl, rfl, rfl, rfl, rfl, rfl, hroles, rfl, reset_stopInterval, htiming, rfl, rfl⟩

/-- Settles O57: a constructed block, its two commands mirrored in SHADOW. -/
theorem resetSatisfiesInv : Obligations.ResetSatisfiesInv where
  colAtMost69 := by decide
  textCanonical := rfl
  clockFits := clockEnd_pos _
  stampFits := nofun
  shadowMirrors := by
    intro n
    rw [reset_eq_bringUp]
    exact (bringUp_commands referenceCfg (blankDevice State.reset)).mirrors n BitVec.getLsbD_zero
  shadowInBank := fun n hn => absurd n.isLt (Nat.not_lt.mpr hn)
  statusLegal := by decide
  resZeroFields := by decide
  configured := fun _ => ⟨rfl, rfl, Bool.and_eq_true_iff.mpr shippedTablesPassTheCheck⟩
  sendingEndless := nofun

end Sys2Proof.Proofs.ResetAndHazards
end
